-- ==== Sys2Proof/Word.lean ====
section
/-! DEFINITION. The bit-vector widths of the CHIP-8 CORE (spec/10_state.md R21–R28, spec/30_encoding.md R82). -/

namespace Sys2Proof

/-- One byte of memory, one V register, a timer, an immediate `kk` (R21, R27, R60, R82). -/
abbrev Byte := BitVec 8

/-- An instruction word, the index register, the program counter, a stack entry (R24, R25, R26, R80). -/
abbrev Word := BitVec 16

/-- A 4-bit field: a register index, a row count, a key code (R21, R47, R82). -/
abbrev Nibble := BitVec 4

/-- The 12-bit address field `nnn` (R82, R84). -/
abbrev Addr12 := BitVec 12

end Sys2Proof
end

