-- ==== Sys2Proof/Config.lean ====
section
/-! DEFINITION. The implementation parameters of spec/00_scope.md R8, and the free value of the random port. -/

namespace Sys2Proof

/-- The parameters of R8. A state carries them (`State.cfg`), so a claim about every state is a claim about every
setting of them (DESIGN CHOICE, safe: log 2). -/
structure Config where
  /-- `MEM_SIZE`, the memory capacity in bytes. -/
  memSize : Nat
  /-- `STACK_DEPTH`, the greatest number of return addresses held. -/
  stackDepth : Nat
  /-- `IPT`, instructions executed per tick. -/
  ipt : Nat
  /-- `IDLE_TICKS`, ticks without a key event after which every key reads released. -/
  idleTicks : Nat
  /-- `FONT`, the font table at 0x000. -/
  font : List Byte
  /-- `LEGACY_UNIMPLEMENTED`. -/
  legacyUnimplemented : Bool
  deriving DecidableEq, Repr

namespace Config

/-- The legal ranges of R8. -/
def legal (c : Config) : Bool :=
  decide (4096 ≤ c.memSize) && decide (c.memSize ≤ 65536)
    && decide (1 ≤ c.stackDepth) && decide (c.stackDepth ≤ 65536)
    && decide (1 ≤ c.ipt) && decide (1 ≤ c.idleTicks) && decide (c.font.length = 80)

/-- FREE VALUE (R148, D19, U1; log 4): the byte of draw number `n` where the host's list of random bytes is used up.
It has no body, so nothing can be proved of it beyond its being a byte. -/
opaque freeByte : Nat → Byte

end Config

end Sys2Proof
end

