-- ==== Sys2Proof/Syntax.lean ====
section
/-! DEFINITION. The 31 instructions of spec/30_encoding.md R85, one constructor per row of spec/opcode_table.json. -/

namespace Sys2Proof

/-- An instruction with its operand fields (R82, R83). The field `n` of 5xyn and 9xyn is kept although no rule
examines it (R90), so that an instruction determines its word (DESIGN CHOICE, safe: log 18). -/
inductive Instr where
  | cls                                   -- 00E0  R181
  | ret                                   -- 00EE  R120
  | jp (nnn : Addr12)                     -- 1nnn  R121
  | call (nnn : Addr12)                   -- 2nnn  R122
  | seImm (x : Nibble) (kk : Byte)        -- 3xkk  R123
  | sneImm (x : Nibble) (kk : Byte)       -- 4xkk  R124
  | seReg (x y n : Nibble)                -- 5xyn  R125
  | ldImm (x : Nibble) (kk : Byte)        -- 6xkk  R140
  | addImm (x : Nibble) (kk : Byte)       -- 7xkk  R141
  | ldReg (x y : Nibble)                  -- 8xy0  R142
  | orReg (x y : Nibble)                  -- 8xy1  R143
  | andReg (x y : Nibble)                 -- 8xy2  R144
  | xorReg (x y : Nibble)                 -- 8xy3  R145
  | addReg (x y : Nibble)                 -- 8xy4  R146
  | subReg (x y : Nibble)                 -- 8xy5  R147
  | sneReg (x y n : Nibble)               -- 9xyn  R126
  | ldI (nnn : Addr12)                    -- Annn  R160
  | jpV0 (nnn : Addr12)                   -- Bnnn  R127
  | rnd (x : Nibble) (kk : Byte)          -- Cxkk  R148
  | drw (x y n : Nibble)                  -- Dxyn  R182
  | skp (x : Nibble)                      -- Ex9E  R227
  | sknp (x : Nibble)                     -- ExA1  R228
  | ldVxDt (x : Nibble)                   -- Fx07  R204
  | ldVxK (x : Nibble)                    -- Fx0A  R229
  | ldDtVx (x : Nibble)                   -- Fx15  R205
  | ldStVx (x : Nibble)                   -- Fx18  R206
  | addIVx (x : Nibble)                   -- Fx1E  R161
  | ldFVx (x : Nibble)                    -- Fx29  R162
  | ldBVx (x : Nibble)                    -- Fx33  R163
  | storeRegs (x : Nibble)                -- Fx55  R164
  | loadRegs (x : Nibble)                 -- Fx65  R165
  deriving DecidableEq, Repr

end Sys2Proof
end

