-- ==== Sys2Proof/WellFormed.lean ====
section
/-! DEFINITION. Which instructions a configured block has. The operand ranges of spec/30_encoding.md R82 are carried
by the types of the fields; what is left to check is `LEGACY_UNIMPLEMENTED` (R91). -/

namespace Sys2Proof

/-- The three instructions that `LEGACY_UNIMPLEMENTED` takes away: Ex9E, Fx0A, Fx1E (R91). -/
def Instr.legacyGap : Instr → Bool
  | .cls => false
  | .ret => false
  | .jp _ => false
  | .call _ => false
  | .seImm _ _ => false
  | .sneImm _ _ => false
  | .seReg _ _ _ => false
  | .ldImm _ _ => false
  | .addImm _ _ => false
  | .ldReg _ _ => false
  | .orReg _ _ => false
  | .andReg _ _ => false
  | .xorReg _ _ => false
  | .addReg _ _ => false
  | .subReg _ _ => false
  | .sneReg _ _ _ => false
  | .ldI _ => false
  | .jpV0 _ => false
  | .rnd _ _ => false
  | .drw _ _ _ => false
  | .skp _ => true
  | .sknp _ => false
  | .ldVxDt _ => false
  | .ldVxK _ => true
  | .ldDtVx _ => false
  | .ldStVx _ => false
  | .addIVx _ => true
  | .ldFVx _ => false
  | .ldBVx _ => false
  | .storeRegs _ => false
  | .loadRegs _ => false

/-- The instruction exists on a block with this setting of `LEGACY_UNIMPLEMENTED` (R91). -/
def Instr.wellFormed (legacy : Bool) (i : Instr) : Bool := !(legacy && i.legacyGap)

end Sys2Proof
end

