-- ==== Sys2Proof/Decode.lean ====
section
/-! DEFINITION. The decoder of spec/30_encoding.md R82–R92, total on any bytes, and after it the encoder, written from
the same encoding map (R85). -/

namespace Sys2Proof

/-- Why bytes are no instruction. -/
inductive DecodeError where
  /-- Fewer than two bytes (R80). A fetch never gives these: it checks its range first (R103). -/
  | truncated
  /-- The word matches no row of R85 (R88). -/
  | invalidOpcode
  /-- Ex9E, Fx0A or Fx1E with `LEGACY_UNIMPLEMENTED` (R91). -/
  | unimplementedOpcode
  deriving DecidableEq, Repr

/-! ## Fields (R82) -/

/-- `c = w[15:12]`. -/
def fieldC (w : Word) : Nibble := w.extractLsb' 12 4
/-- `x = w[11:8]`. -/
def fieldX (w : Word) : Nibble := w.extractLsb' 8 4
/-- `y = w[7:4]`. -/
def fieldY (w : Word) : Nibble := w.extractLsb' 4 4
/-- `n = w[3:0]`. -/
def fieldN (w : Word) : Nibble := w.extractLsb' 0 4
/-- `kk = w[7:0]`. -/
def fieldKk (w : Word) : Byte := w.extractLsb' 0 8
/-- `nnn = w[11:0]`. -/
def fieldNnn (w : Word) : Addr12 := w.extractLsb' 0 12

/-! ## Decoding -/

/-- Class 0: only 0x00E0 and 0x00EE are valid (R86). -/
def decodeClass0 (w : Word) : Except DecodeError Instr :=
  if w = 0x00E0#16 then .ok .cls
  else if w = 0x00EE#16 then .ok .ret
  else .error .invalidOpcode

/-- Class 8 selects by `n`; 6 to 15 are invalid (R87). -/
def decodeClass8 (w : Word) : Except DecodeError Instr :=
  match fieldN w with
  | 0x0#4 => .ok (.ldReg (fieldX w) (fieldY w))
  | 0x1#4 => .ok (.orReg (fieldX w) (fieldY w))
  | 0x2#4 => .ok (.andReg (fieldX w) (fieldY w))
  | 0x3#4 => .ok (.xorReg (fieldX w) (fieldY w))
  | 0x4#4 => .ok (.addReg (fieldX w) (fieldY w))
  | 0x5#4 => .ok (.subReg (fieldX w) (fieldY w))
  | _ => .error .invalidOpcode

/-- An instruction that `LEGACY_UNIMPLEMENTED` takes away (R91). -/
def unlessLegacy (legacy : Bool) (i : Instr) : Except DecodeError Instr :=
  if legacy then .error .unimplementedOpcode else .ok i

/-- Class E selects by the whole byte `kk` (R85, R89). -/
def decodeClassE (legacy : Bool) (w : Word) : Except DecodeError Instr :=
  match fieldKk w with
  | 0x9E#8 => unlessLegacy legacy (.skp (fieldX w))
  | 0xA1#8 => .ok (.sknp (fieldX w))
  | _ => .error .invalidOpcode

/-- Class F selects by the whole byte `kk` (R85, R89). -/
def decodeClassF (legacy : Bool) (w : Word) : Except DecodeError Instr :=
  match fieldKk w with
  | 0x07#8 => .ok (.ldVxDt (fieldX w))
  | 0x0A#8 => unlessLegacy legacy (.ldVxK (fieldX w))
  | 0x15#8 => .ok (.ldDtVx (fieldX w))
  | 0x18#8 => .ok (.ldStVx (fieldX w))
  | 0x1E#8 => unlessLegacy legacy (.addIVx (fieldX w))
  | 0x29#8 => .ok (.ldFVx (fieldX w))
  | 0x33#8 => .ok (.ldBVx (fieldX w))
  | 0x55#8 => .ok (.storeRegs (fieldX w))
  | 0x65#8 => .ok (.loadRegs (fieldX w))
  | _ => .error .invalidOpcode

/-- The decoder: a pure function of the word and `LEGACY_UNIMPLEMENTED` (R92), by class first (R85). The last arm is
class F, the one class the others leave. -/
def decodeWord (legacy : Bool) (w : Word) : Except DecodeError Instr :=
  match fieldC w with
  | 0x0#4 => decodeClass0 w
  | 0x1#4 => .ok (.jp (fieldNnn w))
  | 0x2#4 => .ok (.call (fieldNnn w))
  | 0x3#4 => .ok (.seImm (fieldX w) (fieldKk w))
  | 0x4#4 => .ok (.sneImm (fieldX w) (fieldKk w))
  | 0x5#4 => .ok (.seReg (fieldX w) (fieldY w) (fieldN w))
  | 0x6#4 => .ok (.ldImm (fieldX w) (fieldKk w))
  | 0x7#4 => .ok (.addImm (fieldX w) (fieldKk w))
  | 0x8#4 => decodeClass8 w
  | 0x9#4 => .ok (.sneReg (fieldX w) (fieldY w) (fieldN w))
  | 0xA#4 => .ok (.ldI (fieldNnn w))
  | 0xB#4 => .ok (.jpV0 (fieldNnn w))
  | 0xC#4 => .ok (.rnd (fieldX w) (fieldKk w))
  | 0xD#4 => .ok (.drw (fieldX w) (fieldY w) (fieldN w))
  | 0xE#4 => decodeClassE legacy w
  | _ => decodeClassF legacy w

/-- The word of two bytes as memory holds them: big-endian, the byte at the lower address is `w[15:8]` (R67). -/
def wordOfBytes (hi lo : Byte) : Word := hi ++ lo

/-- `w[15:8]`, the byte at the lower address (R67). -/
def highByte (w : Word) : Byte := w.extractLsb' 8 8

/-- `w[7:0]`, the byte at the higher address (R67). -/
def lowByte (w : Word) : Byte := w.extractLsb' 0 8

/-- Decode the instruction at the front of a list of bytes and give the rest; its length is always 2 (R80). -/
def decodeBytes (legacy : Bool) : List Byte → Except DecodeError (Instr × List Byte)
  | hi :: lo :: rest =>
    match decodeWord legacy (wordOfBytes hi lo) with
    | .ok i => .ok (i, rest)
    | .error e => .error e
  | [_] => .error .truncated
  | [] => .error .truncated

/-! ## Encoding -/

/-- The formats NNN, XKK and XYN of R81. -/
def formatNnn (c : Nibble) (nnn : Addr12) : Word := c ++ nnn
def formatXkk (c x : Nibble) (kk : Byte) : Word := c ++ x ++ kk
def formatXyn (c x y n : Nibble) : Word := c ++ x ++ y ++ n

/-- The one word of an instruction (R85, R94). -/
def encode : Instr → Word
  | .cls => 0x00E0#16
  | .ret => 0x00EE#16
  | .jp nnn => formatNnn 0x1#4 nnn
  | .call nnn => formatNnn 0x2#4 nnn
  | .seImm x kk => formatXkk 0x3#4 x kk
  | .sneImm x kk => formatXkk 0x4#4 x kk
  | .seReg x y n => formatXyn 0x5#4 x y n
  | .ldImm x kk => formatXkk 0x6#4 x kk
  | .addImm x kk => formatXkk 0x7#4 x kk
  | .ldReg x y => formatXyn 0x8#4 x y 0x0#4
  | .orReg x y => formatXyn 0x8#4 x y 0x1#4
  | .andReg x y => formatXyn 0x8#4 x y 0x2#4
  | .xorReg x y => formatXyn 0x8#4 x y 0x3#4
  | .addReg x y => formatXyn 0x8#4 x y 0x4#4
  | .subReg x y => formatXyn 0x8#4 x y 0x5#4
  | .sneReg x y n => formatXyn 0x9#4 x y n
  | .ldI nnn => formatNnn 0xA#4 nnn
  | .jpV0 nnn => formatNnn 0xB#4 nnn
  | .rnd x kk => formatXkk 0xC#4 x kk
  | .drw x y n => formatXyn 0xD#4 x y n
  | .skp x => formatXkk 0xE#4 x 0x9E#8
  | .sknp x => formatXkk 0xE#4 x 0xA1#8
  | .ldVxDt x => formatXkk 0xF#4 x 0x07#8
  | .ldVxK x => formatXkk 0xF#4 x 0x0A#8
  | .ldDtVx x => formatXkk 0xF#4 x 0x15#8
  | .ldStVx x => formatXkk 0xF#4 x 0x18#8
  | .addIVx x => formatXkk 0xF#4 x 0x1E#8
  | .ldFVx x => formatXkk 0xF#4 x 0x29#8
  | .ldBVx x => formatXkk 0xF#4 x 0x33#8
  | .storeRegs x => formatXkk 0xF#4 x 0x55#8
  | .loadRegs x => formatXkk 0xF#4 x 0x65#8

/-- The bytes of an instruction as memory holds them (R67). -/
def encodeBytes (i : Instr) : List Byte := [highByte (encode i), lowByte (encode i)]

/-! ## The opcode table's words -/

/-- The first instruction word of a number numbered as spec/opcode_table.json numbers its bits, the bits from `nbits`
up being 0. -/
def tableWord (nbits w : Nat) : Word := BitVec.ofNat 16 (w % 2 ^ nbits)

/-- The instruction the decoder reads from an opcode-table word stored big-endian (R67), with the default
`LEGACY_UNIMPLEMENTED` = false (R8). -/
def decodeTableWord (nbits w : Nat) : Option Instr :=
  match decodeBytes false [highByte (tableWord nbits w), lowByte (tableWord nbits w)] with
  | .ok (i, _) => some i
  | .error _ => none

end Sys2Proof
end

