-- ==== Sys2Proof/Machine/Parameters.lean ====
section
/-! DEFINITION. The default values of the parameters (spec/00_scope.md R8, spec/20_memory.md R64) and the reset contents
of memory (R65). -/

namespace Sys2Proof.Machine

/-- The font table of R64: 16 glyphs of 5 bytes, glyph `d` at `d * 5`, top row first. The spec marks these bytes as
general knowledge (D6). -/
def defaultFont : List Byte :=
  [0xF0, 0x90, 0x90, 0x90, 0xF0,   0x20, 0x60, 0x20, 0x20, 0x70,
   0xF0, 0x10, 0xF0, 0x80, 0xF0,   0xF0, 0x10, 0xF0, 0x10, 0xF0] ++
  [0x90, 0x90, 0xF0, 0x10, 0x10,   0xF0, 0x80, 0xF0, 0x10, 0xF0,
   0xF0, 0x80, 0xF0, 0x90, 0xF0,   0xF0, 0x10, 0x20, 0x40, 0x40] ++
  [0xF0, 0x90, 0xF0, 0x90, 0xF0,   0xF0, 0x90, 0xF0, 0x10, 0xF0,
   0xF0, 0x90, 0xF0, 0x90, 0x90,   0xE0, 0x90, 0xE0, 0x90, 0xE0] ++
  [0xF0, 0x80, 0x80, 0x80, 0xF0,   0xE0, 0x90, 0x90, 0x90, 0xE0,
   0xF0, 0x80, 0xF0, 0x80, 0xF0,   0xF0, 0x80, 0xF0, 0x80, 0x80]

/-- The defaults of R8. -/
def defaultConfig : Config :=
  { memSize := 4096
    stackDepth := 16
    ipt := 1
    idleTicks := 60
    font := defaultFont
    legacyUnimplemented := false }

/-- The load address and entry point 0x200 (R8, R25, R62). -/
def loadAddress : Nat := 0x200

/-- The greatest image, `MEM_SIZE - 0x200` bytes (R52, R275). -/
def imageCapacity (c : Config) : Nat := c.memSize - loadAddress

/-- What address `a` holds before anything is loaded or stored: the font at 0x000–0x04F, 0x00 elsewhere (R65). It is
what an address the memory does not list reads as. -/
def initialByte (c : Config) (a : Nat) : Byte := if a < 80 then c.font.getD a 0 else 0

end Sys2Proof.Machine
end

