-- ==== Sys2Proof/Machine/State.lean ====
section
/-! DEFINITION. The state of the block (spec/10_state.md R20, the ports of R45–R52) as plain data, the host's coming
steps, and the state after reset. -/

namespace Sys2Proof.Machine

/-- The run state (R34). The encodings 6 and 7 are never produced and have no constructor (U16). -/
inductive RunState where
  | load | running | waitKey | halted | faulted | quit
  deriving DecidableEq, Repr

/-- The fault codes (R37). The codes 7 to 15 are never produced and have no constructor (U17). -/
inductive FaultCode where
  | none | invalidOpcode | unimplementedOpcode | memoryRange | stackOverflow | keyIndexRange | programLoad
  deriving DecidableEq, Repr

/-- The fault record (R36). -/
structure FaultRecord where
  code : FaultCode
  pc   : Word
  word : Word
  addr : BitVec 17
  deriving DecidableEq, Repr

/-- The flip-flops of the key-event port and of the quit input (R47, R48, R224). -/
structure Ports where
  /-- First flip-flop of `key_req`. -/
  keySync1  : Bool
  /-- Second flip-flop of `key_req`: the synchronized request. -/
  keySync2  : Bool
  /-- The output `key_ack`. -/
  keyAck    : Bool
  /-- First flip-flop of `quit`. -/
  quitSync1 : Bool
  /-- Second flip-flop of `quit`: the synchronized level. -/
  quitSync2 : Bool
  deriving DecidableEq, Repr

/-- The input pins at one rising edge of `clk` (R45–R48, R52). -/
structure Pins where
  rst     : Bool
  ldValid : Bool
  ldData  : Byte
  tick    : Bool
  keyReq  : Bool
  keyCode : Nibble
  quit    : Bool
  deriving DecidableEq, Repr

/-- What happens next in the total order of R111, as the host (and an implementation's timing) chooses it: one atomic
step of R102, R106, R108–R110, or one rising clock edge of the ports, which does what the pins ask (DESIGN CHOICE,
safe: log 3). -/
inductive HostStep where
  | exec
  | tick
  | key (k : Nibble)
  | quit
  | reset (img : List Byte)
  /-- An edge at which no instruction is in progress (log 14). -/
  | clock (p : Pins)
  /-- An edge at which the Exec step in progress completes (R251). With `overlap` the implementation has a Tick step in
  the same clock where R203 gives an order for the two; without it a Tick step is never in that clock (R282; log 21). -/
  | clockExec (overlap : Bool) (p : Pins)
  deriving DecidableEq, Repr

/-- A clock edge or a reset: it puts `rst` before everything else and quit in its place after it (R251). -/
def HostStep.ordersQuit : HostStep → Bool
  | .exec => false
  | .tick => false
  | .key _ => false
  | .quit => false
  | .reset _ => true
  | .clock _ => true
  | .clockExec _ _ => true

/-- The model's own fields for the block's inputs (R20: an input of a step is not state of the block; logs 3, 4). -/
structure HostInputs where
  /-- The coming steps, first one first; past the end the block goes on with its own enabled steps. The list is finite,
  so a host that sends key events or quit for ever (R111 c, R113, U3) is seen only by its finite beginnings (DESIGN
  CHOICE, unsafe for a claim that a run ends: log 22). -/
  steps : List HostStep
  /-- The bytes the host will present on `rnd[7:0]`, one for each Cxkk executed (R49). -/
  rnd   : List Byte
  /-- How many random bytes have been drawn; the argument of the free value `Config.freeByte`. -/
  draws : Nat
  deriving DecidableEq, Repr

/-- The framebuffer: 32 rows of 64 pixels, bit `x` of row `y` is `fb[y][x]` (R32, R50). -/
abbrev Framebuffer := Vector (BitVec 64) 32

/-- Memory: the bytes that differ from `initialByte`, by rising address (`Memory.wf` in Ops.lean). -/
abbrev Memory := List Host.Cell

/-- The state of the block. -/
structure State where
  /-- The parameters (R8; the model's own field, log 2). -/
  cfg   : Config
  /-- V0..VF (R21). -/
  v     : Vector Byte 16
  /-- I (R24). -/
  i     : Word
  /-- PC (R25). -/
  pc    : Word
  /-- The call stack, the newest return address first (R26). -/
  stack : List Word
  /-- DT (R27); the FSM counts exactly when it is not 0 (R29). -/
  dt    : Byte
  /-- ST (R28). -/
  st    : Byte
  /-- KEYS, bit `k` is `keys[k]` (R30). -/
  keys  : BitVec 16
  /-- Ticks since the last key event (R31). -/
  idle  : Nat
  /-- The framebuffer (R32). -/
  fb    : Framebuffer
  /-- Memory (R33). -/
  mem   : Memory
  /-- The run state (R34). -/
  run   : RunState
  /-- The register a waiting Fx0A will write (R34). -/
  wx    : Nibble
  /-- Instructions left before the next tick (R35). -/
  slots : Nat
  /-- The fault record (R36). -/
  fault : FaultRecord
  /-- Program bytes accepted (R38). -/
  ldCount : Nat
  /-- The load port was offered too many bytes (R38). -/
  loadErr : Bool
  /-- A tick pulse that came early (R39, R282). -/
  pendingTick : Bool
  /-- The synchronizers (R224). -/
  ports : Ports
  /-- `frame_update` pulses emitted since reset (R50, R185; the model's own count, log 8). -/
  frames : Nat
  /-- The inputs to come (the model's own field, logs 3, 4). -/
  host  : HostInputs
  deriving DecidableEq, Repr

/-- Nothing stops this machine with a fault of the model: every fatal condition of spec/60_exceptions.md R240 is a
state of the block (`State.run = .faulted` and the fault record), which a step answers as a next state. So there is no
reason to list, and the type is empty. -/
inductive Fault where
  deriving DecidableEq, Repr

/-- Why an instruction has no meaning. -/
inductive Refusal where
  /-- Raised by `exec` for an instruction whose meaning is not written yet; safe. No arm uses it now. -/
  | notModelled (mnemonic : String)
  deriving DecidableEq, Repr

/-- The fault record after reset (R36). -/
def FaultRecord.zero : FaultRecord := { code := .none, pc := 0, word := 0, addr := 0 }

/-- The synchronizers after power-on (DESIGN CHOICE, unsafe: log 6; the spec gives no value). -/
def Ports.quiet : Ports :=
  { keySync1 := false, keySync2 := false, keyAck := false, quitSync1 := false, quitSync2 := false }

/-- The state right after reset: `S0` of the empty image, with the default parameters and no input planned
(spec/70_reset_and_hazards.md R270, R272; log 1). -/
def State.reset : State :=
  { cfg := defaultConfig
    v := Vector.replicate 16 0
    i := 0
    pc := 0x0200
    stack := []
    dt := 0
    st := 0
    keys := 0
    idle := defaultConfig.idleTicks
    fb := Vector.replicate 32 0
    mem := []
    run := .running
    wx := 0
    slots := 0
    fault := FaultRecord.zero
    ldCount := 0
    loadErr := false
    pendingTick := false
    ports := Ports.quiet
    frames := 0
    host := { steps := [], rnd := [], draws := 0 } }

end Sys2Proof.Machine
end

