-- ==== Sys2Proof/Machine/Ops.lean ====
section
/-! DEFINITION. The shared operations over memory, registers and the program counter; taking a fault
(spec/60_exceptions.md R241) and the halts. -/

namespace Sys2Proof.Machine

/-! ## Memory (spec/20_memory.md) -/

/-- The byte at `a`: the listed one, else the reset contents (R65, R72). -/
def Memory.read (c : Config) : Memory → Nat → Byte
  | [], a => initialByte c a
  | (b, x) :: rest, a => if a = b then x else Memory.read c rest a

/-- Put byte `x` at `a` in front of `rest`, or nothing if that is what an unlisted address reads as. -/
def Memory.place (c : Config) (a : Nat) (x : Byte) (rest : Memory) : Memory :=
  if x = initialByte c a then rest else (a, x) :: rest

/-- Write byte `x` at `a`, keeping the addresses rising and no entry equal to the reset contents. -/
def Memory.write (c : Config) : Memory → Nat → Byte → Memory
  | [], a, x => Memory.place c a x []
  | (b, y) :: rest, a, x =>
    if a < b then Memory.place c a x ((b, y) :: rest)
    else if a = b then Memory.place c a x rest
    else (b, y) :: Memory.write c rest a x

/-- The canonical form from address `low` on: addresses rise strictly, stay below `MEM_SIZE`, and no entry equals the
reset contents. -/
def Memory.wfFrom (c : Config) : Nat → Memory → Bool
  | _, [] => true
  | low, (b, y) :: rest =>
    decide (low ≤ b) && decide (b < c.memSize) && decide (y ≠ initialByte c b) && Memory.wfFrom c (b + 1) rest

/-- The canonical form of a memory: equal memories are equal lists. -/
def Memory.wf (c : Config) (m : Memory) : Bool := Memory.wfFrom c 0 m

/-- `MemRead(a, 1)` (R10); the range is checked before it is used (R69). -/
def State.readByte (s : State) (a : Nat) : Byte := Memory.read s.cfg s.mem a

/-- `MemWrite(a, 1, x)` (R10); the range is checked before it is used (R69). -/
def State.writeByte (s : State) (a : Nat) (x : Byte) : State := { s with mem := Memory.write s.cfg s.mem a x }

/-! ## Registers (spec/10_state.md) -/

/-- `V[r]` (R21). -/
def State.reg (s : State) (r : Nibble) : Byte := s.v[r.toNat]

/-- `V[r] <- b` (R21). -/
def State.setReg (s : State) (r : Nibble) (b : Byte) : State := { s with v := s.v.set r.toNat b }

/-- The index of VF (R22). -/
def vf : Nibble := 0xF

/-- The index of V0 (R83). -/
def v0 : Nibble := 0x0

/-- `V[x] <- result`, then `V[0xF] <- flag`: the flag is written last (R150). -/
def State.setRegThenFlag (s : State) (x : Nibble) (result flag : Byte) : State := (s.setReg x result).setReg vf flag

/-- `I <- w` (R24). -/
def State.setIndex (s : State) (w : Word) : State := { s with i := w }

/-! ## The program counter (spec/40_cycle.md R104) -/

/-- `pc <- w`. -/
def State.setPc (s : State) (w : Word) : State := { s with pc := w }

/-- The default advance `PC <- (pc + 2) mod 2^16`. -/
def State.advance (s : State) : State := s.setPc (s.pc + 2)

/-- A skip `pc <- (pc + 4) mod 2^16` if `c`, else the default advance. -/
def State.skipIf (s : State) (c : Bool) : State := if c then s.setPc (s.pc + 4) else s.advance

/-! ## The call stack (R26) -/

/-- `push(w)`. -/
def State.push (s : State) (w : Word) : State := { s with stack := w :: s.stack }

/-! ## Faults and halts (spec/60_exceptions.md R241, R248, R249) -/

/-- Fault entry `raise F(pc, w, addr)`: run and the fault record are written, nothing else changes, PC stays (R241). No
instruction returns from a fault; only a reset leaves it (R253; `State.resetStep` in Agents.lean). -/
def State.raise (s : State) (code : FaultCode) (w : Word) (addr : Nat) : State :=
  { s with
    run := .faulted
    fault := { code := code, pc := s.pc, word := w, addr := BitVec.ofNat 17 addr } }

/-- `halt(r)` with r one of HALTED and QUIT: only run changes (R101). -/
def State.halt (s : State) (r : RunState) : State := { s with run := r }

/-! ## Units beside the engine -/

/-- The load command of the delay-timer FSM (R202). -/
def State.timerLoad (s : State) (b : Byte) : State := { s with dt := b }

/-- `keys[k]` (R30). -/
def State.key (s : State) (k : Nibble) : Bool := s.keys.getLsbD k.toNat

/-- `emit frame_update` (R185). -/
def State.emitFrame (s : State) : State := { s with frames := s.frames + 1 }

/-! ## The random port (R49, R148) -/

/-- The byte the next draw takes: what the host presents, else a free value (log 4). -/
def State.rndByte (s : State) : Byte :=
  match s.host.rnd with
  | b :: _ => b
  | [] => Config.freeByte s.host.draws

/-- The draw is used up. -/
def State.consumeRnd (s : State) : State :=
  { s with host := { s.host with rnd := s.host.rnd.tail, draws := s.host.draws + 1 } }

end Sys2Proof.Machine
end

