-- ==== Sys2Proof/Machine/Agents.lean ====
section
/-! DEFINITION. The steps that are no instruction: the tick with the delay-timer FSM and the keypad aging, key events and
their synchronizer, quit, reset and the load port (spec/40_cycle.md R106–R110, spec/45_timers.md R201, spec/46_keypad.md
R221–R226 and R230, spec/60_exceptions.md R247–R251, spec/70_reset_and_hazards.md R270–R272 and R282). A step that is not
enabled changes nothing (R111; log 5). -/

namespace Sys2Proof.Machine

/-! ## Tick (R106) -/

/-- The Tick step is enabled (R106). -/
def State.tickEnabled (s : State) : Bool :=
  (decide (s.run = .running) && decide (s.slots = 0)) || decide (s.run = .waitKey)

/-- The delay-timer FSM at a tick: down by one while it counts, never below 0 (R201). -/
def State.timerTick (s : State) : State := if s.dt = 0 then s else { s with dt := s.dt - 1 }

/-- The keypad at a tick: `idle` counts up to `IDLE_TICKS`, and there every key clears (R222). -/
def State.ageKeys (s : State) : State :=
  let idle := if s.idle < s.cfg.idleTicks then s.idle + 1 else s.idle
  { s with idle := idle, keys := if idle = s.cfg.idleTicks then 0 else s.keys }

/-- `slots <- IPT` (R106). -/
def State.giveSlots (s : State) : State := { s with slots := s.cfg.ipt }

/-- The Tick step, taken when it is enabled (R106): timer, aging, slots, in this order. -/
def State.tickStep (s : State) : State := s.timerTick.ageKeys.giveSlots

/-- A pulse on `tick`: a Tick step if one is enabled; latched one deep if instructions are left (R282); else no step
(R101, R208). -/
def State.tickPulse (s : State) : State :=
  if s.tickEnabled then s.tickStep
  else if s.run = .running then { s with pendingTick := true }
  else s

/-- A latched pulse is due: the Tick step it stands for has become possible (R282; log 13). -/
def State.latchedTickDue (s : State) : Bool := s.pendingTick && s.tickEnabled

/-- The Tick step a latched pulse stands for (R282). -/
def State.latchedTick (s : State) : State := ({ s with pendingTick := false } : State).tickStep

/-! ## Key events (R108, R221, R230) -/

/-- The keypad unit takes an event: the key's flag is set, the idle interval restarts (R221). -/
def State.keyEvent (s : State) (k : Nibble) : State :=
  { s with keys := s.keys ||| (1#16 <<< k.toNat), idle := 0 }

/-- The completion of a waiting Fx0A (R230). -/
def State.completeWait (s : State) (k : Nibble) : State :=
  { (s.setReg s.wx (k.setWidth 8)).advance with run := .running, slots := 0 }

/-- The Key step (R108): taken while running, ends the wait while waiting, lost elsewhere (R226). -/
def State.keyStep (k : Nibble) (s : State) : State :=
  match s.run with
  | .running => s.keyEvent k
  | .waitKey => (s.keyEvent k).completeWait k
  | .load => s
  | .halted => s
  | .faulted => s
  | .quit => s

/-! ## Quit (R109, R249) -/

/-- The Quit step. -/
def State.quitStep (s : State) : State :=
  match s.run with
  | .running => s.halt .quit
  | .waitKey => s.halt .quit
  | .load => s
  | .halted => s
  | .faulted => s
  | .quit => s

/-! ## Reset and loading (R52, R110, R270–R272) -/

/-- What every rising edge with `rst` = 1 sets (R270); memory and the load state are R52's and R271's. -/
def State.resetRegisters (s : State) : State :=
  { s with
    v := Vector.replicate 16 0
    i := 0
    pc := 0x0200
    stack := []
    dt := 0
    st := 0
    keys := 0
    idle := s.cfg.idleTicks
    fb := Vector.replicate 32 0
    run := .load
    wx := 0
    slots := 0
    fault := FaultRecord.zero
    pendingTick := false
    frames := 0 }

/-- What the first edge of a reset period sets besides: memory at its reset contents, nothing loaded (R52, R271). -/
def State.clearLoad (s : State) : State := { s with mem := [], ldCount := 0, loadErr := false }

/-- An edge with `rst` = 1, before the load port; the first of its period if the block was not in LOAD (R270, R271;
log 20). -/
def State.assertReset (s : State) : State :=
  if s.run = .load then s.resetRegisters else s.resetRegisters.clearLoad

/-- The load port takes one byte, or notes that it is one too many (R52). -/
def State.acceptByte (s : State) (b : Byte) : State :=
  if s.ldCount < imageCapacity s.cfg then
    { s.writeByte (loadAddress + s.ldCount) b with ldCount := s.ldCount + 1 }
  else { s with loadErr := true }

/-- The first edge with `rst` = 0: RUNNING, or ProgramLoad if too many bytes were offered (R247, R272). -/
def State.release (s : State) : State :=
  if s.loadErr then s.raise .programLoad 0 0 else { s with run := .running, slots := 0 }

/-- The Reset step with program image `img` (R110, R272): the only way out of a terminal state (R101, R253). The
synchronizers and the host's inputs are not part of it (log 19). -/
def State.resetStep (img : List Byte) (s : State) : State :=
  (img.foldl State.acceptByte s.resetRegisters.clearLoad).release

/-! ## One clock edge of the ports (R45–R48, R224, R251) -/

/-- Reset and release at an edge, before everything else (R251; log 12). -/
def State.resetPins (p : Pins) (s : State) : State :=
  if p.rst then
    if p.ldValid then s.assertReset.acceptByte p.ldData else s.assertReset
  else if s.run = .load then s.release
  else s

/-- The key-event handshake at an edge, on the synchronized request: a new request is taken as one Key step and
acknowledged; a withdrawn one lowers the acknowledge (R224, R226; logs 11, 15). -/
def State.handshake (p : Pins) (s : State) : State :=
  if s.ports.keySync2 && !s.ports.keyAck then
    let t := s.keyStep p.keyCode
    { t with ports := { t.ports with keyAck := true } }
  else if !s.ports.keySync2 && s.ports.keyAck then { s with ports := { s.ports with keyAck := false } }
  else s

/-- The two flip-flops of each synchronizer move (R48, R224). -/
def State.shiftSync (p : Pins) (s : State) : State :=
  { s with
    ports := { s.ports with
      keySync1 := p.keyReq
      keySync2 := s.ports.keySync1
      quitSync1 := p.quit
      quitSync2 := s.ports.quitSync1 } }

/-- The quit input at an edge (R48, R249; log 11). -/
def State.quitPin (s : State) : State := if s.ports.quitSync2 then s.quitStep else s

/-- The synchronized quit ends the run at this step boundary: it is seen while RUNNING or WAIT_KEY, and what the host
plans next is no edge or reset, which order quit themselves (R249, R279; log 11). -/
def State.quitDue (s : State) : Bool :=
  s.ports.quitSync2 && (decide (s.run = .running) || decide (s.run = .waitKey)) &&
    (match s.host.steps with
      | [] => true
      | e :: _ => !e.ordersQuit)

/-- The tick input at an edge (R46). -/
def State.tickPin (p : Pins) (s : State) : State := if p.tick then s.tickPulse else s

/-- The end of every edge: quit, then key, then the flip-flops move (R251). -/
def State.quitAndKey (p : Pins) (s : State) : State := (s.quitPin.handshake p).shiftSync p

/-- One rising edge of `clk` as the ports see it, in the order of R251: reset, then the tick's effects, then quit, then
key. No instruction completes at it; `State.clockExec` is the edge at which one does. -/
def State.clockEdge (p : Pins) (s : State) : State := ((s.resetPins p).tickPin p).quitAndKey p

end Sys2Proof.Machine
end

