-- ==== Sys2Proof/Machine/Flags.lean ====
section
/-! DEFINITION. The arithmetic of spec/42_alu.md R149 and every flag the block computes: carry (R146), no borrow (R147)
and, as a byte, collision (R184). Operands are taken as naturals, results computed in full and narrowed at the end. -/

namespace Sys2Proof.Machine

/-- `b2n` of R10, as the byte written to VF. -/
def b2n (c : Bool) : Byte := if c then 1 else 0

/-- The sum stored `mod 256` (R149). -/
def addMod (a b : Byte) : Byte := BitVec.ofNat 8 ((a.toNat + b.toNat) % 256)

/-- The carry out of bit 7: the 9-bit sum is above 255 (R146). -/
def carry (a b : Byte) : Bool := decide (a.toNat + b.toNat > 255)

/-- The difference stored `mod 256`, `(a - b + 256) mod 256` (R149). -/
def subMod (a b : Byte) : Byte := BitVec.ofNat 8 ((a.toNat + 256 - b.toNat) % 256)

/-- No borrow: `a >= b` (R147). -/
def noBorrow (a b : Byte) : Bool := decide (a.toNat ≥ b.toNat)

/-- The decimal digit of `b` that Fx33 stores at `I + k`: hundreds, tens, ones (R163). -/
def bcdDigit (b : Byte) : Nat → Byte
  | 0 => BitVec.ofNat 8 (b.toNat / 100)
  | 1 => BitVec.ofNat 8 (b.toNat / 10 % 10)
  | _ => BitVec.ofNat 8 (b.toNat % 10)

end Sys2Proof.Machine
end

