-- ==== Sys2Proof/Machine/Operands.lean ====
section
/-! DEFINITION. The operand forms: addresses of spec/30_encoding.md R84 and the one data addressing mode, I-relative
with a constant offset (spec/43_index_memory.md R166). -/

namespace Sys2Proof.Machine

/-- `zext_16(nnn)` (R84). -/
def addressOf (nnn : Addr12) : Word := nnn.setWidth 16

/-- The register with number `k`, 0..15. -/
def regAt (k : Nat) : Nibble := BitVec.ofNat 4 k

/-- The effective address of the k-th byte, `I + k` at full precision (R69, R166). -/
def State.dataAddr (s : State) (k : Nat) : Nat := s.i.toNat + k

/-- The range check of R166 on `count` bytes from I: the lowest out-of-range address `max(I, MEM_SIZE)` if the last
byte is out of range; no byte, no check (R182). -/
def State.rangeFault (s : State) (count : Nat) : Option Nat :=
  if 0 < count ∧ s.cfg.memSize ≤ s.i.toNat + count - 1 then some (max s.i.toNat s.cfg.memSize) else none

/-- The whole range is checked before any access: MemoryRange, or `ok` (R166, R243 b). -/
def State.guardRange (s : State) (count : Nat) (w : Word) (ok : State) : State :=
  match s.rangeFault count with
  | some addr => s.raise .memoryRange w addr
  | none => ok

/-- `count` bytes from I, ascending (R166). -/
def State.readRange (s : State) (count : Nat) : List Byte := (List.range count).map fun k => s.readByte (s.dataAddr k)

/-- Store `f 0`, …, `f (count - 1)` at I, I + 1, …, ascending (R163, R164). -/
def State.storeRange (s : State) (count : Nat) (f : Nat → Byte) : State :=
  (List.range count).foldl (fun t k => t.writeByte (s.dataAddr k) (f k)) s

/-- Load V0, V1, … from I, I + 1, …, `count` registers, ascending (R165). -/
def State.loadRange (s : State) (count : Nat) : State :=
  (List.range count).foldl (fun t k => t.setReg (regAt k) (s.readByte (s.dataAddr k))) s

end Sys2Proof.Machine
end

