-- ==== Sys2Proof/Machine/Control.lean ====
section
/-! DEFINITION. Control transfer and skips (spec/41_control_flow.md). A target is not checked here; the next fetch checks
it (R128). -/

namespace Sys2Proof.Machine

/-- RET: pop into PC, or halt on an empty stack with PC left at the RET (R120, R248). -/
def execRet (s : State) : Host.Outcome State Fault Refusal :=
  match s.stack with
  | [] => .next (s.halt .halted)
  | top :: rest => .next { s with pc := top, stack := rest }

/-- JP nnn (R121). -/
def execJp (nnn : Addr12) (s : State) : Host.Outcome State Fault Refusal := .next (s.setPc (addressOf nnn))

/-- CALL nnn: StackOverflow on a full stack, else push pc + 2 and jump (R122, R245). -/
def execCall (nnn : Addr12) (s : State) : Host.Outcome State Fault Refusal :=
  if s.stack.length = s.cfg.stackDepth then .next (s.raise .stackOverflow (encode (.call nnn)) 0)
  else .next ((s.push (s.pc + 2)).setPc (addressOf nnn))

/-- SE Vx, kk (R123). -/
def execSeImm (x : Nibble) (kk : Byte) (s : State) : Host.Outcome State Fault Refusal :=
  .next (s.skipIf (decide (s.reg x = kk)))

/-- SNE Vx, kk (R124). -/
def execSneImm (x : Nibble) (kk : Byte) (s : State) : Host.Outcome State Fault Refusal :=
  .next (s.skipIf (decide (s.reg x ≠ kk)))

/-- SE Vx, Vy; the field n has no effect (R125). -/
def execSeReg (x y : Nibble) (s : State) : Host.Outcome State Fault Refusal :=
  .next (s.skipIf (decide (s.reg x = s.reg y)))

/-- SNE Vx, Vy; the field n has no effect (R126). -/
def execSneReg (x y : Nibble) (s : State) : Host.Outcome State Fault Refusal :=
  .next (s.skipIf (decide (s.reg x ≠ s.reg y)))

/-- JP V0, nnn: never reduced modulo 0x1000 (R127). -/
def execJpV0 (nnn : Addr12) (s : State) : Host.Outcome State Fault Refusal :=
  .next (s.setPc (addressOf nnn + (s.reg v0).setWidth 16))

end Sys2Proof.Machine
end

