-- ==== Sys2Proof/Machine/Display.lean ====
section
/-! DEFINITION. The display compositor and its two instructions (spec/44_display.md). -/

namespace Sys2Proof.Machine

/-- `fb[y][x]` (R32). -/
def Framebuffer.pixel (fb : Framebuffer) (x : Fin 64) (y : Fin 32) : Bool := fb[y.val].getLsbD x.val

/-- `fb[y][x] <- fb[y][x] xor p` (R182). -/
def Framebuffer.xorPixel (fb : Framebuffer) (x : Fin 64) (y : Fin 32) (p : Bool) : Framebuffer :=
  fb.set y.val (fb[y.val] ^^^ ((BitVec.ofBool p).setWidth 64 <<< x.val))

/-- The framebuffer with every pixel unset (R181). -/
def Framebuffer.clear : Framebuffer := Vector.replicate 32 0

/-- The column `(xs + b) mod 64` (R180, R183). -/
def spriteColumn (xs : Byte) (b : Nat) : Fin 64 := Fin.ofNat 64 (xs.toNat + b)

/-- The row `(ys + r) mod 32` (R180, R183). -/
def spriteRow (ys : Byte) (r : Nat) : Fin 32 := Fin.ofNat 32 (ys.toNat + r)

/-- What a blit carries from pixel to pixel: the framebuffer and the collision so far (R182). -/
structure Blit where
  fb   : Framebuffer
  coll : Bool
  deriving DecidableEq, Repr

/-- One sprite pixel: bit `b` of a row counted from the left, most significant first (R182, R183). -/
def blitPixel (cx : Fin 64) (cy : Fin 32) (p : Bool) (t : Blit) : Blit :=
  { fb := t.fb.xorPixel cx cy p
    coll := t.coll || (t.fb.pixel cx cy && p) }

/-- One sprite row: the 8 pixels of `row` from column `xs` in row `cy`, left to right (R182). -/
def blitRow (xs : Byte) (cy : Fin 32) (row : Byte) (t : Blit) : Blit :=
  (List.range 8).foldl (fun u b => blitPixel (spriteColumn xs b) cy (row.getLsbD (7 - b)) u) t

/-- The sprite rows `rows`, the first of them row `r` of the sprite, top to bottom (R182). -/
def blitRows (xs ys : Byte) : Nat → List Byte → Blit → Blit
  | _, [], t => t
  | r, row :: rest, t => blitRows xs ys (r + 1) rest (blitRow xs (spriteRow ys r) row t)

/-- The blit of a sprite at `(xs, ys)` (R182, R183). -/
def Framebuffer.blit (fb : Framebuffer) (xs ys : Byte) (rows : List Byte) : Blit :=
  blitRows xs ys 0 rows { fb := fb, coll := false }

/-- CLS: every pixel unset, `frame_update` (R181). -/
def execCls (s : State) : Host.Outcome State Fault Refusal :=
  .next ({ s with fb := Framebuffer.clear } : State).emitFrame.advance

/-- A blit's result put in the state: the framebuffer, then VF, then `frame_update` (R182). -/
def State.present (s : State) (b : Blit) : State :=
  (({ s with fb := b.fb } : State).setReg vf (b2n b.coll)).emitFrame

/-- DRW Vx, Vy, n (R182). The coordinates are read before VF is written. -/
def execDrw (x y n : Nibble) (s : State) : Host.Outcome State Fault Refusal :=
  .next (s.guardRange n.toNat (encode (.drw x y n))
    (s.present (s.fb.blit (s.reg x) (s.reg y) (s.readRange n.toNat))).advance)

end Sys2Proof.Machine
end

