-- ==== Sys2Proof/Machine/IndexMemory.lean ====
section
/-! DEFINITION. The index register and memory transfers (spec/43_index_memory.md). No access changes I (R166). -/

namespace Sys2Proof.Machine

/-- LD I, nnn (R160). -/
def execLdI (nnn : Addr12) (s : State) : Host.Outcome State Fault Refusal :=
  .next (s.setIndex (addressOf nnn)).advance

/-- ADD I, Vx: modulo 2^16, VF unchanged (R161). -/
def execAddIVx (x : Nibble) (s : State) : Host.Outcome State Fault Refusal :=
  .next (s.setIndex (s.i + (s.reg x).setWidth 16)).advance

/-- LD F, Vx: `Vx * 5`, no mask (R162). -/
def execLdFVx (x : Nibble) (s : State) : Host.Outcome State Fault Refusal :=
  .next (s.setIndex ((s.reg x).setWidth 16 * 5)).advance

/-- LD B, Vx: the three decimal digits at I, I + 1, I + 2 (R163). -/
def execLdBVx (x : Nibble) (s : State) : Host.Outcome State Fault Refusal :=
  .next (s.guardRange 3 (encode (.ldBVx x)) (s.storeRange 3 (bcdDigit (s.reg x))).advance)

/-- LD [I], Vx: V0..Vx to memory from I (R164). -/
def execStoreRegs (x : Nibble) (s : State) : Host.Outcome State Fault Refusal :=
  .next (s.guardRange (x.toNat + 1) (encode (.storeRegs x))
    (s.storeRange (x.toNat + 1) fun k => s.reg (regAt k)).advance)

/-- LD Vx, [I]: V0..Vx from memory at I (R165). -/
def execLoadRegs (x : Nibble) (s : State) : Host.Outcome State Fault Refusal :=
  .next (s.guardRange (x.toNat + 1) (encode (.loadRegs x)) (s.loadRange (x.toNat + 1)).advance)

end Sys2Proof.Machine
end

