-- ==== Sys2Proof/Machine/KeyInstr.lean ====
section
/-! DEFINITION. The key instructions (spec/46_keypad.md). -/

namespace Sys2Proof.Machine

/-- The key a register names, if it is one of the 16 (R227, R228). -/
def keyIndex (b : Byte) : Option Nibble := if b.toNat > 15 then none else some (b.setWidth 4)

/-- SKP Vx: skip if the key's flag is set; KeyIndexRange if Vx is above 15 (R227). -/
def execSkp (x : Nibble) (s : State) : Host.Outcome State Fault Refusal :=
  match keyIndex (s.reg x) with
  | none => .next (s.raise .keyIndexRange (encode (.skp x)) 0)
  | some k => .next (s.skipIf (s.key k))

/-- SKNP Vx: skip if the key's flag is not set; KeyIndexRange if Vx is above 15 (R228). -/
def execSknp (x : Nibble) (s : State) : Host.Outcome State Fault Refusal :=
  match keyIndex (s.reg x) with
  | none => .next (s.raise .keyIndexRange (encode (.sknp x)) 0)
  | some k => .next (s.skipIf (!s.key k))

/-- LD Vx, K: suspend the engine; the key event that ends the wait writes Vx and advances PC (R229, R230). -/
def execLdVxK (x : Nibble) (s : State) : Host.Outcome State Fault Refusal :=
  .next { s with run := .waitKey, wx := x, slots := 0 }

end Sys2Proof.Machine
end

