-- ==== Sys2Proof/Machine/TimerInstr.lean ====
section
/-! DEFINITION. The timer instructions (spec/45_timers.md). -/

namespace Sys2Proof.Machine

/-- LD Vx, DT (R204). -/
def execLdVxDt (x : Nibble) (s : State) : Host.Outcome State Fault Refusal := .next (s.setReg x s.dt).advance

/-- LD DT, Vx: the load command of the delay-timer FSM (R202, R205). -/
def execLdDtVx (x : Nibble) (s : State) : Host.Outcome State Fault Refusal := .next (s.timerLoad (s.reg x)).advance

/-- LD ST, Vx (R206). -/
def execLdStVx (x : Nibble) (s : State) : Host.Outcome State Fault Refusal :=
  .next ({ s with st := s.reg x } : State).advance

end Sys2Proof.Machine
end

