-- ==== Sys2Proof/Machine/Cycle.lean ====
section
/-! DEFINITION. The instruction cycle and the serialization of steps (spec/40_cycle.md R102–R111). -/

namespace Sys2Proof.Machine

/-- Fetch: the big-endian word at PC, or the lowest address out of range (R67, R103). -/
def State.fetch (s : State) : Except Nat Word :=
  if s.cfg.memSize ≤ s.pc.toNat + 1 then
    .error (if s.cfg.memSize ≤ s.pc.toNat then s.pc.toNat else s.pc.toNat + 1)
  else .ok (wordOfBytes (s.readByte s.pc.toNat) (s.readByte (s.pc.toNat + 1)))

/-- The fault code of a word that does not decode (R105, R242, R244). A fetched word is never truncated. -/
def decodeFault : DecodeError → FaultCode
  | .truncated => .invalidOpcode
  | .invalidOpcode => .invalidOpcode
  | .unimplementedOpcode => .unimplementedOpcode

/-- Slot accounting: an instruction that leaves the block RUNNING takes one slot (R107). -/
def State.retire (s : State) : State := if s.run = .running then { s with slots := s.slots - 1 } else s

/-- What follows a step in the same step, where there is a next state. -/
def mapNext (f : State → State) : Host.Outcome State Fault Refusal → Host.Outcome State Fault Refusal
  | .next t => .next (f t)
  | .fault r => .fault r
  | .refused r => .refused r

/-- The Exec step, taken when it is enabled: fetch, decode, the instruction's rule, slot accounting; the first check
that fails is the fault reported (R102, R250). -/
def State.execInstr (s : State) : Host.Outcome State Fault Refusal :=
  match s.fetch with
  | .error addr => .next (s.raise .memoryRange 0 addr)
  | .ok w =>
    match decodeWord s.cfg.legacyUnimplemented w with
    | .error e => .next (s.raise (decodeFault e) w 0)
    | .ok i => mapNext State.retire (exec i s)

/-- The Exec step is enabled (R102). -/
def State.execEnabled (s : State) : Bool := decide (s.run = .running) && decide (0 < s.slots)

/-- The Exec step if it is enabled, else nothing (R102, R111). -/
def State.execStep (s : State) : Host.Outcome State Fault Refusal :=
  if s.execEnabled then s.execInstr else .next s

/-- The instruction the Exec step would run is Fx15, the load command of the delay timer (R202, R205). -/
def State.loadsTimer (s : State) : Bool :=
  match s.fetch with
  | .error _ => false
  | .ok w =>
    match decodeWord s.cfg.legacyUnimplemented w with
    | .ok (.ldDtVx _) => true
    | _ => false

/-- The tick input beside an instruction that has completed, in the same clock. A latched tick that is due is taken, and
a pulse of this clock, which came while that one was pending, is lost (R282; DEDUCED, log 13); else the pulse acts as at any edge. -/
def State.tickBeside (p : Pins) (t : State) : State := if t.latchedTickDue then t.latchedTick else t.tickPin p

/-- A clock edge at which the Exec step in progress completes: after `rst` and before the quit and key of its clock
(R225, R251). With a Tick step in the same clock it is one of the two serial orders of R203: the instruction, a read of DT
too, and then the tick its last slot makes possible; or the tick and then a load of DT, which takes the first slot of that
tick. Else a pulse finds a slot left and is latched (R282), and the load of a last slot comes in a clock before the tick's
(R111; DEDUCED, log 21). A reset abandons the instruction (R251), and where none can complete this is a plain edge. -/
def State.clockExec (overlap : Bool) (p : Pins) (s : State) : Host.Outcome State Fault Refusal :=
  if p.rst then .next (s.clockEdge p)
  else if s.execEnabled && overlap && !s.loadsTimer then
    mapNext (fun t => (t.tickBeside p).quitAndKey p) s.execInstr
  else if s.execEnabled || (overlap && s.loadsTimer && (s.tickPin p).execEnabled) then
    mapNext (State.quitAndKey p) (s.tickPin p).execInstr
  else .next (s.clockEdge p)

/-- The block's own next step where the host plans nothing: Exec, Tick, or none in LOAD and the terminal states (R102,
R106, R113; log 5). No clock edge comes after the plan, so what only an edge would take stays where it is: a key request
in its synchronizer, and a quit level that has reached only its first flip-flop (R224, R279; DESIGN CHOICE, unsafe:
log 23). -/
def State.ownStep (s : State) : Host.Outcome State Fault Refusal :=
  if s.execEnabled then s.execInstr
  else if s.tickEnabled then .next s.tickStep
  else .next s

/-- A step the host chose (R111). An atomic entry stands for its own input: Quit for the synchronized `quit` being 1 at
that step boundary (R109), Key for a key event, Tick for a pulse. It neither reads nor moves the flip-flops of `ports`
(DESIGN CHOICE, safe: log 24). -/
def State.hostStep (s : State) : HostStep → Host.Outcome State Fault Refusal
  | .exec => s.execStep
  | .tick => .next s.tickPulse
  | .key k => .next (s.keyStep k)
  | .quit => .next s.quitStep
  | .reset img => .next (s.resetStep img)
  | .clock p => .next (s.clockEdge p)
  | .clockExec overlap p => s.clockExec overlap p

/-- The planned step is taken from the list. -/
def State.withPlan (s : State) (rest : List HostStep) : State := { s with host := { s.host with steps := rest } }

/-- One atomic step of the block: a latched tick as soon as it can be taken (R282), else the quit that is seen (R249; the
tick comes before it, R251), else the host's next planned step, else the block's own (R111). -/
def State.oneStep (s : State) : Host.Outcome State Fault Refusal :=
  if s.latchedTickDue then .next s.latchedTick
  else if s.quitDue then .next s.quitStep
  else
    match s.host.steps with
    | e :: rest => (s.withPlan rest).hostStep e
    | [] => s.ownStep

/-- Store an instruction word big-endian at PC (R67), if both bytes exist. -/
def State.placeWord (s : State) (w : Word) : State :=
  if s.pc.toNat + 1 < s.cfg.memSize then
    (s.writeByte s.pc.toNat (highByte w)).writeByte (s.pc.toNat + 1) (lowByte w)
  else s

/-- Make the Exec step the next one: RUNNING, a slot left, nothing planned by the host, no quit seen (log 1). -/
def State.readyToExec (s : State) : State :=
  { s.withPlan [] with
    run := .running
    slots := if s.slots = 0 then 1 else s.slots
    ports := { s.ports with quitSync2 := false } }

end Sys2Proof.Machine
end

