-- ==== Sys2Proof/Machine/Step.lean ====
section
/-! DEFINITION. The step of the machine, and how a test word is put where it fetches. -/

namespace Sys2Proof.Machine

/-- One step (spec/40_cycle.md R111). -/
def step (s : State) : Host.Outcome State Fault Refusal := s.oneStep

/-- `s` with an opcode-table word stored at PC and the block about to execute it (log 1). -/
def State.withFetchWord (s : State) (nbits w : Nat) : State := (s.placeWord (tableWord nbits w)).readyToExec

end Sys2Proof.Machine
end

