-- ==== Sys2Proof/Machine/Outputs.lean ====
section
/-! DEFINITION. What the host can observe: the outputs of spec/10_state.md R41, R47, R50, R51 (spec/40_cycle.md R115). -/

namespace Sys2Proof.Machine

/-- The 3-bit encoding of R34. -/
def RunState.bits : RunState → BitVec 3
  | .load => 0
  | .running => 1
  | .waitKey => 2
  | .halted => 3
  | .faulted => 4
  | .quit => 5

/-- The 4-bit codes of R37. -/
def FaultCode.bits : FaultCode → BitVec 4
  | .none => 0
  | .invalidOpcode => 1
  | .unimplementedOpcode => 2
  | .memoryRange => 3
  | .stackOverflow => 4
  | .keyIndexRange => 5
  | .programLoad => 6

/-- `status[15:0]` (R41). WX shows the register `wx` in every run state (log 10). -/
def State.status (s : State) : Word :=
  0#4 ++ s.wx ++ BitVec.ofBool s.loadErr ++ s.fault.code.bits ++ s.run.bits

/-- `st_out[7:0]` (R51). -/
def State.stOut (s : State) : Byte := s.st

/-- `keys_out[15:0]` (R51). -/
def State.keysOut (s : State) : BitVec 16 := s.keys

/-- `key_ack` (R47). -/
def State.keyAckOut (s : State) : Bool := s.ports.keyAck

/-- Row 0 in the low 64 bits, then row 1, and so on. -/
def packRows : List (BitVec 64) → Nat
  | [] => 0
  | row :: rest => row.toNat + 2 ^ 64 * packRows rest

/-- `fb_out[2047:0]`, bit `64*y + x` is `fb[y][x]` (R50). -/
def State.fbOut (s : State) : BitVec 2048 := BitVec.ofNat 2048 (packRows s.fb.toList)

/-- The state of the delay-timer FSM (R29). -/
inductive TimerFsm where
  | idle | counting
  deriving DecidableEq, Repr

/-- IDLE when DT = 0, COUNTING when DT ≠ 0 (R29). -/
def State.timerFsm (s : State) : TimerFsm := if s.dt = 0 then .idle else .counting

end Sys2Proof.Machine
end

