-- ==== Sys2Proof/Safety.lean ====
section
/-! DEFINITION. What claims speak of: terminal states, the invariant of the block, and what a step leaves unchanged. -/

namespace Sys2Proof.Machine

/-- HALTED, FAULTED and QUIT are terminal (spec/40_cycle.md R101). -/
def RunState.terminal : RunState → Bool
  | .load => false
  | .running => false
  | .waitKey => false
  | .halted => true
  | .faulted => true
  | .quit => true

/-- The legal states of the block: the ranges of spec/10_state.md R20, the canonical form of memory, and how the fault
record, `load_err` and KEYS go with `run` and `idle`. -/
structure State.Inv (s : State) : Prop where
  /-- The parameters are in the ranges of R8. -/
  params : s.cfg.legal = true
  /-- Memory is in canonical form and inside `MEM_SIZE`. -/
  memory : Memory.wf s.cfg s.mem = true
  /-- `depth ≤ STACK_DEPTH` (R26). -/
  stack : s.stack.length ≤ s.cfg.stackDepth
  /-- `idle ≤ IDLE_TICKS` (R31). -/
  idle : s.idle ≤ s.cfg.idleTicks
  /-- After `IDLE_TICKS` ticks without an event no key reads pressed (R222). -/
  aged : s.idle = s.cfg.idleTicks → s.keys = 0
  /-- `slots ≤ IPT` (R35). -/
  slots : s.slots ≤ s.cfg.ipt
  /-- `ld_count ≤ MEM_SIZE - 0x200` (R38). -/
  loaded : s.ldCount ≤ imageCapacity s.cfg
  /-- The fault record is zero outside FAULTED (R36, R241). -/
  noRecord : s.run ≠ .faulted → s.fault = FaultRecord.zero
  /-- In FAULTED it names a fault, at the PC where the block stopped (R241). -/
  record : s.run = .faulted → s.fault.code ≠ .none ∧ s.fault.pc = s.pc
  /-- A run never starts with `load_err` set (R272). -/
  loadErr : s.loadErr = true → s.run = .load ∨ (s.run = .faulted ∧ s.fault.code = .programLoad)

/-! ## Frames -/

/-- One piece of the state; frames list the pieces a step may change. -/
inductive Piece where
  | reg (r : Nibble) | index | pc | stack | dt | st | keys | idle | pixel (x : Fin 64) (y : Fin 32) | mem (a : Nat)
  | run | wx | slots | fault | ldCount | loadErr | pendingTick | ports | frames | params | plan | rnd | draws
  deriving DecidableEq, Repr

/-- The piece is the same in both states. A byte of memory is compared through the read of one byte. -/
def Piece.Same (s t : State) : Piece → Prop
  | .reg r => t.reg r = s.reg r
  | .index => t.i = s.i
  | .pc => t.pc = s.pc
  | .stack => t.stack = s.stack
  | .dt => t.dt = s.dt
  | .st => t.st = s.st
  | .keys => t.keys = s.keys
  | .idle => t.idle = s.idle
  | .pixel x y => t.fb.pixel x y = s.fb.pixel x y
  | .mem a => t.readByte a = s.readByte a
  | .run => t.run = s.run
  | .wx => t.wx = s.wx
  | .slots => t.slots = s.slots
  | .fault => t.fault = s.fault
  | .ldCount => t.ldCount = s.ldCount
  | .loadErr => t.loadErr = s.loadErr
  | .pendingTick => t.pendingTick = s.pendingTick
  | .ports => t.ports = s.ports
  | .frames => t.frames = s.frames
  | .params => t.cfg = s.cfg
  | .plan => t.host.steps = s.host.steps
  | .rnd => t.host.rnd = s.host.rnd
  | .draws => t.host.draws = s.host.draws

/-- Every piece but those `may` names is the same in `t` as in `s`. -/
def ChangesOnly (may : Piece → Prop) (s t : State) : Prop := ∀ p, ¬ may p → p.Same s t

/-! ## Words claims use -/

/-- The word `w` is the instruction `i` on every block that has it, and UnimplementedOpcode on one that lacks it
(spec/30_encoding.md R91, R92). -/
def EncodedAs (w : Word) (i : Instr) : Prop :=
  ∀ legacy, decodeWord legacy w = if i.wellFormed legacy then .ok i else .error .unimplementedOpcode

/-- Fault entry (spec/60_exceptions.md R241): the run state and the record as given, nothing else changed. -/
def EntersFault (s t : State) (code : FaultCode) (w : Word) (addr : Nat) : Prop :=
  t.run = .faulted ∧ t.fault = { code := code, pc := s.pc, word := w, addr := BitVec.ofNat 17 addr } ∧
  ChangesOnly (· ∈ [.run, .fault]) s t

/-- The host's next planned step is `e`, and no latched tick (spec/70_reset_and_hazards.md R282) or quit
(spec/60_exceptions.md R249) comes before it. None ever comes before an edge or a reset by reason of quit. -/
def State.Plans (s : State) (e : HostStep) (rest : List HostStep) : Prop :=
  s.host.steps = e :: rest ∧ s.latchedTickDue = false ∧ s.quitDue = false

/-- The step is a clock edge with these pins, be it one at which an instruction completes. -/
def HostStep.IsEdge (e : HostStep) (p : Pins) : Prop := e = .clock p ∨ ∃ o, e = .clockExec o p

/-- Nothing is planned, no latched tick is due and no quit is: the block takes its own next step. -/
def State.PlansNothing (s : State) : Prop := s.host.steps = [] ∧ s.latchedTickDue = false ∧ s.quitDue = false

/-- The next step is Exec: it is enabled (R102), the host plans it or nothing (log 3), and no quit is seen (R249). No
latched tick is due while slots are left. -/
def State.NextIsExec (s : State) : Prop :=
  s.run = .running ∧ 0 < s.slots ∧ s.ports.quitSync2 = false ∧
    (s.host.steps = [] ∨ ∃ rest, s.host.steps = .exec :: rest)

/-- The next step is of no clock edge and no reset: the host plans another step, or nothing. -/
def State.PlansNoEdge (s : State) : Prop := ∀ e rest, s.host.steps = e :: rest → e.ordersQuit = false

/-- What an instruction's outcome is once its slot is taken (spec/40_cycle.md R107). -/
def State.slotTaken (t : State) : State := if t.run = .running then { t with slots := t.slots - 1 } else t

/-- The state with its next planned step, if there is one, taken from the plan. -/
def State.planTaken (s : State) : State := s.withPlan s.host.steps.tail

/-- A Tick step is enabled (spec/40_cycle.md R106). -/
def State.CanTick (s : State) : Prop := (s.run = .running ∧ s.slots = 0) ∨ s.run = .waitKey

/-- `idle` after the aging of one tick (spec/46_keypad.md R222). -/
def State.agedIdle (s : State) : Nat := if s.idle < s.cfg.idleTicks then s.idle + 1 else s.idle

/-- KEYS after the aging of one tick (spec/46_keypad.md R222). -/
def State.agedKeys (s : State) : BitVec 16 := if s.agedIdle = s.cfg.idleTicks then 0 else s.keys

/-- What a Tick step writes (R106): DT one lower or 0 (R201), the keypad aged (R222), IPT slots. -/
def GivesTick (s t : State) : Prop :=
  t.dt.toNat = s.dt.toNat - 1 ∧ t.idle = s.agedIdle ∧ t.keys = s.agedKeys ∧ t.slots = s.cfg.ipt

/-- What a key event writes in the keypad unit where KEYS was `before` (R221): its own flag, no other, and `idle` = 0. -/
def RecordsKey (before : BitVec 16) (k : Nibble) (t : State) : Prop :=
  (∀ j : Nibble, t.keys.getLsbD j.toNat = (before.getLsbD j.toNat || decide (j = k))) ∧ t.idle = 0

/-- What a key event writes besides where it ends a wait (R230): V[wx], PC, RUNNING, no slot. -/
def EndsWait (s : State) (k : Nibble) (t : State) : Prop :=
  (t.reg s.wx).toNat = k.toNat ∧ t.pc = s.pc + 2 ∧ t.run = .running ∧ t.slots = 0

/-- A new synchronized key request (R224; log 11): seen, and not yet acknowledged. -/
def Ports.NewRequest (p : Ports) : Prop := p.keySync2 = true ∧ p.keyAck = false

/-- Every register that a reset sets (R270) except `run` and the fault record is at its reset value in `t`; the
parameters are those of `s`. -/
def RegistersAtReset (s t : State) : Prop :=
  (∀ r, t.reg r = 0) ∧ t.i = 0 ∧ t.pc = 0x0200 ∧ t.stack = [] ∧ t.dt = 0 ∧ t.st = 0 ∧ t.keys = 0 ∧
  t.idle = s.cfg.idleTicks ∧ (∀ x y, t.fb.pixel x y = false) ∧ t.wx = 0 ∧ t.slots = 0 ∧ t.pendingTick = false ∧
  t.cfg = s.cfg

/-- The memory of a state loaded with an image, and every other component at its reset value: the part of `S0(img)`
(R270, R65) that the two outcomes of a reset share. -/
def AtResetValues (s t : State) (img : List Byte) : Prop :=
  RegistersAtReset s t ∧ t.ldCount = img.length ∧
  ∀ a, t.readByte a =
    if 0x200 ≤ a ∧ a < 0x200 + img.length then img.getD (a - 0x200) 0
    else if a < 80 then s.cfg.font.getD a 0 else 0

/-- Every pin low: an edge at which the host does nothing. -/
def Pins.low : Pins :=
  { rst := false, ldValid := false, ldData := 0, tick := false, keyReq := false, keyCode := 0, quit := false }

end Sys2Proof.Machine
end

