-- ==== Sys2Proof/Certificates/Slice0/Obligations.lean ====
section
/-! DEFINITION. What this model claims of the CHIP-8 CORE, rule by rule. A statement about an instruction says what its
word is, what it does where it completes, what it leaves unchanged, and where it faults. A statement about a step that is
no instruction takes the host's choice of it from the plan (`State.Plans`; log 3). -/

open Sys2Proof Sys2Proof.Machine

/-! ## Register arithmetic and logic (spec/42_alu.md) -/

/-- R140, R142: LD Vx, kk and LD Vx, Vy give V[x] the value and change nothing else but PC. -/
def Obligations.LoadsGiveTheRegisterTheValue : Prop :=
  ∀ (s : State) (x y : Nibble) (kk : Byte),
    EncodedAs (0x6#4 ++ x ++ kk) (.ldImm x kk) ∧ EncodedAs (0x8#4 ++ x ++ y ++ 0x0#4) (.ldReg x y) ∧
    (∃ t, exec (.ldImm x kk) s = .next t ∧ t.reg x = kk ∧ t.pc = s.pc + 2 ∧
      ChangesOnly (· ∈ [.reg x, .pc]) s t) ∧
    (∃ t, exec (.ldReg x y) s = .next t ∧ t.reg x = s.reg y ∧ t.pc = s.pc + 2 ∧
      ChangesOnly (· ∈ [.reg x, .pc]) s t)

/-- R141: ADD Vx, kk wraps and touches no flag (VF changes only as the destination). -/
def Obligations.AddImmediateWrapsWithoutFlag : Prop :=
  ∀ (s : State) (x : Nibble) (kk : Byte),
    EncodedAs (0x7#4 ++ x ++ kk) (.addImm x kk) ∧
    ∃ t, exec (.addImm x kk) s = .next t ∧ (t.reg x).toNat = ((s.reg x).toNat + kk.toNat) % 256 ∧
      t.pc = s.pc + 2 ∧ ChangesOnly (· ∈ [.reg x, .pc]) s t

/-- R143, R144, R145: OR, AND, XOR bit by bit, no flag. -/
def Obligations.LogicWorksBitByBitWithoutFlag : Prop :=
  ∀ (s : State) (x y : Nibble),
    EncodedAs (0x8#4 ++ x ++ y ++ 0x1#4) (.orReg x y) ∧ EncodedAs (0x8#4 ++ x ++ y ++ 0x2#4) (.andReg x y) ∧
    EncodedAs (0x8#4 ++ x ++ y ++ 0x3#4) (.xorReg x y) ∧
    (∃ t, exec (.orReg x y) s = .next t ∧
      (∀ b, (t.reg x).getLsbD b = ((s.reg x).getLsbD b || (s.reg y).getLsbD b)) ∧ t.pc = s.pc + 2 ∧
      ChangesOnly (· ∈ [.reg x, .pc]) s t) ∧
    (∃ t, exec (.andReg x y) s = .next t ∧
      (∀ b, (t.reg x).getLsbD b = ((s.reg x).getLsbD b && (s.reg y).getLsbD b)) ∧ t.pc = s.pc + 2 ∧
      ChangesOnly (· ∈ [.reg x, .pc]) s t) ∧
    (∃ t, exec (.xorReg x y) s = .next t ∧
      (∀ b, (t.reg x).getLsbD b = ((s.reg x).getLsbD b ^^ (s.reg y).getLsbD b)) ∧ t.pc = s.pc + 2 ∧
      ChangesOnly (· ∈ [.reg x, .pc]) s t)

/-- R146: ADD Vx, Vy stores the sum mod 256, then VF the carry; where x = F the carry is what stays. -/
def Obligations.AddStoresSumThenCarry : Prop :=
  ∀ (s : State) (x y : Nibble),
    EncodedAs (0x8#4 ++ x ++ y ++ 0x4#4) (.addReg x y) ∧
    ∃ t, exec (.addReg x y) s = .next t ∧
      (x ≠ 0xF → (t.reg x).toNat = ((s.reg x).toNat + (s.reg y).toNat) % 256) ∧
      (t.reg 0xF).toNat = (if (s.reg x).toNat + (s.reg y).toNat > 255 then 1 else 0) ∧
      t.pc = s.pc + 2 ∧ ChangesOnly (· ∈ [.reg x, .reg 0xF, .pc]) s t

/-- R147: SUB Vx, Vy stores the difference mod 256, then VF = 1 exactly when Vx ≥ Vy before; where x = F the flag is
what stays. -/
def Obligations.SubStoresDifferenceThenNoBorrow : Prop :=
  ∀ (s : State) (x y : Nibble),
    EncodedAs (0x8#4 ++ x ++ y ++ 0x5#4) (.subReg x y) ∧
    ∃ t, exec (.subReg x y) s = .next t ∧
      (x ≠ 0xF → (t.reg x).toNat = ((s.reg x).toNat + 256 - (s.reg y).toNat) % 256) ∧
      (t.reg 0xF).toNat = (if (s.reg x).toNat ≥ (s.reg y).toNat then 1 else 0) ∧
      t.pc = s.pc + 2 ∧ ChangesOnly (· ∈ [.reg x, .reg 0xF, .pc]) s t

/-- R148: RND takes one draw, the byte the host presents or, where none is planned, a free value, and masks it. A zero
mask gives zero whatever the draw. The two sources of the draw are the model's form of "a draw" (log 4). -/
def Obligations.RandomByteIsDrawnAndMasked : Prop :=
  ∀ (s : State) (x : Nibble) (kk : Byte),
    EncodedAs (0xC#4 ++ x ++ kk) (.rnd x kk) ∧
    ∃ t, exec (.rnd x kk) s = .next t ∧
      (∀ r rest, s.host.rnd = r :: rest → t.reg x = r &&& kk ∧ t.host.rnd = rest) ∧
      (s.host.rnd = [] → t.reg x = Config.freeByte s.host.draws &&& kk ∧ t.host.rnd = []) ∧
      (kk = 0 → t.reg x = 0) ∧ t.host.draws = s.host.draws + 1 ∧ t.pc = s.pc + 2 ∧
      ChangesOnly (· ∈ [.reg x, .pc, .rnd, .draws]) s t

/-! ## Control transfer and skips (spec/41_control_flow.md) -/

/-- R120, R248: RET takes PC from the stack; on an empty stack it halts, PC left at the RET and no fault recorded. -/
def Obligations.ReturnPopsOrHalts : Prop :=
  ∀ (s : State),
    EncodedAs 0x00EE#16 .ret ∧
    (∀ top rest, s.stack = top :: rest →
      ∃ t, exec .ret s = .next t ∧ t.pc = top ∧ t.stack = rest ∧ ChangesOnly (· ∈ [.pc, .stack]) s t) ∧
    (s.stack = [] → ∃ t, exec .ret s = .next t ∧ t.run = .halted ∧ ChangesOnly (· ∈ [.run]) s t)

/-- R121, R127: JP goes to nnn, JP V0 to nnn + V0, never reduced modulo 0x1000. -/
def Obligations.JumpsGoToTheAddress : Prop :=
  ∀ (s : State) (nnn : Addr12),
    EncodedAs (0x1#4 ++ nnn) (.jp nnn) ∧ EncodedAs (0xB#4 ++ nnn) (.jpV0 nnn) ∧
    (∃ t, exec (.jp nnn) s = .next t ∧ t.pc.toNat = nnn.toNat ∧ ChangesOnly (· ∈ [.pc]) s t) ∧
    (∃ t, exec (.jpV0 nnn) s = .next t ∧ t.pc.toNat = nnn.toNat + (s.reg 0x0).toNat ∧ ChangesOnly (· ∈ [.pc]) s t)

/-- R122, R245: CALL pushes pc + 2 and jumps; with STACK_DEPTH addresses held it raises StackOverflow. -/
def Obligations.CallPushesReturnAddressOrOverflows : Prop :=
  ∀ (s : State) (nnn : Addr12),
    EncodedAs (0x2#4 ++ nnn) (.call nnn) ∧
    (s.stack.length ≠ s.cfg.stackDepth →
      ∃ t, exec (.call nnn) s = .next t ∧ t.stack = (s.pc + 2) :: s.stack ∧ t.pc.toNat = nnn.toNat ∧
        ChangesOnly (· ∈ [.pc, .stack]) s t) ∧
    (s.stack.length = s.cfg.stackDepth →
      ∃ t, exec (.call nnn) s = .next t ∧ EntersFault s t .stackOverflow (0x2#4 ++ nnn) 0)

/-- A RET after a CALL resumes at the CALL's address plus 2 with the depth it had before (R120: "execution resumes
after the CALL"), wherever the subroutine was when it returned. -/
def Obligations.ReturnResumesAfterTheCall : Prop :=
  ∀ (s : State) (nnn : Addr12) (here : Word), s.stack.length ≠ s.cfg.stackDepth →
    ∃ t u, exec (.call nnn) s = .next t ∧ exec .ret { t with pc := here } = .next u ∧
      u.pc = s.pc + 2 ∧ u.stack = s.stack

/-- R123, R124: SE and SNE with an immediate. -/
def Obligations.SkipsCompareWithTheImmediate : Prop :=
  ∀ (s : State) (x : Nibble) (kk : Byte),
    EncodedAs (0x3#4 ++ x ++ kk) (.seImm x kk) ∧ EncodedAs (0x4#4 ++ x ++ kk) (.sneImm x kk) ∧
    (∃ t, exec (.seImm x kk) s = .next t ∧ t.pc.toNat = (s.pc.toNat + if s.reg x = kk then 4 else 2) % 65536 ∧
      ChangesOnly (· ∈ [.pc]) s t) ∧
    (∃ t, exec (.sneImm x kk) s = .next t ∧ t.pc.toNat = (s.pc.toNat + if s.reg x ≠ kk then 4 else 2) % 65536 ∧
      ChangesOnly (· ∈ [.pc]) s t)

/-- R125, R126: SE and SNE with a register, for every value of the ignored field n. -/
def Obligations.SkipsCompareTwoRegisters : Prop :=
  ∀ (s : State) (x y n : Nibble),
    EncodedAs (0x5#4 ++ x ++ y ++ n) (.seReg x y n) ∧ EncodedAs (0x9#4 ++ x ++ y ++ n) (.sneReg x y n) ∧
    (∃ t, exec (.seReg x y n) s = .next t ∧ t.pc.toNat = (s.pc.toNat + if s.reg x = s.reg y then 4 else 2) % 65536 ∧
      ChangesOnly (· ∈ [.pc]) s t) ∧
    (∃ t, exec (.sneReg x y n) s = .next t ∧ t.pc.toNat = (s.pc.toNat + if s.reg x ≠ s.reg y then 4 else 2) % 65536 ∧
      ChangesOnly (· ∈ [.pc]) s t)

/-! ## Index register and memory (spec/43_index_memory.md) -/

/-- R160, R162: LD I, nnn and LD F, Vx; the font address is Vx * 5 with no mask. -/
def Obligations.IndexIsSetToAddressOrGlyph : Prop :=
  ∀ (s : State) (x : Nibble) (nnn : Addr12),
    EncodedAs (0xA#4 ++ nnn) (.ldI nnn) ∧ EncodedAs (0xF#4 ++ x ++ 0x29#8) (.ldFVx x) ∧
    (∃ t, exec (.ldI nnn) s = .next t ∧ t.i.toNat = nnn.toNat ∧ t.pc = s.pc + 2 ∧
      ChangesOnly (· ∈ [.index, .pc]) s t) ∧
    (∃ t, exec (.ldFVx x) s = .next t ∧ t.i.toNat = (s.reg x).toNat * 5 ∧ t.pc = s.pc + 2 ∧
      ChangesOnly (· ∈ [.index, .pc]) s t)

/-- R161: ADD I, Vx modulo 2^16, VF unchanged. -/
def Obligations.AddToIndexWrapsWithoutFlag : Prop :=
  ∀ (s : State) (x : Nibble),
    EncodedAs (0xF#4 ++ x ++ 0x1E#8) (.addIVx x) ∧
    ∃ t, exec (.addIVx x) s = .next t ∧ t.i.toNat = (s.i.toNat + (s.reg x).toNat) % 65536 ∧ t.pc = s.pc + 2 ∧
      ChangesOnly (· ∈ [.index, .pc]) s t

/-- R163: LD B, Vx stores hundreds, tens and ones at I, I + 1, I + 2, or raises MemoryRange and stores nothing. -/
def Obligations.BcdStoresThreeDigits : Prop :=
  ∀ (s : State) (x : Nibble), Memory.wf s.cfg s.mem = true →
    EncodedAs (0xF#4 ++ x ++ 0x33#8) (.ldBVx x) ∧
    (s.i.toNat + 2 < s.cfg.memSize →
      ∃ t, exec (.ldBVx x) s = .next t ∧
        (t.readByte s.i.toNat).toNat = (s.reg x).toNat / 100 ∧
        (t.readByte (s.i.toNat + 1)).toNat = (s.reg x).toNat / 10 % 10 ∧
        (t.readByte (s.i.toNat + 2)).toNat = (s.reg x).toNat % 10 ∧ t.pc = s.pc + 2 ∧
        ChangesOnly (fun p => p = .pc ∨ ∃ k, k < 3 ∧ p = .mem (s.i.toNat + k)) s t) ∧
    (s.cfg.memSize ≤ s.i.toNat + 2 →
      ∃ t, exec (.ldBVx x) s = .next t ∧
        EntersFault s t .memoryRange (0xF#4 ++ x ++ 0x33#8) (max s.i.toNat s.cfg.memSize))

/-- R164: LD [I], Vx stores V0..Vx from I on, I unchanged, or raises MemoryRange and stores nothing. -/
def Obligations.StoreWritesRegistersToMemory : Prop :=
  ∀ (s : State) (x : Nibble), Memory.wf s.cfg s.mem = true →
    EncodedAs (0xF#4 ++ x ++ 0x55#8) (.storeRegs x) ∧
    (s.i.toNat + x.toNat < s.cfg.memSize →
      ∃ t, exec (.storeRegs x) s = .next t ∧
        (∀ q : Nibble, q.toNat ≤ x.toNat → t.readByte (s.i.toNat + q.toNat) = s.reg q) ∧ t.pc = s.pc + 2 ∧
        ChangesOnly (fun p => p = .pc ∨ ∃ k, k ≤ x.toNat ∧ p = .mem (s.i.toNat + k)) s t) ∧
    (s.cfg.memSize ≤ s.i.toNat + x.toNat →
      ∃ t, exec (.storeRegs x) s = .next t ∧
        EntersFault s t .memoryRange (0xF#4 ++ x ++ 0x55#8) (max s.i.toNat s.cfg.memSize))

/-- R165: LD Vx, [I] loads V0..Vx from I on, VF too where x = F, or raises MemoryRange and loads nothing. -/
def Obligations.LoadReadsRegistersFromMemory : Prop :=
  ∀ (s : State) (x : Nibble),
    EncodedAs (0xF#4 ++ x ++ 0x65#8) (.loadRegs x) ∧
    (s.i.toNat + x.toNat < s.cfg.memSize →
      ∃ t, exec (.loadRegs x) s = .next t ∧
        (∀ q : Nibble, q.toNat ≤ x.toNat → t.reg q = s.readByte (s.i.toNat + q.toNat)) ∧ t.pc = s.pc + 2 ∧
        ChangesOnly (fun p => p = .pc ∨ ∃ q : Nibble, q.toNat ≤ x.toNat ∧ p = .reg q) s t) ∧
    (s.cfg.memSize ≤ s.i.toNat + x.toNat →
      ∃ t, exec (.loadRegs x) s = .next t ∧
        EntersFault s t .memoryRange (0xF#4 ++ x ++ 0x65#8) (max s.i.toNat s.cfg.memSize))

/-- A store is seen by the very next fetch, the instruction's own successor included (spec/20_memory.md R74). -/
def Obligations.StoredBytesAreFetchedNext : Prop :=
  ∀ (s : State) (x : Nibble) (j k : Nibble), Memory.wf s.cfg s.mem = true → s.i.toNat + x.toNat < s.cfg.memSize →
    k.toNat = j.toNat + 1 → k.toNat ≤ x.toNat → (s.pc + 2).toNat = s.i.toNat + j.toNat →
    ∃ t, exec (.storeRegs x) s = .next t ∧ t.fetch = .ok (s.reg j ++ s.reg k)

/-! ## Display (spec/44_display.md) -/

/-- R181: CLS unsets every pixel and emits one frame_update (the model counts the pulses, log 8). -/
def Obligations.ClearUnsetsEveryPixel : Prop :=
  ∀ (s : State),
    EncodedAs 0x00E0#16 .cls ∧
    ∃ t, exec .cls s = .next t ∧ (∀ x y, t.fb.pixel x y = false) ∧ t.frames = s.frames + 1 ∧ t.pc = s.pc + 2 ∧
      ChangesOnly (fun p => p ∈ [.frames, .pc] ∨ ∃ x y, p = .pixel x y) s t

/-- R182, R183, R184: DRW XORs each covered pixel with its sprite bit, most significant bit leftmost, wrapping at both
edges; VF tells whether a set pixel was cleared; nothing else changes but the count of frame_update pulses (log 8). Rows
out of range raise MemoryRange, and then no pixel, no VF and no frame_update. -/
def Obligations.DrawXorsTheSprite : Prop :=
  ∀ (s : State) (x y n : Nibble),
    EncodedAs (0xD#4 ++ x ++ y ++ n) (.drw x y n) ∧
    (n = 0 ∨ s.i.toNat + n.toNat - 1 < s.cfg.memSize →
      ∃ t, exec (.drw x y n) s = .next t ∧
        (∀ r b, r < n.toNat → b < 8 →
          t.fb.pixel (Fin.ofNat 64 ((s.reg x).toNat + b)) (Fin.ofNat 32 ((s.reg y).toNat + r)) =
            (s.fb.pixel (Fin.ofNat 64 ((s.reg x).toNat + b)) (Fin.ofNat 32 ((s.reg y).toNat + r)) ^^
              (s.readByte (s.i.toNat + r)).getLsbD (7 - b))) ∧
        ((∃ r b, r < n.toNat ∧ b < 8 ∧
          s.fb.pixel (Fin.ofNat 64 ((s.reg x).toNat + b)) (Fin.ofNat 32 ((s.reg y).toNat + r)) = true ∧
          (s.readByte (s.i.toNat + r)).getLsbD (7 - b) = true) → t.reg 0xF = 1) ∧
        ((∀ r b, r < n.toNat → b < 8 →
          s.fb.pixel (Fin.ofNat 64 ((s.reg x).toNat + b)) (Fin.ofNat 32 ((s.reg y).toNat + r)) = false ∨
          (s.readByte (s.i.toNat + r)).getLsbD (7 - b) = false) → t.reg 0xF = 0) ∧
        t.frames = s.frames + 1 ∧ t.pc = s.pc + 2 ∧
        ChangesOnly (fun p => p ∈ [.reg 0xF, .frames, .pc] ∨
          ∃ r b, r < n.toNat ∧ b < 8 ∧
            p = .pixel (Fin.ofNat 64 ((s.reg x).toNat + b)) (Fin.ofNat 32 ((s.reg y).toNat + r))) s t) ∧
    (n ≠ 0 → s.cfg.memSize ≤ s.i.toNat + n.toNat - 1 →
      ∃ t, exec (.drw x y n) s = .next t ∧
        EntersFault s t .memoryRange (0xD#4 ++ x ++ y ++ n) (max s.i.toNat s.cfg.memSize))

/-- R186: no two pixels of a sprite fall on one cell, and drawing a sprite twice in one place gives the framebuffer back;
on cells with no pixel set the first draw reports no collision and the second one reports it, if the sprite has a set
pixel. The coordinates are not taken from VF, which the first draw overwrites. -/
def Obligations.DrawingTwiceGivesTheScreenBack : Prop :=
  ∀ (s : State) (x y n : Nibble), x ≠ 0xF → y ≠ 0xF → n = 0 ∨ s.i.toNat + n.toNat - 1 < s.cfg.memSize →
    (∀ r b r' b', r < n.toNat → r' < n.toNat → b < 8 → b' < 8 →
      Fin.ofNat 64 ((s.reg x).toNat + b) = Fin.ofNat 64 ((s.reg x).toNat + b') →
      Fin.ofNat 32 ((s.reg y).toNat + r) = Fin.ofNat 32 ((s.reg y).toNat + r') → r = r' ∧ b = b') ∧
    ∃ t u, exec (.drw x y n) s = .next t ∧ exec (.drw x y n) t = .next u ∧ u.fb = s.fb ∧
      ((∀ r b, r < n.toNat → b < 8 →
        s.fb.pixel (Fin.ofNat 64 ((s.reg x).toNat + b)) (Fin.ofNat 32 ((s.reg y).toNat + r)) = false) →
        t.reg 0xF = 0 ∧
        ((∃ r b, r < n.toNat ∧ b < 8 ∧ (s.readByte (s.i.toNat + r)).getLsbD (7 - b) = true) → u.reg 0xF = 1))

/-! ## Timers (spec/45_timers.md) -/

/-- R204, R205, R206: LD Vx, DT reads DT; LD DT, Vx loads it; LD ST, Vx writes ST. -/
def Obligations.TimerInstructionsMoveTheTimers : Prop :=
  ∀ (s : State) (x : Nibble),
    EncodedAs (0xF#4 ++ x ++ 0x07#8) (.ldVxDt x) ∧ EncodedAs (0xF#4 ++ x ++ 0x15#8) (.ldDtVx x) ∧
    EncodedAs (0xF#4 ++ x ++ 0x18#8) (.ldStVx x) ∧
    (∃ t, exec (.ldVxDt x) s = .next t ∧ t.reg x = s.dt ∧ t.pc = s.pc + 2 ∧ ChangesOnly (· ∈ [.reg x, .pc]) s t) ∧
    (∃ t, exec (.ldDtVx x) s = .next t ∧ t.dt = s.reg x ∧ t.pc = s.pc + 2 ∧ ChangesOnly (· ∈ [.dt, .pc]) s t) ∧
    (∃ t, exec (.ldStVx x) s = .next t ∧ t.st = s.reg x ∧ t.pc = s.pc + 2 ∧ ChangesOnly (· ∈ [.st, .pc]) s t)

/-! ## Keypad (spec/46_keypad.md) -/

/-- R227, R228, R246: SKP and SKNP skip on the flag of key Vx; above 15 they raise KeyIndexRange. -/
def Obligations.KeySkipsReadTheFlagOrFault : Prop :=
  ∀ (s : State) (x : Nibble),
    EncodedAs (0xE#4 ++ x ++ 0x9E#8) (.skp x) ∧ EncodedAs (0xE#4 ++ x ++ 0xA1#8) (.sknp x) ∧
    ((s.reg x).toNat ≤ 15 →
      (∃ t, exec (.skp x) s = .next t ∧
        t.pc.toNat = (s.pc.toNat + if s.keys.getLsbD (s.reg x).toNat = true then 4 else 2) % 65536 ∧
        ChangesOnly (· ∈ [.pc]) s t) ∧
      (∃ t, exec (.sknp x) s = .next t ∧
        t.pc.toNat = (s.pc.toNat + if s.keys.getLsbD (s.reg x).toNat = true then 2 else 4) % 65536 ∧
        ChangesOnly (· ∈ [.pc]) s t)) ∧
    (15 < (s.reg x).toNat →
      (∃ t, exec (.skp x) s = .next t ∧ EntersFault s t .keyIndexRange (0xE#4 ++ x ++ 0x9E#8) 0) ∧
      (∃ t, exec (.sknp x) s = .next t ∧ EntersFault s t .keyIndexRange (0xE#4 ++ x ++ 0xA1#8) 0))

/-- R229: LD Vx, K suspends the engine, whatever flags are set; PC stays and V[x] is not yet written. -/
def Obligations.KeyWaitSuspendsTheEngine : Prop :=
  ∀ (s : State) (x : Nibble),
    EncodedAs (0xF#4 ++ x ++ 0x0A#8) (.ldVxK x) ∧
    ∃ t, exec (.ldVxK x) s = .next t ∧ t.run = .waitKey ∧ t.wx = x ∧ t.slots = 0 ∧
      ChangesOnly (· ∈ [.run, .wx, .slots]) s t

/-- R230 (with R221): a key event in WAIT_KEY writes its code to V[wx], advances PC, resumes the engine with no slot
left, and sets the key's flag. The event is a planned Key entry, whatever the flip-flops hold (log 24's choice). -/
def Obligations.KeyEventEndsTheWait : Prop :=
  ∀ (s : State) (k : Nibble) (rest : List HostStep), s.Plans (.key k) rest → s.run = .waitKey →
    ∃ t, step s = .next t ∧ EndsWait s k t ∧ RecordsKey s.keys k t ∧ t.host.steps = rest ∧
      ChangesOnly (· ∈ [.reg s.wx, .pc, .run, .slots, .keys, .idle, .plan]) s t

/-- R221, R226: while RUNNING a key event sets its own flag, no other, and restarts the idle interval; in LOAD and the
terminal states it is lost. The event is a planned Key entry, whatever the flip-flops hold (log 24's choice). -/
def Obligations.KeyEventSetsItsOwnFlag : Prop :=
  ∀ (s : State) (k : Nibble) (rest : List HostStep), s.Plans (.key k) rest →
    (s.run = .running →
      ∃ t, step s = .next t ∧ RecordsKey s.keys k t ∧ t.host.steps = rest ∧
        ChangesOnly (· ∈ [.keys, .idle, .plan]) s t) ∧
    (s.run = .load ∨ s.run.terminal = true →
      ∃ t, step s = .next t ∧ t.host.steps = rest ∧ ChangesOnly (· ∈ [.plan]) s t)

/-! ## Ticks, quit, reset (spec/40_cycle.md R106–R110) -/

/-- R106, R201, R222: a Tick step is enabled exactly when RUNNING with no slot left or in WAIT_KEY; it counts DT down
without wrapping, ages the keypad and gives IPT slots. -/
def Obligations.TickCountsAgesAndGivesSlots : Prop :=
  ∀ (s : State) (rest : List HostStep), s.Plans .tick rest →
    (s.CanTick →
      ∃ t, step s = .next t ∧ GivesTick s t ∧ t.host.steps = rest ∧
        ChangesOnly (· ∈ [.dt, .idle, .keys, .slots, .plan]) s t) ∧
    (¬ s.CanTick → ∃ t, step s = .next t ∧ t.host.steps = rest ∧ ChangesOnly (· ∈ [.pendingTick, .plan]) s t)

/-- R282: a pulse that comes while slots are left is latched one deep, and the Tick step, aging and all, is taken as soon
as the slots are used up, before anything else the host plans (log 13). -/
def Obligations.EarlyTickIsLatched : Prop :=
  (∀ (s : State) (rest : List HostStep), s.Plans .tick rest → s.run = .running → 0 < s.slots →
    ∃ t, step s = .next t ∧ t.pendingTick = true ∧ t.host.steps = rest ∧
      ChangesOnly (· ∈ [.pendingTick, .plan]) s t) ∧
  (∀ (s : State), s.pendingTick = true → s.CanTick →
    ∃ t, step s = .next t ∧ t.pendingTick = false ∧ GivesTick s t ∧
      ChangesOnly (· ∈ [.pendingTick, .dt, .idle, .keys, .slots]) s t)

/-- R109: the Quit step is taken while RUNNING or WAIT_KEY and changes nothing but the run state; elsewhere it has no
effect (R249). That a planned Quit entry is such a step, standing for the synchronized quit being 1 whatever the
flip-flops hold (here the second one holds 0 in RUNNING and WAIT_KEY, or the quit would be due already), is log 24's
choice and no rule of the spec. Quit seen in the flip-flop is `QuitSeenIsTakenAtTheNextStepBoundary`. -/
def Obligations.QuitEndsTheRun : Prop :=
  ∀ (s : State) (rest : List HostStep), s.Plans .quit rest →
    (s.run = .running ∨ s.run = .waitKey →
      ∃ t, step s = .next t ∧ t.run = .quit ∧ t.host.steps = rest ∧ ChangesOnly (· ∈ [.run, .plan]) s t) ∧
    (s.run = .load ∨ s.run.terminal = true →
      ∃ t, step s = .next t ∧ t.host.steps = rest ∧ ChangesOnly (· ∈ [.plan]) s t)

/-- R272: from every state, a terminal one too (R110), the Reset step gives S0(img), or, for an image over
MEM_SIZE - 0x200 bytes, FAULTED with code 6 holding the first MEM_SIZE - 0x200 bytes (R247). -/
def Obligations.ResetGivesTheInitialState : Prop :=
  ∀ (s : State) (img : List Byte) (rest : List HostStep), s.Plans (.reset img) rest →
    (img.length ≤ s.cfg.memSize - 0x200 →
      ∃ t, step s = .next t ∧ AtResetValues s t img ∧ t.run = .running ∧ t.loadErr = false ∧
        t.fault = FaultRecord.zero ∧ t.host.steps = rest) ∧
    (s.cfg.memSize - 0x200 < img.length →
      ∃ t, step s = .next t ∧ AtResetValues s t (img.take (s.cfg.memSize - 0x200)) ∧
        t.run = .faulted ∧ t.loadErr = true ∧
        t.fault = { code := .programLoad, pc := 0x0200, word := 0, addr := 0 } ∧ t.host.steps = rest)

/-- R52, R271, R272: streaming an image through the load port, one byte per clock edge with rst = 1, and releasing rst is
the Reset step with that image. The synchronizers start and stay quiet here; what they hold is the model's choice
(log 6). -/
def Obligations.LoadPortStreamIsTheResetStep : Prop :=
  ∀ (s : State) (img : List Byte) (rest : List HostStep), s.run ≠ .load → s.ports = Ports.quiet →
    s.latchedTickDue = false →
    s.host.steps =
      .clock { Pins.low with rst := true } ::
        (img.map (fun b => .clock { Pins.low with rst := true, ldValid := true, ldData := b }) ++
          .clock Pins.low :: rest) →
    Sys2Proof.core.run (img.length + 2) s = step (s.withPlan (.reset img :: rest))

/-! ## The instruction cycle (spec/40_cycle.md R102–R107, spec/60_exceptions.md R241–R250) -/

/-- R102, R107: where Exec is enabled and the bytes at PC decode, the step is the instruction's meaning, and an
instruction that leaves the block RUNNING takes one slot; so too where the host plans the Exec step. Where quit is seen
no instruction starts (`QuitSeenIsTakenAtTheNextStepBoundary`); the edge at which one completes is
`EdgeCompletesTheInstructionFirst`. -/
def Obligations.StepRunsTheDecodedInstruction : Prop :=
  ∀ (s : State) (i : Instr), s.run = .running → 0 < s.slots → s.pc.toNat + 1 < s.cfg.memSize →
    decodeWord s.cfg.legacyUnimplemented (s.readByte s.pc.toNat ++ s.readByte (s.pc.toNat + 1)) = .ok i →
    s.ports.quitSync2 = false →
    (s.host.steps = [] →
      ∃ t, exec i s = .next t ∧
        step s = .next (if t.run = .running then { t with slots := t.slots - 1 } else t)) ∧
    (∀ rest, s.host.steps = .exec :: rest →
      ∃ t, exec i (s.withPlan rest) = .next t ∧
        step s = .next (if t.run = .running then { t with slots := t.slots - 1 } else t))

/-- R103, R243: a fetch past the end of memory raises MemoryRange with word 0x0000 and the lowest address out of range,
whether the host plans the Exec step or nothing (log 3). -/
def Obligations.FetchPastTheEndFaults : Prop :=
  ∀ (s : State), s.NextIsExec → s.cfg.memSize ≤ s.pc.toNat + 1 →
    ∃ t, step s = .next t ∧
      EntersFault s.planTaken t .memoryRange 0 (if s.cfg.memSize ≤ s.pc.toNat then s.pc.toNat else s.pc.toNat + 1)

/-- R242, R244: a word that does not decode raises InvalidOpcode, or UnimplementedOpcode, with the word and PC, whether
the host plans the Exec step or nothing (log 3). -/
def Obligations.UndecodableWordFaults : Prop :=
  ∀ (s : State) (w : Word), s.NextIsExec → s.pc.toNat + 1 < s.cfg.memSize →
    w = s.readByte s.pc.toNat ++ s.readByte (s.pc.toNat + 1) →
    (decodeWord s.cfg.legacyUnimplemented w = .error .invalidOpcode →
      ∃ t, step s = .next t ∧ EntersFault s.planTaken t .invalidOpcode w 0) ∧
    (decodeWord s.cfg.legacyUnimplemented w = .error .unimplementedOpcode →
      ∃ t, step s = .next t ∧ EntersFault s.planTaken t .unimplementedOpcode w 0)

/-- R241: faults are precise. Whichever instruction enters FAULTED records its own word and PC, an address only for
MemoryRange, and changes nothing but the run state and the record. -/
def Obligations.FaultsArePrecise : Prop :=
  ∀ (i : Instr) (s t : State), s.run ≠ .faulted → exec i s = .next t → t.run = .faulted →
    t.fault.code ∈ [.memoryRange, .stackOverflow, .keyIndexRange] ∧ t.fault.pc = s.pc ∧ t.fault.word = encode i ∧
    (t.fault.code ≠ .memoryRange → t.fault.addr = 0) ∧ ChangesOnly (· ∈ [.run, .fault]) s t

/-- R106, R113: where the host plans nothing the block takes the Tick step, aging and all, when its slots are used up, and
one Tick after another while it waits for a key. That an empty plan means the block's own step is log 3's choice. -/
def Obligations.BlockTicksWhenSlotsAreUsedUp : Prop :=
  ∀ (s : State), s.PlansNothing → s.CanTick →
    ∃ t, step s = .next t ∧ GivesTick s t ∧ ChangesOnly (· ∈ [.dt, .idle, .keys, .slots]) s t

/-- R101: in a terminal state everything the host does short of a reset leaves the block as it is; only its plan and the
synchronizers move (log 5). -/
def Obligations.TerminalStatesAreFrozen : Prop :=
  ∀ (s : State), s.run.terminal = true → (∀ img rest, s.host.steps ≠ .reset img :: rest) →
    (∀ p rest, s.host.steps = .clock p :: rest → p.rst = false) →
    (∀ o p rest, s.host.steps = .clockExec o p :: rest → p.rst = false) →
    ∃ t, step s = .next t ∧ ChangesOnly (· ∈ [.plan, .ports]) s t

/-- Every step of every state answers a next state. Fatal conditions are states of the block (R240, R241); that the model
has no fault of its own beside them, and that a state in which no step is enabled (R101) answers itself, is log 5's
choice. -/
def Obligations.EveryStepAnswersANextState : Prop := ∀ (s : State), ∃ t, step s = .next t

/-- The parameters are fixed: no step changes them (R8). -/
def Obligations.NoStepChangesTheParameters : Prop := ∀ (s t : State), step s = .next t → t.cfg = s.cfg

/-! ## The ports (spec/10_state.md R41–R52, spec/46_keypad.md R224, spec/60_exceptions.md R251) -/

/-- R48, R224: at every edge, in every run state, and whether an instruction completes at it or not, each synchronizer moves one flip-flop on and key_ack takes the value of
the synchronized request: it rises on a new request and falls on a withdrawn one, in LOAD and the terminal states too
(R226). The second flip-flop before the edge is the synchronized request (log 11). That all this goes on at an edge with
rst = 1 as well, the reset leaving the flip-flops and key_ack alone, is log 19's choice and no rule of the spec. -/
def Obligations.PortFlipFlopsMoveAtEveryEdge : Prop :=
  ∀ (s : State) (e : HostStep) (p : Pins) (rest : List HostStep), s.Plans e rest → e.IsEdge p →
    ∃ t, step s = .next t ∧ t.host.steps = rest ∧
      t.ports =
        { keySync1 := p.keyReq, keySync2 := s.ports.keySync1, keyAck := s.ports.keySync2,
          quitSync1 := p.quit, quitSync2 := s.ports.quitSync1 }

/-- R224, R230: one handshake is one Key step. At an edge, a synchronized request without acknowledge is taken and
acknowledged, and in WAIT_KEY it ends the wait; while it stays high, or once it is low, no key is taken; then the
acknowledge falls. The second flip-flop is what the unit sees (log 11). -/
def Obligations.OneHandshakeIsOneKeyStep : Prop :=
  ∀ (s : State) (p : Pins) (rest : List HostStep), s.Plans (.clock p) rest → s.run = .running ∨ s.run = .waitKey →
    p.rst = false → p.tick = false → s.ports.quitSync2 = false →
    ∃ t, step s = .next t ∧ t.ports.keySync1 = p.keyReq ∧ t.ports.keySync2 = s.ports.keySync1 ∧
      t.ports.keyAck = s.ports.keySync2 ∧
      (s.ports.NewRequest → s.run = .running →
        RecordsKey s.keys p.keyCode t ∧ ChangesOnly (· ∈ [.keys, .idle, .ports, .plan]) s t) ∧
      (s.ports.NewRequest → s.run = .waitKey →
        RecordsKey s.keys p.keyCode t ∧ EndsWait s p.keyCode t ∧
        ChangesOnly (· ∈ [.reg s.wx, .pc, .run, .slots, .keys, .idle, .ports, .plan]) s t) ∧
      (¬ s.ports.NewRequest → ChangesOnly (· ∈ [.ports, .plan]) s t)

/-- R270, R271, R52, R226, R249: an edge with rst = 1 takes every register to its reset value and the block to LOAD,
whatever tick, quit and the key port do: a key request is lost. That it is acknowledged, key_ack taking the synchronized
request (log 11) at an edge with rst = 1, is log 19's choice and no rule of the spec. Where no byte is offered, the first
edge of a reset period gives memory its reset contents and clears the load state, and a later one leaves them (log 20). A
byte offered at the first edge comes after the clearing and goes to 0x200; at a later one it goes to 0x200 + ld_count, or
where the capacity is used up sets load_err and is not written. -/
def Obligations.ResetEdgeTakesTheResetValues : Prop :=
  ∀ (s : State) (p : Pins) (rest : List HostStep), s.Plans (.clock p) rest → p.rst = true →
    ∃ t, step s = .next t ∧ RegistersAtReset s t ∧ t.run = .load ∧ t.fault = FaultRecord.zero ∧
      t.ports.keyAck = s.ports.keySync2 ∧
      (p.ldValid = false → s.run ≠ .load → AtResetValues s t [] ∧ t.loadErr = false) ∧
      (p.ldValid = false → s.run = .load →
        t.ldCount = s.ldCount ∧ t.loadErr = s.loadErr ∧ ∀ a, t.readByte a = s.readByte a) ∧
      (p.ldValid = true → s.run ≠ .load → 0x200 < s.cfg.memSize →
        AtResetValues s t [p.ldData] ∧ t.loadErr = false) ∧
      (p.ldValid = true → s.run = .load → Memory.wf s.cfg s.mem = true →
        (s.ldCount < s.cfg.memSize - 0x200 →
          t.ldCount = s.ldCount + 1 ∧ t.loadErr = s.loadErr ∧
          ∀ a, t.readByte a = if a = 0x200 + s.ldCount then p.ldData else s.readByte a) ∧
        (s.cfg.memSize - 0x200 ≤ s.ldCount →
          t.ldCount = s.ldCount ∧ t.loadErr = true ∧ ∀ a, t.readByte a = s.readByte a))

/-- R46: a pulse on the tick pin, with no quit seen and no new key, is one Tick step where one is enabled; where slots are
left it is latched (R282). -/
def Obligations.TickPinIsOneTickStep : Prop :=
  ∀ (s : State) (p : Pins) (rest : List HostStep), s.Plans (.clock p) rest → p.rst = false → p.tick = true →
    s.ports.quitSync2 = false → ¬ s.ports.NewRequest →
    (s.CanTick →
      ∃ t, step s = .next t ∧ GivesTick s t ∧ ChangesOnly (· ∈ [.dt, .idle, .keys, .slots, .ports, .plan]) s t) ∧
    (s.run = .running → 0 < s.slots →
      ∃ t, step s = .next t ∧ t.pendingTick = true ∧ ChangesOnly (· ∈ [.pendingTick, .ports, .plan]) s t)

/-- R251, R249, R223, R230: in one clock the order is tick, quit, key. Quit seen, whatever the key port does: QUIT, and a
key request of that clock acknowledged and not recorded. A tick with quit seen: the tick's effects, then QUIT. A tick with
a new key request: the tick's effects, then the key, which reads pressed and, in WAIT_KEY, ends the wait. What is seen at
the edge is the second flip-flop before it (log 11). -/
def Obligations.SameClockOrderOfTickQuitKey : Prop :=
  ∀ (s : State) (p : Pins) (rest : List HostStep), s.Plans (.clock p) rest → p.rst = false →
    (s.ports.quitSync2 = true → s.run = .running ∨ s.run = .waitKey → p.tick = false →
      ∃ t, step s = .next t ∧ t.run = .quit ∧ t.ports.keyAck = s.ports.keySync2 ∧
        ChangesOnly (· ∈ [.run, .ports, .plan]) s t) ∧
    (s.ports.quitSync2 = true → s.CanTick → p.tick = true →
      ∃ t, step s = .next t ∧ t.run = .quit ∧ t.ports.keyAck = s.ports.keySync2 ∧ GivesTick s t ∧
        ChangesOnly (· ∈ [.run, .dt, .idle, .keys, .slots, .ports, .plan]) s t) ∧
    (s.ports.NewRequest → s.run = .running → s.slots = 0 → s.ports.quitSync2 = false → p.tick = true →
      ∃ t, step s = .next t ∧ RecordsKey s.agedKeys p.keyCode t ∧ t.dt.toNat = s.dt.toNat - 1 ∧
        t.slots = s.cfg.ipt ∧ ChangesOnly (· ∈ [.dt, .idle, .keys, .slots, .ports, .plan]) s t) ∧
    (s.ports.NewRequest → s.run = .waitKey → s.ports.quitSync2 = false → p.tick = true →
      ∃ t, step s = .next t ∧ RecordsKey s.agedKeys p.keyCode t ∧ t.dt.toNat = s.dt.toNat - 1 ∧
        EndsWait s p.keyCode t ∧
        ChangesOnly (· ∈ [.reg s.wx, .pc, .run, .dt, .idle, .keys, .slots, .ports, .plan]) s t)

/-- R249, R279, R109: where quit is seen in RUNNING or WAIT_KEY, the next step is QUIT whatever the host plans short of an
edge or a reset, which order quit themselves, and the plan is left. A latched tick that is due comes before it, and QUIT
follows (R251, log 13). A planned edge leaves QUIT too, after the effects of its tick. -/
def Obligations.QuitSeenIsTakenAtTheNextStepBoundary : Prop :=
  ∀ (s : State), s.ports.quitSync2 = true → s.run = .running ∨ s.run = .waitKey →
    (s.PlansNoEdge → s.latchedTickDue = false →
      ∃ t, step s = .next t ∧ t.run = .quit ∧ ChangesOnly (· ∈ [.run]) s t) ∧
    (s.PlansNoEdge → s.pendingTick = true → s.CanTick →
      ∃ t u, step s = .next t ∧ GivesTick s t ∧ step t = .next u ∧ u.run = .quit ∧
        ChangesOnly (· ∈ [.run, .pendingTick, .dt, .idle, .keys, .slots]) s u) ∧
    (∀ p rest, s.Plans (.clock p) rest → p.rst = false →
      ∃ t, step s = .next t ∧ t.run = .quit ∧
        ChangesOnly (· ∈ [.run, .dt, .idle, .keys, .slots, .pendingTick, .ports, .plan]) s t)

/-- R203: where a Tick step and an instruction share a clock, with no quit seen and no new key, a load of DT comes after
the tick: Fx15 leaves DT = V[x], the decrement discarded, and has taken the first of the tick's slots. A read comes before
the tick: Fx07 with the last slot reads DT before the decrement. The tick of a read may be a latched one that comes due; a
pulse of the same clock is then lost (R282; log 13). That the clock is shared at all, and with which slot, is log 21's
reading (DEDUCED) of what R203 leaves to the implementation. -/
def Obligations.LoadWinsOverTheDecrementOfItsClock : Prop :=
  ∀ (s : State) (p : Pins) (rest : List HostStep) (w : Word) (x : Nibble), s.Plans (.clockExec true p) rest →
    p.rst = false → s.run = .running → s.ports.quitSync2 = false → ¬ s.ports.NewRequest → s.fetch = .ok w →
    (decodeWord s.cfg.legacyUnimplemented w = .ok (.ldDtVx x) → s.slots = 0 → p.tick = true → 0 < s.cfg.ipt →
      ∃ t, step s = .next t ∧ t.dt = s.reg x ∧ t.idle = s.agedIdle ∧ t.keys = s.agedKeys ∧ t.slots = s.cfg.ipt - 1 ∧
        t.pc = s.pc + 2 ∧ ChangesOnly (· ∈ [.dt, .idle, .keys, .slots, .pc, .ports, .plan]) s t) ∧
    (decodeWord s.cfg.legacyUnimplemented w = .ok (.ldVxDt x) → s.slots = 1 → s.pendingTick = true ∨ p.tick = true →
      ∃ t, step s = .next t ∧ t.reg x = s.dt ∧ GivesTick s t ∧ t.pc = s.pc + 2 ∧ t.pendingTick = false ∧
        ChangesOnly (· ∈ [.reg x, .dt, .idle, .keys, .slots, .pc, .pendingTick, .ports, .plan]) s t)

/-- R111, R112: an edge at which a Tick step and an instruction share a clock, with no quit seen, answers what whole steps
one after another answer, each taken where it is enabled. For a load of DT: Tick, Exec, and the edge without its pulse.
For every other instruction: Exec, Tick (which latches while slots are left, R282), and that edge; where a latched tick
comes due, Exec, that tick and the edge, a pulse of the same clock being lost (log 13). Log 21 (DEDUCED) says which
instructions share a clock with a tick. -/
def Obligations.OverlappedClockIsASerialOrder : Prop :=
  ∀ (s : State) (p : Pins) (rest : List HostStep) (w : Word) (i : Instr), s.Plans (.clockExec true p) rest →
    p.rst = false → s.run = .running → s.ports.quitSync2 = false → s.fetch = .ok w →
    decodeWord s.cfg.legacyUnimplemented w = .ok i →
    ((∃ x, i = .ldDtVx x) → s.slots = 0 → p.tick = true → 0 < s.cfg.ipt →
      step s = Sys2Proof.core.run 3 (s.withPlan (.tick :: .exec :: .clock { p with tick := false } :: rest))) ∧
    ((∀ x, i ≠ .ldDtVx x) → 0 < s.slots → s.pendingTick = false → p.tick = true →
      step s = Sys2Proof.core.run 3 (s.withPlan (.exec :: .tick :: .clock { p with tick := false } :: rest))) ∧
    ((∀ x, i ≠ .ldDtVx x) → 0 < s.slots → s.pendingTick = true →
      ∀ u, exec i (s.withPlan rest) = .next u → u.slotTaken.CanTick →
      step s = Sys2Proof.core.run 3 (s.withPlan (.exec :: .clock { p with tick := false } :: rest)))

/-- R251, R249, R225, R282: at an edge at which an instruction completes and no Tick step shares the clock, the instruction and
its slot come first, on the state before the edge. Then a quit that is seen ends the run, unless the instruction halted or
faulted; else a new key request is one Key step, which ends a wait the instruction began. A pulse finds a slot left and is
latched, a load of DT with the last slot among the instructions (log 21). The flip-flops move as at every edge (logs 11,
14). Where rst = 1, or no instruction can complete, the edge is a plain one. -/
def Obligations.EdgeCompletesTheInstructionFirst : Prop :=
  (∀ (s : State) (o : Bool) (p : Pins) (rest : List HostStep), s.Plans (.clockExec o p) rest →
    p.rst = true ∨ s.run ≠ .running ∨ (s.slots = 0 ∧ (o = false ∨ p.tick = false ∨
      ∀ w x, s.fetch = .ok w → decodeWord s.cfg.legacyUnimplemented w ≠ .ok (.ldDtVx x))) →
    step s = step (s.withPlan (.clock p :: rest))) ∧
  ∀ (s : State) (o : Bool) (p : Pins) (rest : List HostStep) (w : Word) (i : Instr), s.Plans (.clockExec o p) rest →
    p.rst = false → s.run = .running → 0 < s.slots → s.fetch = .ok w →
    decodeWord s.cfg.legacyUnimplemented w = .ok i → (o = true → (∃ x, i = .ldDtVx x) ∨ (p.tick = false ∧ s.pendingTick = false)) →
    ∃ u t, exec i (s.withPlan rest) = .next u ∧ step s = .next t ∧ t.pendingTick = (s.pendingTick || p.tick) ∧
      t.ports =
        { keySync1 := p.keyReq, keySync2 := s.ports.keySync1, keyAck := s.ports.keySync2,
          quitSync1 := p.quit, quitSync2 := s.ports.quitSync1 } ∧
      (s.ports.quitSync2 = true →
        t.run = (if u.run.terminal then u.run else .quit) ∧
        ChangesOnly (· ∈ [.run, .pendingTick, .ports]) u.slotTaken t) ∧
      (s.ports.quitSync2 = false → s.ports.NewRequest → u.run = .running →
        RecordsKey u.keys p.keyCode t ∧ ChangesOnly (· ∈ [.keys, .idle, .pendingTick, .ports]) u.slotTaken t) ∧
      (s.ports.quitSync2 = false → s.ports.NewRequest → u.run = .waitKey →
        RecordsKey u.keys p.keyCode t ∧ EndsWait u p.keyCode t ∧
        ChangesOnly (· ∈ [.reg u.wx, .pc, .run, .slots, .keys, .idle, .pendingTick, .ports]) u.slotTaken t) ∧
      (s.ports.quitSync2 = false → (¬ s.ports.NewRequest ∨ u.run.terminal = true) →
        ChangesOnly (· ∈ [.pendingTick, .ports]) u.slotTaken t)

/-- R41: the STATUS word, field by field. WX shows the register wx in every run state (log 10). -/
def Obligations.StatusWordHasItsLayout : Prop :=
  ∀ (s : State),
    s.status.toNat =
      (match s.run with
        | .load => 0 | .running => 1 | .waitKey => 2 | .halted => 3 | .faulted => 4 | .quit => 5)
      + 8 * (match s.fault.code with
        | .none => 0 | .invalidOpcode => 1 | .unimplementedOpcode => 2 | .memoryRange => 3 | .stackOverflow => 4
        | .keyIndexRange => 5 | .programLoad => 6)
      + 128 * (if s.loadErr then 1 else 0) + 256 * s.wx.toNat

/-- R50: bit 64*y + x of fb_out is fb[y][x]. -/
def Obligations.FramebufferOutputHasItsLayout : Prop :=
  ∀ (s : State) (x : Fin 64) (y : Fin 32), s.fbOut.getLsbD (64 * y.val + x.val) = s.fb.pixel x y

/-! ## Who writes what (spec/10_state.md R20–R40) -/

/-- R22: VF changes as a side effect of 8xy4, 8xy5 and Dxyn only; any other instruction that changes it names it as its
destination. -/
def Obligations.OnlyNamedInstructionsWriteVF : Prop :=
  ∀ (i : Instr) (s t : State), exec i s = .next t → t.reg 0xF ≠ s.reg 0xF →
    (∃ x y, i = .addReg x y) ∨ (∃ x y, i = .subReg x y) ∨ (∃ x y n, i = .drw x y n) ∨
    (∃ kk, i = .ldImm 0xF kk) ∨ (∃ kk, i = .addImm 0xF kk) ∨ (∃ y, i = .ldReg 0xF y) ∨ (∃ y, i = .orReg 0xF y) ∨
    (∃ y, i = .andReg 0xF y) ∨ (∃ y, i = .xorReg 0xF y) ∨ (∃ kk, i = .rnd 0xF kk) ∨ i = .ldVxDt 0xF ∨
    i = .loadRegs 0xF

/-- Each register and memory beside V is written by the instructions the spec names, and no instruction touches KEYS,
the idle counter, the load state or the ports (R24, R26, R27, R28, R32, R60, R225, R40). -/
def Obligations.EachUnitHasItsOwnWriters : Prop :=
  ∀ (i : Instr) (s t : State), exec i s = .next t →
    (t.i ≠ s.i → (∃ nnn, i = .ldI nnn) ∨ (∃ x, i = .addIVx x) ∨ ∃ x, i = .ldFVx x) ∧
    (t.stack ≠ s.stack → (∃ nnn, i = .call nnn) ∨ i = .ret) ∧
    (t.dt ≠ s.dt → ∃ x, i = .ldDtVx x) ∧ (t.st ≠ s.st → ∃ x, i = .ldStVx x) ∧
    (t.fb ≠ s.fb → i = .cls ∨ ∃ x y n, i = .drw x y n) ∧
    (t.mem ≠ s.mem → (∃ x, i = .ldBVx x) ∨ ∃ x, i = .storeRegs x) ∧
    t.keys = s.keys ∧ t.idle = s.idle ∧ t.ldCount = s.ldCount ∧ t.loadErr = s.loadErr ∧
    t.pendingTick = s.pendingTick ∧ t.ports = s.ports ∧ t.cfg = s.cfg ∧ t.host.steps = s.host.steps

/-! ## Encoding (spec/30_encoding.md) -/

/-- Decoding the word of an instruction the block has gives the instruction back, every operand at every value. -/
def Obligations.DecodingAnEncodedInstructionGivesItBack : Prop :=
  ∀ (legacy : Bool) (i : Instr), i.wellFormed legacy = true → decodeWord legacy (encode i) = .ok i

/-- A word that decodes is the word of the instruction it decodes to, which the block has: no bit of it is dropped, and
no two words are one instruction. That the instruction keeps the field n of 5xyn and 9xyn is log 18's choice. -/
def Obligations.EncodingADecodedWordGivesItBack : Prop :=
  ∀ (legacy : Bool) (w : Word) (i : Instr), decodeWord legacy w = .ok i → encode i = w ∧ i.wellFormed legacy = true

/-- R88: exactly these words are InvalidOpcode, and every word of the classes it names decodes to an instruction. -/
def Obligations.InvalidWordsAreTheListedOnes : Prop :=
  ∀ (legacy : Bool) (w : Word),
    (decodeWord legacy w = .error .invalidOpcode ↔
      (w.toNat / 4096 = 0 ∧ w.toNat ≠ 0x00E0 ∧ w.toNat ≠ 0x00EE) ∨
      (w.toNat / 4096 = 8 ∧ 6 ≤ w.toNat % 16) ∨
      (w.toNat / 4096 = 0xE ∧ w.toNat % 256 ∉ [0x9E, 0xA1]) ∨
      (w.toNat / 4096 = 0xF ∧ w.toNat % 256 ∉ [0x07, 0x0A, 0x15, 0x18, 0x1E, 0x29, 0x33, 0x55, 0x65])) ∧
    (w.toNat / 4096 ∈ [1, 2, 3, 4, 5, 6, 7, 9, 0xA, 0xB, 0xC, 0xD] → ∃ i, decodeWord legacy w = .ok i)

/-- R91: LEGACY_UNIMPLEMENTED makes exactly Ex9E, Fx0A and Fx1E UnimplementedOpcode and changes no other word; without
it no word is. -/
def Obligations.LegacyParameterRemovesThreeInstructions : Prop :=
  ∀ (w : Word),
    decodeWord false w ≠ .error .unimplementedOpcode ∧
    (decodeWord true w = .error .unimplementedOpcode ↔
      (w.toNat / 4096 = 0xE ∧ w.toNat % 256 = 0x9E) ∨ (w.toNat / 4096 = 0xF ∧ w.toNat % 256 ∈ [0x0A, 0x1E])) ∧
    (decodeWord true w ≠ .error .unimplementedOpcode → decodeWord true w = decodeWord false w)

/-- A few words written out from R85, one of each format, and two that are none. -/
def Obligations.WrittenOutWordsDecode : Prop :=
  decodeBytes false [0x00, 0xE0] = .ok (.cls, []) ∧ decodeBytes false [0x00, 0xEE] = .ok (.ret, []) ∧
  decodeBytes false [0x12, 0x34] = .ok (.jp 0x234, []) ∧ decodeBytes false [0x6A, 0x2B] = .ok (.ldImm 0xA 0x2B, []) ∧
  decodeBytes false [0x51, 0x2F] = .ok (.seReg 1 2 0xF, []) ∧ decodeBytes false [0x81, 0x24] = .ok (.addReg 1 2, []) ∧
  decodeBytes false [0xD1, 0x25] = .ok (.drw 1 2 5, []) ∧ decodeBytes false [0xE2, 0x9E] = .ok (.skp 2, []) ∧
  decodeBytes false [0xF1, 0x55] = .ok (.storeRegs 1, []) ∧
  decodeBytes false [0x80, 0x06] = .error .invalidOpcode ∧ decodeBytes true [0xF0, 0x0A] = .error .unimplementedOpcode

/-! ## The invariant -/

/-- Every step keeps the block in a legal state: parameters and memory in form, stack, idle, slots and load count in
their ranges (R20), keys released after IDLE_TICKS (R222), the fault record zero outside FAULTED and naming the stopped
PC in it (R241), load_err set in no run (R272). -/
def Obligations.EveryStepKeepsTheBlockLegal : Prop := ∀ (s t : State), s.Inv → step s = .next t → t.Inv

/-- The state right after reset is legal. -/
def Obligations.ResetStateIsLegal : Prop := State.reset.Inv

/-- What reset leaves, component by component: PC = 0x0200 (R25) and the spec's other reset values (R23, R24, R26–R28,
R30–R32, R34–R36, R38), memory the font and zeros (R65). The parameters are the defaults of R8, FONT being the table of
R64 (log 7); that the state is the one after release, and the synchronizers, the plan and the counts being empty, are the
model's choices (logs 1, 3, 4, 6, 8). -/
def Obligations.ResetStateHasTheResetValues : Prop :=
  AtResetValues State.reset State.reset [] ∧ State.reset.cfg.memSize = 4096 ∧ State.reset.cfg.stackDepth = 16 ∧
  State.reset.cfg.ipt = 1 ∧ State.reset.cfg.idleTicks = 60 ∧ State.reset.cfg.legacyUnimplemented = false ∧
  State.reset.cfg.font =
    [0xF0, 0x90, 0x90, 0x90, 0xF0] ++ [0x20, 0x60, 0x20, 0x20, 0x70] ++ [0xF0, 0x10, 0xF0, 0x80, 0xF0] ++
    [0xF0, 0x10, 0xF0, 0x10, 0xF0] ++ [0x90, 0x90, 0xF0, 0x10, 0x10] ++ [0xF0, 0x80, 0xF0, 0x10, 0xF0] ++
    [0xF0, 0x80, 0xF0, 0x90, 0xF0] ++ [0xF0, 0x10, 0x20, 0x40, 0x40] ++ [0xF0, 0x90, 0xF0, 0x90, 0xF0] ++
    [0xF0, 0x90, 0xF0, 0x10, 0xF0] ++ [0xF0, 0x90, 0xF0, 0x90, 0x90] ++ [0xE0, 0x90, 0xE0, 0x90, 0xE0] ++
    [0xF0, 0x80, 0x80, 0x80, 0xF0] ++ [0xE0, 0x90, 0x90, 0x90, 0xE0] ++ [0xF0, 0x80, 0xF0, 0x80, 0xF0] ++
    [0xF0, 0x80, 0xF0, 0x80, 0x80] ∧
  State.reset.run = .running ∧ State.reset.fault = FaultRecord.zero ∧ State.reset.loadErr = false
end

