-- ==== Sys2Proof/Laws/State.lean ====
section
/-! SUPPORT. What each named update of the state does to each field, and what the readers `reg` and `readByte` see of it:
one lemma per field per update, so that no later proof unfolds a record update. -/

namespace Sys2Proof.Machine

variable (s : State)

/-! ## `setReg` -/

@[simp] theorem State.setReg_cfg (r : Nibble) (b : Byte) : (s.setReg r b).cfg = s.cfg := rfl
@[simp] theorem State.setReg_v (r : Nibble) (b : Byte) : (s.setReg r b).v = s.v.set r.toNat b := rfl
@[simp] theorem State.setReg_i (r : Nibble) (b : Byte) : (s.setReg r b).i = s.i := rfl
@[simp] theorem State.setReg_pc (r : Nibble) (b : Byte) : (s.setReg r b).pc = s.pc := rfl
@[simp] theorem State.setReg_stack (r : Nibble) (b : Byte) : (s.setReg r b).stack = s.stack := rfl
@[simp] theorem State.setReg_dt (r : Nibble) (b : Byte) : (s.setReg r b).dt = s.dt := rfl
@[simp] theorem State.setReg_st (r : Nibble) (b : Byte) : (s.setReg r b).st = s.st := rfl
@[simp] theorem State.setReg_keys (r : Nibble) (b : Byte) : (s.setReg r b).keys = s.keys := rfl
@[simp] theorem State.setReg_idle (r : Nibble) (b : Byte) : (s.setReg r b).idle = s.idle := rfl
@[simp] theorem State.setReg_fb (r : Nibble) (b : Byte) : (s.setReg r b).fb = s.fb := rfl
@[simp] theorem State.setReg_mem (r : Nibble) (b : Byte) : (s.setReg r b).mem = s.mem := rfl
@[simp] theorem State.setReg_run (r : Nibble) (b : Byte) : (s.setReg r b).run = s.run := rfl
@[simp] theorem State.setReg_wx (r : Nibble) (b : Byte) : (s.setReg r b).wx = s.wx := rfl
@[simp] theorem State.setReg_slots (r : Nibble) (b : Byte) : (s.setReg r b).slots = s.slots := rfl
@[simp] theorem State.setReg_fault (r : Nibble) (b : Byte) : (s.setReg r b).fault = s.fault := rfl
@[simp] theorem State.setReg_ldCount (r : Nibble) (b : Byte) : (s.setReg r b).ldCount = s.ldCount := rfl
@[simp] theorem State.setReg_loadErr (r : Nibble) (b : Byte) : (s.setReg r b).loadErr = s.loadErr := rfl
@[simp] theorem State.setReg_pendingTick (r : Nibble) (b : Byte) : (s.setReg r b).pendingTick = s.pendingTick := rfl
@[simp] theorem State.setReg_ports (r : Nibble) (b : Byte) : (s.setReg r b).ports = s.ports := rfl
@[simp] theorem State.setReg_frames (r : Nibble) (b : Byte) : (s.setReg r b).frames = s.frames := rfl
@[simp] theorem State.setReg_host (r : Nibble) (b : Byte) : (s.setReg r b).host = s.host := rfl
@[simp] theorem State.setReg_readByte (r : Nibble) (b : Byte) (p : Nat) : (s.setReg r b).readByte p = s.readByte p := rfl

/-! ## `setIndex` -/

@[simp] theorem State.setIndex_cfg (w : Word) : (s.setIndex w).cfg = s.cfg := rfl
@[simp] theorem State.setIndex_v (w : Word) : (s.setIndex w).v = s.v := rfl
@[simp] theorem State.setIndex_i (w : Word) : (s.setIndex w).i = w := rfl
@[simp] theorem State.setIndex_pc (w : Word) : (s.setIndex w).pc = s.pc := rfl
@[simp] theorem State.setIndex_stack (w : Word) : (s.setIndex w).stack = s.stack := rfl
@[simp] theorem State.setIndex_dt (w : Word) : (s.setIndex w).dt = s.dt := rfl
@[simp] theorem State.setIndex_st (w : Word) : (s.setIndex w).st = s.st := rfl
@[simp] theorem State.setIndex_keys (w : Word) : (s.setIndex w).keys = s.keys := rfl
@[simp] theorem State.setIndex_idle (w : Word) : (s.setIndex w).idle = s.idle := rfl
@[simp] theorem State.setIndex_fb (w : Word) : (s.setIndex w).fb = s.fb := rfl
@[simp] theorem State.setIndex_mem (w : Word) : (s.setIndex w).mem = s.mem := rfl
@[simp] theorem State.setIndex_run (w : Word) : (s.setIndex w).run = s.run := rfl
@[simp] theorem State.setIndex_wx (w : Word) : (s.setIndex w).wx = s.wx := rfl
@[simp] theorem State.setIndex_slots (w : Word) : (s.setIndex w).slots = s.slots := rfl
@[simp] theorem State.setIndex_fault (w : Word) : (s.setIndex w).fault = s.fault := rfl
@[simp] theorem State.setIndex_ldCount (w : Word) : (s.setIndex w).ldCount = s.ldCount := rfl
@[simp] theorem State.setIndex_loadErr (w : Word) : (s.setIndex w).loadErr = s.loadErr := rfl
@[simp] theorem State.setIndex_pendingTick (w : Word) : (s.setIndex w).pendingTick = s.pendingTick := rfl
@[simp] theorem State.setIndex_ports (w : Word) : (s.setIndex w).ports = s.ports := rfl
@[simp] theorem State.setIndex_frames (w : Word) : (s.setIndex w).frames = s.frames := rfl
@[simp] theorem State.setIndex_host (w : Word) : (s.setIndex w).host = s.host := rfl
@[simp] theorem State.setIndex_reg (w : Word) (q : Nibble) : (s.setIndex w).reg q = s.reg q := rfl
@[simp] theorem State.setIndex_readByte (w : Word) (p : Nat) : (s.setIndex w).readByte p = s.readByte p := rfl

/-! ## `setPc` -/

@[simp] theorem State.setPc_cfg (w : Word) : (s.setPc w).cfg = s.cfg := rfl
@[simp] theorem State.setPc_v (w : Word) : (s.setPc w).v = s.v := rfl
@[simp] theorem State.setPc_i (w : Word) : (s.setPc w).i = s.i := rfl
@[simp] theorem State.setPc_pc (w : Word) : (s.setPc w).pc = w := rfl
@[simp] theorem State.setPc_stack (w : Word) : (s.setPc w).stack = s.stack := rfl
@[simp] theorem State.setPc_dt (w : Word) : (s.setPc w).dt = s.dt := rfl
@[simp] theorem State.setPc_st (w : Word) : (s.setPc w).st = s.st := rfl
@[simp] theorem State.setPc_keys (w : Word) : (s.setPc w).keys = s.keys := rfl
@[simp] theorem State.setPc_idle (w : Word) : (s.setPc w).idle = s.idle := rfl
@[simp] theorem State.setPc_fb (w : Word) : (s.setPc w).fb = s.fb := rfl
@[simp] theorem State.setPc_mem (w : Word) : (s.setPc w).mem = s.mem := rfl
@[simp] theorem State.setPc_run (w : Word) : (s.setPc w).run = s.run := rfl
@[simp] theorem State.setPc_wx (w : Word) : (s.setPc w).wx = s.wx := rfl
@[simp] theorem State.setPc_slots (w : Word) : (s.setPc w).slots = s.slots := rfl
@[simp] theorem State.setPc_fault (w : Word) : (s.setPc w).fault = s.fault := rfl
@[simp] theorem State.setPc_ldCount (w : Word) : (s.setPc w).ldCount = s.ldCount := rfl
@[simp] theorem State.setPc_loadErr (w : Word) : (s.setPc w).loadErr = s.loadErr := rfl
@[simp] theorem State.setPc_pendingTick (w : Word) : (s.setPc w).pendingTick = s.pendingTick := rfl
@[simp] theorem State.setPc_ports (w : Word) : (s.setPc w).ports = s.ports := rfl
@[simp] theorem State.setPc_frames (w : Word) : (s.setPc w).frames = s.frames := rfl
@[simp] theorem State.setPc_host (w : Word) : (s.setPc w).host = s.host := rfl
@[simp] theorem State.setPc_reg (w : Word) (q : Nibble) : (s.setPc w).reg q = s.reg q := rfl
@[simp] theorem State.setPc_readByte (w : Word) (p : Nat) : (s.setPc w).readByte p = s.readByte p := rfl

/-! ## `advance` -/

@[simp] theorem State.advance_cfg : (s.advance).cfg = s.cfg := rfl
@[simp] theorem State.advance_v : (s.advance).v = s.v := rfl
@[simp] theorem State.advance_i : (s.advance).i = s.i := rfl
@[simp] theorem State.advance_pc : (s.advance).pc = s.pc + 2 := rfl
@[simp] theorem State.advance_stack : (s.advance).stack = s.stack := rfl
@[simp] theorem State.advance_dt : (s.advance).dt = s.dt := rfl
@[simp] theorem State.advance_st : (s.advance).st = s.st := rfl
@[simp] theorem State.advance_keys : (s.advance).keys = s.keys := rfl
@[simp] theorem State.advance_idle : (s.advance).idle = s.idle := rfl
@[simp] theorem State.advance_fb : (s.advance).fb = s.fb := rfl
@[simp] theorem State.advance_mem : (s.advance).mem = s.mem := rfl
@[simp] theorem State.advance_run : (s.advance).run = s.run := rfl
@[simp] theorem State.advance_wx : (s.advance).wx = s.wx := rfl
@[simp] theorem State.advance_slots : (s.advance).slots = s.slots := rfl
@[simp] theorem State.advance_fault : (s.advance).fault = s.fault := rfl
@[simp] theorem State.advance_ldCount : (s.advance).ldCount = s.ldCount := rfl
@[simp] theorem State.advance_loadErr : (s.advance).loadErr = s.loadErr := rfl
@[simp] theorem State.advance_pendingTick : (s.advance).pendingTick = s.pendingTick := rfl
@[simp] theorem State.advance_ports : (s.advance).ports = s.ports := rfl
@[simp] theorem State.advance_frames : (s.advance).frames = s.frames := rfl
@[simp] theorem State.advance_host : (s.advance).host = s.host := rfl
@[simp] theorem State.advance_reg (q : Nibble) : (s.advance).reg q = s.reg q := rfl
@[simp] theorem State.advance_readByte (p : Nat) : (s.advance).readByte p = s.readByte p := rfl

/-! ## `push` -/

@[simp] theorem State.push_cfg (w : Word) : (s.push w).cfg = s.cfg := rfl
@[simp] theorem State.push_v (w : Word) : (s.push w).v = s.v := rfl
@[simp] theorem State.push_i (w : Word) : (s.push w).i = s.i := rfl
@[simp] theorem State.push_pc (w : Word) : (s.push w).pc = s.pc := rfl
@[simp] theorem State.push_stack (w : Word) : (s.push w).stack = w :: s.stack := rfl
@[simp] theorem State.push_dt (w : Word) : (s.push w).dt = s.dt := rfl
@[simp] theorem State.push_st (w : Word) : (s.push w).st = s.st := rfl
@[simp] theorem State.push_keys (w : Word) : (s.push w).keys = s.keys := rfl
@[simp] theorem State.push_idle (w : Word) : (s.push w).idle = s.idle := rfl
@[simp] theorem State.push_fb (w : Word) : (s.push w).fb = s.fb := rfl
@[simp] theorem State.push_mem (w : Word) : (s.push w).mem = s.mem := rfl
@[simp] theorem State.push_run (w : Word) : (s.push w).run = s.run := rfl
@[simp] theorem State.push_wx (w : Word) : (s.push w).wx = s.wx := rfl
@[simp] theorem State.push_slots (w : Word) : (s.push w).slots = s.slots := rfl
@[simp] theorem State.push_fault (w : Word) : (s.push w).fault = s.fault := rfl
@[simp] theorem State.push_ldCount (w : Word) : (s.push w).ldCount = s.ldCount := rfl
@[simp] theorem State.push_loadErr (w : Word) : (s.push w).loadErr = s.loadErr := rfl
@[simp] theorem State.push_pendingTick (w : Word) : (s.push w).pendingTick = s.pendingTick := rfl
@[simp] theorem State.push_ports (w : Word) : (s.push w).ports = s.ports := rfl
@[simp] theorem State.push_frames (w : Word) : (s.push w).frames = s.frames := rfl
@[simp] theorem State.push_host (w : Word) : (s.push w).host = s.host := rfl
@[simp] theorem State.push_reg (w : Word) (q : Nibble) : (s.push w).reg q = s.reg q := rfl
@[simp] theorem State.push_readByte (w : Word) (p : Nat) : (s.push w).readByte p = s.readByte p := rfl

/-! ## `writeByte` -/

@[simp] theorem State.writeByte_cfg (a : Nat) (x : Byte) : (s.writeByte a x).cfg = s.cfg := rfl
@[simp] theorem State.writeByte_v (a : Nat) (x : Byte) : (s.writeByte a x).v = s.v := rfl
@[simp] theorem State.writeByte_i (a : Nat) (x : Byte) : (s.writeByte a x).i = s.i := rfl
@[simp] theorem State.writeByte_pc (a : Nat) (x : Byte) : (s.writeByte a x).pc = s.pc := rfl
@[simp] theorem State.writeByte_stack (a : Nat) (x : Byte) : (s.writeByte a x).stack = s.stack := rfl
@[simp] theorem State.writeByte_dt (a : Nat) (x : Byte) : (s.writeByte a x).dt = s.dt := rfl
@[simp] theorem State.writeByte_st (a : Nat) (x : Byte) : (s.writeByte a x).st = s.st := rfl
@[simp] theorem State.writeByte_keys (a : Nat) (x : Byte) : (s.writeByte a x).keys = s.keys := rfl
@[simp] theorem State.writeByte_idle (a : Nat) (x : Byte) : (s.writeByte a x).idle = s.idle := rfl
@[simp] theorem State.writeByte_fb (a : Nat) (x : Byte) : (s.writeByte a x).fb = s.fb := rfl
@[simp] theorem State.writeByte_mem (a : Nat) (x : Byte) : (s.writeByte a x).mem = Memory.write s.cfg s.mem a x := rfl
@[simp] theorem State.writeByte_run (a : Nat) (x : Byte) : (s.writeByte a x).run = s.run := rfl
@[simp] theorem State.writeByte_wx (a : Nat) (x : Byte) : (s.writeByte a x).wx = s.wx := rfl
@[simp] theorem State.writeByte_slots (a : Nat) (x : Byte) : (s.writeByte a x).slots = s.slots := rfl
@[simp] theorem State.writeByte_fault (a : Nat) (x : Byte) : (s.writeByte a x).fault = s.fault := rfl
@[simp] theorem State.writeByte_ldCount (a : Nat) (x : Byte) : (s.writeByte a x).ldCount = s.ldCount := rfl
@[simp] theorem State.writeByte_loadErr (a : Nat) (x : Byte) : (s.writeByte a x).loadErr = s.loadErr := rfl
@[simp] theorem State.writeByte_pendingTick (a : Nat) (x : Byte) : (s.writeByte a x).pendingTick = s.pendingTick := rfl
@[simp] theorem State.writeByte_ports (a : Nat) (x : Byte) : (s.writeByte a x).ports = s.ports := rfl
@[simp] theorem State.writeByte_frames (a : Nat) (x : Byte) : (s.writeByte a x).frames = s.frames := rfl
@[simp] theorem State.writeByte_host (a : Nat) (x : Byte) : (s.writeByte a x).host = s.host := rfl
@[simp] theorem State.writeByte_reg (a : Nat) (x : Byte) (q : Nibble) : (s.writeByte a x).reg q = s.reg q := rfl

/-! ## `raise` -/

@[simp] theorem State.raise_cfg (c : FaultCode) (w : Word) (a : Nat) : (s.raise c w a).cfg = s.cfg := rfl
@[simp] theorem State.raise_v (c : FaultCode) (w : Word) (a : Nat) : (s.raise c w a).v = s.v := rfl
@[simp] theorem State.raise_i (c : FaultCode) (w : Word) (a : Nat) : (s.raise c w a).i = s.i := rfl
@[simp] theorem State.raise_pc (c : FaultCode) (w : Word) (a : Nat) : (s.raise c w a).pc = s.pc := rfl
@[simp] theorem State.raise_stack (c : FaultCode) (w : Word) (a : Nat) : (s.raise c w a).stack = s.stack := rfl
@[simp] theorem State.raise_dt (c : FaultCode) (w : Word) (a : Nat) : (s.raise c w a).dt = s.dt := rfl
@[simp] theorem State.raise_st (c : FaultCode) (w : Word) (a : Nat) : (s.raise c w a).st = s.st := rfl
@[simp] theorem State.raise_keys (c : FaultCode) (w : Word) (a : Nat) : (s.raise c w a).keys = s.keys := rfl
@[simp] theorem State.raise_idle (c : FaultCode) (w : Word) (a : Nat) : (s.raise c w a).idle = s.idle := rfl
@[simp] theorem State.raise_fb (c : FaultCode) (w : Word) (a : Nat) : (s.raise c w a).fb = s.fb := rfl
@[simp] theorem State.raise_mem (c : FaultCode) (w : Word) (a : Nat) : (s.raise c w a).mem = s.mem := rfl
@[simp] theorem State.raise_run (c : FaultCode) (w : Word) (a : Nat) : (s.raise c w a).run = .faulted := rfl
@[simp] theorem State.raise_wx (c : FaultCode) (w : Word) (a : Nat) : (s.raise c w a).wx = s.wx := rfl
@[simp] theorem State.raise_slots (c : FaultCode) (w : Word) (a : Nat) : (s.raise c w a).slots = s.slots := rfl
@[simp] theorem State.raise_fault (c : FaultCode) (w : Word) (a : Nat) : (s.raise c w a).fault = { code := c, pc := s.pc, word := w, addr := BitVec.ofNat 17 a } := rfl
@[simp] theorem State.raise_ldCount (c : FaultCode) (w : Word) (a : Nat) : (s.raise c w a).ldCount = s.ldCount := rfl
@[simp] theorem State.raise_loadErr (c : FaultCode) (w : Word) (a : Nat) : (s.raise c w a).loadErr = s.loadErr := rfl
@[simp] theorem State.raise_pendingTick (c : FaultCode) (w : Word) (a : Nat) : (s.raise c w a).pendingTick = s.pendingTick := rfl
@[simp] theorem State.raise_ports (c : FaultCode) (w : Word) (a : Nat) : (s.raise c w a).ports = s.ports := rfl
@[simp] theorem State.raise_frames (c : FaultCode) (w : Word) (a : Nat) : (s.raise c w a).frames = s.frames := rfl
@[simp] theorem State.raise_host (c : FaultCode) (w : Word) (a : Nat) : (s.raise c w a).host = s.host := rfl
@[simp] theorem State.raise_reg (c : FaultCode) (w : Word) (a : Nat) (q : Nibble) : (s.raise c w a).reg q = s.reg q := rfl
@[simp] theorem State.raise_readByte (c : FaultCode) (w : Word) (a : Nat) (p : Nat) : (s.raise c w a).readByte p = s.readByte p := rfl

/-! ## `halt` -/

@[simp] theorem State.halt_cfg (r : RunState) : (s.halt r).cfg = s.cfg := rfl
@[simp] theorem State.halt_v (r : RunState) : (s.halt r).v = s.v := rfl
@[simp] theorem State.halt_i (r : RunState) : (s.halt r).i = s.i := rfl
@[simp] theorem State.halt_pc (r : RunState) : (s.halt r).pc = s.pc := rfl
@[simp] theorem State.halt_stack (r : RunState) : (s.halt r).stack = s.stack := rfl
@[simp] theorem State.halt_dt (r : RunState) : (s.halt r).dt = s.dt := rfl
@[simp] theorem State.halt_st (r : RunState) : (s.halt r).st = s.st := rfl
@[simp] theorem State.halt_keys (r : RunState) : (s.halt r).keys = s.keys := rfl
@[simp] theorem State.halt_idle (r : RunState) : (s.halt r).idle = s.idle := rfl
@[simp] theorem State.halt_fb (r : RunState) : (s.halt r).fb = s.fb := rfl
@[simp] theorem State.halt_mem (r : RunState) : (s.halt r).mem = s.mem := rfl
@[simp] theorem State.halt_run (r : RunState) : (s.halt r).run = r := rfl
@[simp] theorem State.halt_wx (r : RunState) : (s.halt r).wx = s.wx := rfl
@[simp] theorem State.halt_slots (r : RunState) : (s.halt r).slots = s.slots := rfl
@[simp] theorem State.halt_fault (r : RunState) : (s.halt r).fault = s.fault := rfl
@[simp] theorem State.halt_ldCount (r : RunState) : (s.halt r).ldCount = s.ldCount := rfl
@[simp] theorem State.halt_loadErr (r : RunState) : (s.halt r).loadErr = s.loadErr := rfl
@[simp] theorem State.halt_pendingTick (r : RunState) : (s.halt r).pendingTick = s.pendingTick := rfl
@[simp] theorem State.halt_ports (r : RunState) : (s.halt r).ports = s.ports := rfl
@[simp] theorem State.halt_frames (r : RunState) : (s.halt r).frames = s.frames := rfl
@[simp] theorem State.halt_host (r : RunState) : (s.halt r).host = s.host := rfl
@[simp] theorem State.halt_reg (r : RunState) (q : Nibble) : (s.halt r).reg q = s.reg q := rfl
@[simp] theorem State.halt_readByte (r : RunState) (p : Nat) : (s.halt r).readByte p = s.readByte p := rfl

/-! ## `timerLoad` -/

@[simp] theorem State.timerLoad_cfg (b : Byte) : (s.timerLoad b).cfg = s.cfg := rfl
@[simp] theorem State.timerLoad_v (b : Byte) : (s.timerLoad b).v = s.v := rfl
@[simp] theorem State.timerLoad_i (b : Byte) : (s.timerLoad b).i = s.i := rfl
@[simp] theorem State.timerLoad_pc (b : Byte) : (s.timerLoad b).pc = s.pc := rfl
@[simp] theorem State.timerLoad_stack (b : Byte) : (s.timerLoad b).stack = s.stack := rfl
@[simp] theorem State.timerLoad_dt (b : Byte) : (s.timerLoad b).dt = b := rfl
@[simp] theorem State.timerLoad_st (b : Byte) : (s.timerLoad b).st = s.st := rfl
@[simp] theorem State.timerLoad_keys (b : Byte) : (s.timerLoad b).keys = s.keys := rfl
@[simp] theorem State.timerLoad_idle (b : Byte) : (s.timerLoad b).idle = s.idle := rfl
@[simp] theorem State.timerLoad_fb (b : Byte) : (s.timerLoad b).fb = s.fb := rfl
@[simp] theorem State.timerLoad_mem (b : Byte) : (s.timerLoad b).mem = s.mem := rfl
@[simp] theorem State.timerLoad_run (b : Byte) : (s.timerLoad b).run = s.run := rfl
@[simp] theorem State.timerLoad_wx (b : Byte) : (s.timerLoad b).wx = s.wx := rfl
@[simp] theorem State.timerLoad_slots (b : Byte) : (s.timerLoad b).slots = s.slots := rfl
@[simp] theorem State.timerLoad_fault (b : Byte) : (s.timerLoad b).fault = s.fault := rfl
@[simp] theorem State.timerLoad_ldCount (b : Byte) : (s.timerLoad b).ldCount = s.ldCount := rfl
@[simp] theorem State.timerLoad_loadErr (b : Byte) : (s.timerLoad b).loadErr = s.loadErr := rfl
@[simp] theorem State.timerLoad_pendingTick (b : Byte) : (s.timerLoad b).pendingTick = s.pendingTick := rfl
@[simp] theorem State.timerLoad_ports (b : Byte) : (s.timerLoad b).ports = s.ports := rfl
@[simp] theorem State.timerLoad_frames (b : Byte) : (s.timerLoad b).frames = s.frames := rfl
@[simp] theorem State.timerLoad_host (b : Byte) : (s.timerLoad b).host = s.host := rfl
@[simp] theorem State.timerLoad_reg (b : Byte) (q : Nibble) : (s.timerLoad b).reg q = s.reg q := rfl
@[simp] theorem State.timerLoad_readByte (b : Byte) (p : Nat) : (s.timerLoad b).readByte p = s.readByte p := rfl

/-! ## `emitFrame` -/

@[simp] theorem State.emitFrame_cfg : (s.emitFrame).cfg = s.cfg := rfl
@[simp] theorem State.emitFrame_v : (s.emitFrame).v = s.v := rfl
@[simp] theorem State.emitFrame_i : (s.emitFrame).i = s.i := rfl
@[simp] theorem State.emitFrame_pc : (s.emitFrame).pc = s.pc := rfl
@[simp] theorem State.emitFrame_stack : (s.emitFrame).stack = s.stack := rfl
@[simp] theorem State.emitFrame_dt : (s.emitFrame).dt = s.dt := rfl
@[simp] theorem State.emitFrame_st : (s.emitFrame).st = s.st := rfl
@[simp] theorem State.emitFrame_keys : (s.emitFrame).keys = s.keys := rfl
@[simp] theorem State.emitFrame_idle : (s.emitFrame).idle = s.idle := rfl
@[simp] theorem State.emitFrame_fb : (s.emitFrame).fb = s.fb := rfl
@[simp] theorem State.emitFrame_mem : (s.emitFrame).mem = s.mem := rfl
@[simp] theorem State.emitFrame_run : (s.emitFrame).run = s.run := rfl
@[simp] theorem State.emitFrame_wx : (s.emitFrame).wx = s.wx := rfl
@[simp] theorem State.emitFrame_slots : (s.emitFrame).slots = s.slots := rfl
@[simp] theorem State.emitFrame_fault : (s.emitFrame).fault = s.fault := rfl
@[simp] theorem State.emitFrame_ldCount : (s.emitFrame).ldCount = s.ldCount := rfl
@[simp] theorem State.emitFrame_loadErr : (s.emitFrame).loadErr = s.loadErr := rfl
@[simp] theorem State.emitFrame_pendingTick : (s.emitFrame).pendingTick = s.pendingTick := rfl
@[simp] theorem State.emitFrame_ports : (s.emitFrame).ports = s.ports := rfl
@[simp] theorem State.emitFrame_frames : (s.emitFrame).frames = s.frames + 1 := rfl
@[simp] theorem State.emitFrame_host : (s.emitFrame).host = s.host := rfl
@[simp] theorem State.emitFrame_reg (q : Nibble) : (s.emitFrame).reg q = s.reg q := rfl
@[simp] theorem State.emitFrame_readByte (p : Nat) : (s.emitFrame).readByte p = s.readByte p := rfl

/-! ## `consumeRnd` -/

@[simp] theorem State.consumeRnd_cfg : (s.consumeRnd).cfg = s.cfg := rfl
@[simp] theorem State.consumeRnd_v : (s.consumeRnd).v = s.v := rfl
@[simp] theorem State.consumeRnd_i : (s.consumeRnd).i = s.i := rfl
@[simp] theorem State.consumeRnd_pc : (s.consumeRnd).pc = s.pc := rfl
@[simp] theorem State.consumeRnd_stack : (s.consumeRnd).stack = s.stack := rfl
@[simp] theorem State.consumeRnd_dt : (s.consumeRnd).dt = s.dt := rfl
@[simp] theorem State.consumeRnd_st : (s.consumeRnd).st = s.st := rfl
@[simp] theorem State.consumeRnd_keys : (s.consumeRnd).keys = s.keys := rfl
@[simp] theorem State.consumeRnd_idle : (s.consumeRnd).idle = s.idle := rfl
@[simp] theorem State.consumeRnd_fb : (s.consumeRnd).fb = s.fb := rfl
@[simp] theorem State.consumeRnd_mem : (s.consumeRnd).mem = s.mem := rfl
@[simp] theorem State.consumeRnd_run : (s.consumeRnd).run = s.run := rfl
@[simp] theorem State.consumeRnd_wx : (s.consumeRnd).wx = s.wx := rfl
@[simp] theorem State.consumeRnd_slots : (s.consumeRnd).slots = s.slots := rfl
@[simp] theorem State.consumeRnd_fault : (s.consumeRnd).fault = s.fault := rfl
@[simp] theorem State.consumeRnd_ldCount : (s.consumeRnd).ldCount = s.ldCount := rfl
@[simp] theorem State.consumeRnd_loadErr : (s.consumeRnd).loadErr = s.loadErr := rfl
@[simp] theorem State.consumeRnd_pendingTick : (s.consumeRnd).pendingTick = s.pendingTick := rfl
@[simp] theorem State.consumeRnd_ports : (s.consumeRnd).ports = s.ports := rfl
@[simp] theorem State.consumeRnd_frames : (s.consumeRnd).frames = s.frames := rfl
@[simp] theorem State.consumeRnd_host : (s.consumeRnd).host = { s.host with rnd := s.host.rnd.tail, draws := s.host.draws + 1 } := rfl
@[simp] theorem State.consumeRnd_reg (q : Nibble) : (s.consumeRnd).reg q = s.reg q := rfl
@[simp] theorem State.consumeRnd_readByte (p : Nat) : (s.consumeRnd).readByte p = s.readByte p := rfl

/-! ## `reg` after `setReg` -/

/-- A register write gives the written register its value and leaves the others (R21: no aliases). -/
theorem State.setReg_reg (r q : Nibble) (b : Byte) : (s.setReg r b).reg q = if q = r then b else s.reg q := by
  by_cases h : q = r
  · subst h; simp [State.reg]
  · have hn : r.toNat ≠ q.toNat := fun e => h (BitVec.eq_of_toNat_eq e.symm)
    simp [State.reg, Vector.getElem_set_ne _ _ hn, h]

@[simp] theorem State.setReg_reg_same (r : Nibble) (b : Byte) : (s.setReg r b).reg r = b := by
  simp [State.setReg_reg]

theorem State.setReg_reg_ne (r q : Nibble) (b : Byte) (h : q ≠ r) : (s.setReg r b).reg q = s.reg q := by
  simp [State.setReg_reg, h]

/-- Two states with the same registers read by `reg` hold the same vector. -/
theorem State.v_ext (t : State) (h : ∀ q, t.reg q = s.reg q) : t.v = s.v := by
  apply Vector.ext
  intro k hk
  have := h (BitVec.ofNat 4 k)
  simpa [State.reg, Nat.mod_eq_of_lt hk] using this

/-! ## `skipIf` -/

@[simp] theorem State.skipIf_pc (c : Bool) : (s.skipIf c).pc = if c then s.pc + 4 else s.pc + 2 := by
  cases c <;> rfl

/-- A skip changes the program counter and nothing else. -/
theorem State.skipIf_eq (c : Bool) : s.skipIf c = s.setPc (if c then s.pc + 4 else s.pc + 2) := by
  cases c <;> rfl

/-- A register result with its flag: the flag wins where the destination is VF (R150). -/
theorem State.setRegThenFlag_reg (x q : Nibble) (a f : Byte) :
    (s.setRegThenFlag x a f).reg q = if q = vf then f else if q = x then a else s.reg q := by
  simp [State.setRegThenFlag, State.setReg_reg]

end Sys2Proof.Machine
end

