-- ==== Sys2Proof/Laws/Memory.lean ====
section
/-! SUPPORT. Memory: a read after a write, and that a write keeps the canonical form. -/

namespace Sys2Proof.Machine

theorem Memory.read_place (c : Config) (a p : Nat) (x : Byte) (rest : Memory)
    (h : Memory.read c rest a = initialByte c a) :
    Memory.read c (Memory.place c a x rest) p = if p = a then x else Memory.read c rest p := by
  unfold Memory.place
  split
  · next hx =>
    split
    · next hp => rw [hp, h, hx]
    · rfl
  · simp [Memory.read]

/-- Below every listed address a memory reads as its reset contents. -/
theorem Memory.read_below (c : Config) (m : Memory) (low a : Nat) (hw : Memory.wfFrom c low m = true) (ha : a < low) :
    Memory.read c m a = initialByte c a := by
  induction m generalizing low with
  | nil => rfl
  | cons e rest ih =>
    obtain ⟨b, y⟩ := e
    simp only [Memory.wfFrom, Bool.and_eq_true, decide_eq_true_eq] at hw
    obtain ⟨⟨⟨hlb, -⟩, -⟩, hrest⟩ := hw
    have hab : a ≠ b := by omega
    simp only [Memory.read, if_neg hab]
    exact ih (b + 1) hrest (by omega)

theorem Memory.wfFrom_weaken (c : Config) (m : Memory) (low low' : Nat) (h : low' ≤ low)
    (hw : Memory.wfFrom c low m = true) : Memory.wfFrom c low' m = true := by
  cases m with
  | nil => rfl
  | cons e rest =>
    obtain ⟨b, y⟩ := e
    simp only [Memory.wfFrom, Bool.and_eq_true, decide_eq_true_eq] at hw ⊢
    exact ⟨⟨⟨by omega, hw.1.1.2⟩, hw.1.2⟩, hw.2⟩

/-- A read after a write gives the written byte at its address and what was there at every other. -/
theorem Memory.read_write (c : Config) (m : Memory) (low a p : Nat) (x : Byte) (hw : Memory.wfFrom c low m = true) :
    Memory.read c (Memory.write c m a x) p = if p = a then x else Memory.read c m p := by
  induction m generalizing low with
  | nil => exact Memory.read_place c a p x [] rfl
  | cons e rest ih =>
    obtain ⟨b, y⟩ := e
    have hw' := hw
    simp only [Memory.wfFrom, Bool.and_eq_true, decide_eq_true_eq] at hw
    obtain ⟨⟨⟨hlb, -⟩, -⟩, hrest⟩ := hw
    unfold Memory.write
    split
    · next hab =>
      refine Memory.read_place c a p x _ ?_
      have : a ≠ b := by omega
      simp only [Memory.read, if_neg this]
      exact Memory.read_below c rest (b + 1) a hrest (by omega)
    · split
      · next hab =>
        subst hab
        rw [Memory.read_place c a p x rest (Memory.read_below c rest (a + 1) a hrest (by omega))]
        by_cases hp : p = a <;> simp [Memory.read, hp]
      · next hab =>
        simp only [Memory.read]
        rw [ih (b + 1) hrest]
        by_cases hpb : p = b
        · subst hpb; simp; intro h; exact absurd h.symm hab
        · simp [hpb]

/-- Placing a byte below a canonical memory keeps the form. -/
theorem Memory.place_wf (c : Config) (low a : Nat) (x : Byte) (rest : Memory) (hla : low ≤ a) (ha : a < c.memSize)
    (hr : Memory.wfFrom c (a + 1) rest = true) : Memory.wfFrom c low (Memory.place c a x rest) = true := by
  unfold Memory.place
  split
  · exact Memory.wfFrom_weaken c rest (a + 1) low (by omega) hr
  · next hx => simp [Memory.wfFrom, hla, ha, hx, hr]

/-- A write inside `MEM_SIZE` keeps the canonical form. -/
theorem Memory.write_wfFrom (c : Config) (m : Memory) (low a : Nat) (x : Byte) (hla : low ≤ a) (ha : a < c.memSize)
    (hw : Memory.wfFrom c low m = true) : Memory.wfFrom c low (Memory.write c m a x) = true := by
  induction m generalizing low with
  | nil => exact Memory.place_wf c low a x [] hla ha rfl
  | cons e rest ih =>
    obtain ⟨b, y⟩ := e
    have hw' := hw
    simp only [Memory.wfFrom, Bool.and_eq_true, decide_eq_true_eq] at hw
    obtain ⟨⟨⟨hlb, hbm⟩, hby⟩, hrest⟩ := hw
    unfold Memory.write
    split
    · next hab =>
      refine Memory.place_wf c low a x _ hla ha ?_
      simp only [Memory.wfFrom, Bool.and_eq_true, decide_eq_true_eq]
      exact ⟨⟨⟨by omega, hbm⟩, hby⟩, hrest⟩
    · split
      · next hab => subst hab; exact Memory.place_wf c low a x rest hla ha hrest
      · next hnlt hne =>
        simp only [Memory.wfFrom, Bool.and_eq_true, decide_eq_true_eq]
        exact ⟨⟨⟨hlb, hbm⟩, hby⟩, ih (b + 1) (by omega) hrest⟩

/-- Every memory operation keeps the canonical form (the only operation that changes memory is a write). -/
theorem Memory.write_wf (c : Config) (m : Memory) (a : Nat) (x : Byte) (ha : a < c.memSize)
    (hw : Memory.wf c m = true) : Memory.wf c (Memory.write c m a x) = true :=
  Memory.write_wfFrom c m 0 a x (Nat.zero_le a) ha hw

/-- Canonical memories that read the same are equal lists. -/
theorem Memory.ext_from (c : Config) (m m' : Memory) (low : Nat) (hw : Memory.wfFrom c low m = true)
    (hw' : Memory.wfFrom c low m' = true) (h : ∀ a, Memory.read c m a = Memory.read c m' a) : m = m' := by
  induction m generalizing low m' with
  | nil =>
    cases m' with
    | nil => rfl
    | cons e rest =>
      obtain ⟨b, y⟩ := e
      simp only [Memory.wfFrom, Bool.and_eq_true, decide_eq_true_eq] at hw'
      have := h b
      simp only [Memory.read, if_true] at this
      exact absurd this.symm hw'.1.2
  | cons e rest ih =>
    obtain ⟨b, y⟩ := e
    have hw0 := hw
    simp only [Memory.wfFrom, Bool.and_eq_true, decide_eq_true_eq] at hw
    obtain ⟨⟨⟨hlb, -⟩, hby⟩, hrest⟩ := hw
    cases m' with
    | nil =>
      have := h b
      simp only [Memory.read, if_true] at this
      exact absurd this hby
    | cons e' rest' =>
      obtain ⟨b', y'⟩ := e'
      have hw0' := hw'
      simp only [Memory.wfFrom, Bool.and_eq_true, decide_eq_true_eq] at hw'
      obtain ⟨⟨⟨hlb', -⟩, hby'⟩, hrest'⟩ := hw'
      have hbb : b = b' := by
        rcases Nat.lt_trichotomy b b' with hlt | heq | hgt
        · have hb := h b
          simp only [Memory.read, if_neg (Nat.ne_of_lt hlt)] at hb
          rw [Memory.read_below c rest' (b' + 1) b hrest' (by omega)] at hb
          exact absurd hb hby
        · exact heq
        · have hb := h b'
          simp only [Memory.read, if_neg (Nat.ne_of_lt hgt)] at hb
          rw [Memory.read_below c rest (b + 1) b' hrest (by omega)] at hb
          exact absurd hb.symm hby'
      subst hbb
      have hyy : y = y' := by simpa [Memory.read] using h b
      subst hyy
      congr 1
      refine ih rest' (b + 1) hrest hrest' fun a => ?_
      by_cases hab : a = b
      · subst hab
        rw [Memory.read_below c rest (a + 1) a hrest (by omega), Memory.read_below c rest' (a + 1) a hrest' (by omega)]
      · simpa [Memory.read, hab] using h a

/-- Equal contents are equal data. -/
theorem Memory.ext (c : Config) (m m' : Memory) (hw : Memory.wf c m = true) (hw' : Memory.wf c m' = true)
    (h : ∀ a, Memory.read c m a = Memory.read c m' a) : m = m' := Memory.ext_from c m m' 0 hw hw' h

/-- Reading one byte after a store of one byte. -/
theorem State.writeByte_readByte (s : State) (a p : Nat) (x : Byte) (hw : Memory.wf s.cfg s.mem = true) :
    (s.writeByte a x).readByte p = if p = a then x else s.readByte p :=
  Memory.read_write s.cfg s.mem 0 a p x hw

end Sys2Proof.Machine
end

