-- ==== Sys2Proof/Laws/Agents.lean ====
section
/-! SUPPORT. What the steps that are no instruction can do: each as one equation or one list of the fields it writes. -/

namespace Sys2Proof.Machine

/-! ## Tick (R106, R201, R222) -/

theorem State.tickEnabled_iff (s : State) :
    s.tickEnabled = true ↔ (s.run = .running ∧ s.slots = 0) ∨ s.run = .waitKey := by
  simp [State.tickEnabled]

/-- A tick writes DT, the idle counter, KEYS and the slots, and these only. -/
theorem State.tickStep_eq (s : State) :
    ∃ dt, dt.toNat = s.dt.toNat - 1 ∧
      s.tickStep =
        { s with
          dt := dt
          idle := if s.idle < s.cfg.idleTicks then s.idle + 1 else s.idle
          keys := if (if s.idle < s.cfg.idleTicks then s.idle + 1 else s.idle) = s.cfg.idleTicks then 0 else s.keys
          slots := s.cfg.ipt } := by
  unfold State.tickStep State.timerTick
  split
  · next h => exact ⟨s.dt, by simp [h], rfl⟩
  · next h =>
    refine ⟨s.dt - 1, ?_, rfl⟩
    have h1 : s.dt.toNat ≠ 0 := fun e => h (BitVec.eq_of_toNat_eq e)
    have := s.dt.isLt
    simp; omega

/-- A pulse is a Tick step, a latched pulse, or nothing. -/
theorem State.tickPulse_cases (s : State) :
    (s.tickEnabled = true ∧ s.tickPulse = s.tickStep) ∨
    (s.run = .running ∧ 0 < s.slots ∧ s.tickPulse = { s with pendingTick := true }) ∨
    (s.run ≠ .running ∧ s.run ≠ .waitKey ∧ s.tickPulse = s) := by
  unfold State.tickPulse
  by_cases he : s.tickEnabled = true
  · exact .inl ⟨he, if_pos he⟩
  · have h := fun e => he (s.tickEnabled_iff.2 e)
    by_cases hr : s.run = .running
    · refine .inr (.inl ⟨hr, Nat.pos_of_ne_zero fun e => h (.inl ⟨hr, e⟩), ?_⟩)
      rw [if_neg he, if_pos hr]
    · refine .inr (.inr ⟨hr, fun e => h (.inr e), ?_⟩)
      rw [if_neg he, if_neg hr]

/-! ## Key events (R221, R230) -/

/-- A key event sets its own flag and no other. -/
theorem keys_set_getLsbD (keys : BitVec 16) (k j : Nibble) :
    (keys ||| (1#16 <<< k.toNat)).getLsbD j.toNat = (keys.getLsbD j.toNat || decide (j = k)) := by
  have hj := j.isLt
  have hk := k.isLt
  rw [BitVec.getLsbD_or]
  congr 1
  by_cases h : j = k
  · subst h; simp; omega
  · have : j.toNat ≠ k.toNat := fun e => h (BitVec.eq_of_toNat_eq e)
    simp [h]; omega

/-- A key event is taken while running, ends a wait, and is lost elsewhere (R226). -/
theorem State.keyStep_cases (k : Nibble) (s : State) :
    (s.run = .running ∧ s.keyStep k = { s with keys := s.keys ||| (1#16 <<< k.toNat), idle := 0 }) ∨
    (s.run = .waitKey ∧
      s.keyStep k =
        { s with
          keys := s.keys ||| (1#16 <<< k.toNat)
          idle := 0
          v := s.v.set s.wx.toNat (k.setWidth 8)
          pc := s.pc + 2
          run := .running
          slots := 0 }) ∨
    (s.run ≠ .running ∧ s.run ≠ .waitKey ∧ s.keyStep k = s) := by
  by_cases h1 : s.run = .running
  · have e : s.keyStep k = s.keyEvent k := by simp [State.keyStep, h1]
    exact .inl ⟨h1, e⟩
  · by_cases h2 : s.run = .waitKey
    · have e : s.keyStep k = (s.keyEvent k).completeWait k := by simp [State.keyStep, h2]
      exact .inr (.inl ⟨h2, e⟩)
    · exact .inr (.inr ⟨h1, h2, by cases h : s.run <;> simp_all [State.keyStep]⟩)

/-! ## Quit (R109) -/

theorem State.quitStep_cases (s : State) :
    ((s.run = .running ∨ s.run = .waitKey) ∧ s.quitStep = { s with run := .quit }) ∨
    (s.run ≠ .running ∧ s.run ≠ .waitKey ∧ s.quitStep = s) := by
  by_cases h1 : s.run = .running ∨ s.run = .waitKey
  · have e : s.quitStep = s.halt .quit := by rcases h1 with h | h <;> simp [State.quitStep, h]
    exact .inl ⟨h1, e⟩
  · rw [not_or] at h1
    exact .inr ⟨h1.1, h1.2, by cases h : s.run <;> simp_all [State.quitStep]⟩

/-! ## The handshake (R224) -/

/-- One edge of the handshake: the acknowledge follows the synchronized request, and a request that is new is one Key
step. -/
theorem State.handshake_eq (p : Pins) (s : State) :
    s.handshake p =
      (let t := if s.ports.keySync2 && !s.ports.keyAck then s.keyStep p.keyCode else s
       { t with ports := { t.ports with keyAck := s.ports.keySync2 } }) := by
  have hk : (s.keyStep p.keyCode).ports = s.ports := by
    rcases s.keyStep_cases p.keyCode with ⟨-, e⟩ | ⟨-, e⟩ | ⟨-, -, e⟩ <;> rw [e]
  obtain ⟨cfg, v, i, pc, stack, dt, st, keys, idle, fb, mem, run, wx, slots, fault, ldc, lde, pt,
    ⟨k1, k2, ack, q1, q2⟩, frames, host⟩ := s
  cases k2 <;> cases ack <;> simp [State.handshake, hk]

/-! ## One clock edge (R45–R48, R251) -/

/-- Outside a reset period an edge with `rst` low does nothing here. -/
theorem State.resetPins_low (s : State) (p : Pins) (h : p.rst = false) (hr : s.run ≠ .load) : s.resetPins p = s := by
  simp [State.resetPins, h, hr]

@[simp] theorem State.tickPin_low (s : State) (p : Pins) (h : p.tick = false) : s.tickPin p = s := by
  simp [State.tickPin, h]

@[simp] theorem State.tickPin_high (s : State) (p : Pins) (h : p.tick = true) : s.tickPin p = s.tickPulse := by
  simp [State.tickPin, h]

@[simp] theorem State.quitPin_low (s : State) (h : s.ports.quitSync2 = false) : s.quitPin = s := by
  simp [State.quitPin, h]

@[simp] theorem State.quitPin_high (s : State) (h : s.ports.quitSync2 = true) : s.quitPin = s.quitStep := by
  simp [State.quitPin, h]

/-- No part of an edge but the handshake and the synchronizers writes the port flip-flops or the plan. -/
theorem State.resetPins_ports (s : State) (p : Pins) :
    (s.resetPins p).ports = s.ports ∧ (s.resetPins p).host = s.host := by
  unfold State.resetPins State.assertReset State.acceptByte State.release
  (repeat' split) <;> exact ⟨rfl, rfl⟩

theorem State.tickPin_ports (s : State) (p : Pins) :
    (s.tickPin p).ports = s.ports ∧ (s.tickPin p).host = s.host := by
  unfold State.tickPin
  split
  · obtain ⟨dt, -, e⟩ := s.tickStep_eq
    rcases s.tickPulse_cases with ⟨-, h⟩ | ⟨-, -, h⟩ | ⟨-, -, h⟩ <;> rw [h]
    · rw [e]; exact ⟨rfl, rfl⟩
    · exact ⟨rfl, rfl⟩
    · exact ⟨rfl, rfl⟩
  · exact ⟨rfl, rfl⟩

theorem State.quitPin_ports (s : State) : s.quitPin.ports = s.ports ∧ s.quitPin.host = s.host := by
  unfold State.quitPin
  split
  · rcases s.quitStep_cases with ⟨-, h⟩ | ⟨-, -, h⟩ <;> rw [h] <;> exact ⟨rfl, rfl⟩
  · exact ⟨rfl, rfl⟩

theorem State.keyStep_ports (k : Nibble) (s : State) :
    (s.keyStep k).ports = s.ports ∧ (s.keyStep k).host = s.host := by
  rcases s.keyStep_cases k with ⟨-, h⟩ | ⟨-, h⟩ | ⟨-, -, h⟩ <;> rw [h] <;> exact ⟨rfl, rfl⟩

/-- The end of an edge as one equation: quit, a Key step on a new request, and the port flip-flops moved on. -/
theorem State.quitAndKey_eq (s : State) (p : Pins) :
    s.quitAndKey p =
      { (if s.ports.keySync2 && !s.ports.keyAck then s.quitPin.keyStep p.keyCode else s.quitPin) with
        ports :=
          { keySync1 := p.keyReq, keySync2 := s.ports.keySync1, keyAck := s.ports.keySync2,
            quitSync1 := p.quit, quitSync2 := s.ports.quitSync1 } } := by
  have hp := (State.quitPin_ports s).1
  have hk := (State.keyStep_ports p.keyCode s.quitPin).1
  unfold State.quitAndKey State.shiftSync
  rw [State.handshake_eq, hp]
  split <;> simp [hp, hk]

/-- An edge as one equation: what reset, tick and quit leave, a Key step on a new request, and the port flip-flops moved
on. -/
theorem State.clockEdge_eq (s : State) (p : Pins) :
    s.clockEdge p =
      { (if s.ports.keySync2 && !s.ports.keyAck then ((s.resetPins p).tickPin p).quitPin.keyStep p.keyCode
          else ((s.resetPins p).tickPin p).quitPin) with
        ports :=
          { keySync1 := p.keyReq, keySync2 := s.ports.keySync1, keyAck := s.ports.keySync2,
            quitSync1 := p.quit, quitSync2 := s.ports.quitSync1 } } := by
  rw [State.clockEdge, State.quitAndKey_eq, (State.tickPin_ports _ _).1, (State.resetPins_ports _ _).1]

/-! ## The plan -/

/-- Quit is due at a step boundary exactly where it is seen, the run goes on, and the plan names no edge or reset next
(R249). -/
theorem State.quitDue_iff (s : State) :
    s.quitDue = true ↔
      s.ports.quitSync2 = true ∧ (s.run = .running ∨ s.run = .waitKey) ∧
        ∀ e rest, s.host.steps = e :: rest → e.ordersQuit = false := by
  unfold State.quitDue
  cases s.host.steps <;> simp [and_assoc]

/-- Where no quit is seen none is due. -/
theorem State.quitDue_of_low (s : State) (h : s.ports.quitSync2 = false) : s.quitDue = false := by
  simp [State.quitDue, h]

/-- Quit is due before no edge and no reset. -/
theorem State.quitDue_of_edge (s : State) (e : HostStep) (rest : List HostStep) (h : s.host.steps = e :: rest)
    (he : e.ordersQuit = true) : s.quitDue = false := by
  simp [State.quitDue, h, he]

/-- A quit that is due, and that no latched tick precedes, is the next step. -/
theorem step_of_quitDue (s : State) (hl : s.latchedTickDue = false) (hq : s.quitDue = true) :
    step s = .next { s with run := .quit } := by
  have h := ((s.quitDue_iff).1 hq).2.1
  rcases s.quitStep_cases with ⟨-, e⟩ | ⟨h1, h2, -⟩
  · simp [step, State.oneStep, hl, hq, e]
  · exact absurd h (not_or.2 ⟨h1, h2⟩)

/-- A planned step that no latched tick and no quit precedes is the next step. -/
theorem step_of_plans (s : State) (e : HostStep) (rest : List HostStep) (h : s.host.steps = e :: rest)
    (hl : s.latchedTickDue = false) (hq : s.quitDue = false) : step s = (s.withPlan rest).hostStep e := by
  simp [step, State.oneStep, h, hl, hq]

/-- With nothing planned, no latched tick due and no quit, the block takes its own step. -/
theorem step_of_no_plan (s : State) (h : s.host.steps = []) (hl : s.latchedTickDue = false)
    (hq : s.quitDue = false) : step s = s.ownStep := by
  simp [step, State.oneStep, h, hl, hq]

/-! ## One step -/

/-- Every instruction answers a next state. -/
theorem exec_answers (i : Instr) (s : State) : ∃ t, exec i s = .next t := by
  cases i with
  | ret => simp only [exec, execRet]; split <;> exact ⟨_, rfl⟩
  | call nnn => simp only [exec, execCall]; split <;> exact ⟨_, rfl⟩
  | skp x => simp only [exec, execSkp]; split <;> exact ⟨_, rfl⟩
  | sknp x => simp only [exec, execSknp]; split <;> exact ⟨_, rfl⟩
  | _ => exact ⟨_, rfl⟩

/-- What one Exec step can do: a fault of fetch or decode, or the decoded instruction and the slot it takes. -/
theorem State.execInstr_cases (s : State) :
    (∃ code w addr, code ≠ .none ∧ s.execInstr = .next (s.raise code w addr)) ∨
    (∃ i t, exec i s = .next t ∧ s.execInstr = .next t.retire) := by
  unfold State.execInstr
  cases hf : s.fetch with
  | error a => exact .inl ⟨_, _, _, by decide, rfl⟩
  | ok w =>
    cases hd : decodeWord s.cfg.legacyUnimplemented w with
    | error e => exact .inl ⟨decodeFault e, w, 0, by cases e <;> decide, by simp [hd]⟩
    | ok i =>
      obtain ⟨t, ht⟩ := exec_answers i s
      exact .inr ⟨i, t, ht, by simp [hd, ht, mapNext]⟩

/-- Every Exec step answers a next state. -/
theorem State.execInstr_answers (s : State) : ∃ t, s.execInstr = .next t := by
  rcases s.execInstr_cases with ⟨_, _, _, -, e⟩ | ⟨_, _, -, e⟩ <;> exact ⟨_, e⟩

/-- A pulse beside an enabled Exec step finds a slot left: it is latched (R282). -/
theorem State.tickPin_latches (s : State) (p : Pins) (h : s.execEnabled = true) :
    s.tickPin p = { s with pendingTick := s.pendingTick || p.tick } := by
  obtain ⟨hr, hs⟩ : s.run = .running ∧ 0 < s.slots := by simpa [State.execEnabled] using h
  cases hp : p.tick
  · simp [hp]
  · rw [State.tickPin_high s p hp]
    rcases s.tickPulse_cases with ⟨e, -⟩ | ⟨-, -, e⟩ | ⟨e, -, -⟩
    · rcases s.tickEnabled_iff.1 e with ⟨-, e⟩ | e
      · omega
      · simp [hr] at e
    · simpa using e
    · exact absurd hr e

/-- An edge at which an instruction completes is a plain edge; the Exec step, then the tick beside it; or the tick input,
latched or taken, then the Exec step. Quit and key follow (R251). -/
theorem State.clockExec_cases (s : State) (o : Bool) (p : Pins) :
    ((p.rst = true ∨ s.execEnabled = false ∧ ((o && s.loadsTimer && (s.tickPin p).execEnabled) = false)) ∧
      s.clockExec o p = .next (s.clockEdge p)) ∨
    (p.rst = false ∧ s.execEnabled = true ∧ o = true ∧ s.loadsTimer = false ∧ ∃ t, s.execInstr = .next t ∧
      s.clockExec o p = .next ((t.tickBeside p).quitAndKey p)) ∨
    (p.rst = false ∧ (o = false ∨ s.loadsTimer = true) ∧ (s.tickPin p).execEnabled = true ∧
      ∃ t, (s.tickPin p).execInstr = .next t ∧ s.clockExec o p = .next (t.quitAndKey p)) := by
  obtain ⟨t, ht⟩ := s.execInstr_answers
  obtain ⟨u, hu⟩ := (s.tickPin p).execInstr_answers
  cases h1 : p.rst
  · cases h2 : s.execEnabled
    · cases h3 : (o && s.loadsTimer && (s.tickPin p).execEnabled)
      · exact .inl ⟨.inr ⟨rfl, rfl⟩, by simp [State.clockExec, h1, h2, h3]⟩
      · have h4 := h3
        simp only [Bool.and_eq_true] at h4
        exact .inr (.inr ⟨rfl, .inr h4.1.2, h4.2, u, hu, by simp [State.clockExec, h1, h2, h4, hu, mapNext]⟩)
    · have h3 : (s.tickPin p).execEnabled = true := by
        rw [s.tickPin_latches p h2]; exact h2
      cases o
      · exact .inr (.inr ⟨rfl, .inl rfl, h3, u, hu, by simp [State.clockExec, h1, h2, hu, mapNext]⟩)
      · cases h4 : s.loadsTimer
        · exact .inr (.inl ⟨rfl, rfl, rfl, rfl, t, ht, by simp [State.clockExec, h1, h2, h4, ht, mapNext]⟩)
        · exact .inr (.inr ⟨rfl, .inr rfl, h3, u, hu, by simp [State.clockExec, h1, h2, h4, hu, mapNext]⟩)
  · exact .inl ⟨.inl rfl, by simp [State.clockExec, h1]⟩

/-- One Tick step beside a completed instruction: of a latched pulse, of a pulse of this clock, or of both, the second
being lost (R282). -/
theorem State.tickBeside_once (t : State) (p : Pins) (h : t.tickEnabled = true)
    (hp : t.pendingTick = true ∨ p.tick = true) :
    t.tickBeside p = ({ t with pendingTick := false } : State).tickStep := by
  cases ht : t.pendingTick
  · have hp : p.tick = true := by simpa [ht] using hp
    have e : ({ t with pendingTick := false } : State) = t := by
      rw [← ht]
    rw [e]
    simp [State.tickBeside, State.latchedTickDue, State.tickPulse, ht, hp, h]
  · simp [State.tickBeside, State.latchedTickDue, State.latchedTick, ht, h]

/-- What a step can do: every case answers a next state. -/
theorem step_cases (s : State) :
    (s.latchedTickDue = true ∧ step s = .next s.latchedTick) ∨
    (s.quitDue = true ∧ step s = .next s.quitStep) ∨
    (∃ u, (u = s ∨ ∃ rest, u = s.withPlan rest) ∧
      ((u.execEnabled = true ∧ step s = u.execInstr) ∨ step s = .next u ∨
        (u.tickEnabled = true ∧ step s = .next u.tickStep) ∨ step s = .next u.tickPulse ∨
        (∃ k, step s = .next (u.keyStep k)) ∨ step s = .next u.quitStep ∨
        (∃ img, step s = .next (u.resetStep img)) ∨ (∃ p, step s = .next (u.clockEdge p)) ∨
        (∃ p t, u.execEnabled = true ∧ u.execInstr = .next t ∧ step s = .next ((t.tickBeside p).quitAndKey p)) ∨
        ∃ p t, (u.tickPin p).execEnabled = true ∧ (u.tickPin p).execInstr = .next t ∧
          step s = .next (t.quitAndKey p))) := by
  by_cases hl : s.latchedTickDue = true
  · exact .inl ⟨hl, by simp [step, State.oneStep, hl]⟩
  by_cases hq : s.quitDue = true
  · exact .inr (.inl ⟨hq, by simp [step, State.oneStep, hl, hq]⟩)
  rw [Bool.not_eq_true] at hl hq
  cases hp : s.host.steps with
  | nil =>
    refine .inr (.inr ⟨s, .inl rfl, ?_⟩)
    rw [step_of_no_plan s hp hl hq]
    unfold State.ownStep
    by_cases he : s.execEnabled = true
    · exact .inl ⟨he, if_pos he⟩
    · rw [if_neg he]
      by_cases ht : s.tickEnabled = true
      · exact .inr (.inr (.inl ⟨ht, if_pos ht⟩))
      · exact .inr (.inl (if_neg ht))
  | cons e rest =>
    refine .inr (.inr ⟨s.withPlan rest, .inr ⟨rest, rfl⟩, ?_⟩)
    rw [step_of_plans s e rest hp hl hq]
    cases e with
    | exec =>
      by_cases he : (s.withPlan rest).execEnabled = true
      · exact .inl ⟨he, by simp [State.hostStep, State.execStep, he]⟩
      · exact .inr (.inl (by simp [State.hostStep, State.execStep, he]))
    | tick => exact .inr (.inr (.inr (.inl rfl)))
    | key k => exact .inr (.inr (.inr (.inr (.inl ⟨k, rfl⟩))))
    | quit => exact .inr (.inr (.inr (.inr (.inr (.inl rfl)))))
    | reset img => exact .inr (.inr (.inr (.inr (.inr (.inr (.inl ⟨img, rfl⟩))))))
    | clock p => exact .inr (.inr (.inr (.inr (.inr (.inr (.inr (.inl ⟨p, rfl⟩)))))))
    | clockExec o p =>
      rcases (s.withPlan rest).clockExec_cases o p with ⟨-, e⟩ | ⟨-, he, -, -, t, ht, e⟩ | ⟨-, -, he, t, ht, e⟩
      · exact .inr (.inr (.inr (.inr (.inr (.inr (.inr (.inl ⟨p, e⟩)))))))
      · exact .inr (.inr (.inr (.inr (.inr (.inr (.inr (.inr (.inl ⟨p, t, he, ht, e⟩))))))))
      · exact .inr (.inr (.inr (.inr (.inr (.inr (.inr (.inr (.inr ⟨p, t, he, ht, e⟩))))))))

end Sys2Proof.Machine
end

