-- ==== Sys2Proof/Laws/Display.lean ====
section
/-! SUPPORT. The compositor pixel by pixel: what one sprite pixel, one row and a whole blit do to the framebuffer
(spec/44_display.md R182–R186). -/

namespace Sys2Proof.Machine

/-- XORing one pixel changes that pixel by `p` and no other. -/
theorem Framebuffer.pixel_xorPixel (fb : Framebuffer) (x x' : Fin 64) (y y' : Fin 32) (p : Bool) :
    (fb.xorPixel x y p).pixel x' y' = ((fb.pixel x' y') ^^ (decide (x' = x ∧ y' = y) && p)) := by
  by_cases hy : y' = y
  · subst hy
    simp only [Framebuffer.pixel, Framebuffer.xorPixel, Vector.getElem_set_self, BitVec.getLsbD_xor]
    congr 1
    by_cases hx : x' = x
    · subst hx; simp
    · have : x'.val ≠ x.val := fun h => hx (Fin.ext h)
      simp only [BitVec.getLsbD_shiftLeft, BitVec.getLsbD_setWidth, BitVec.getLsbD_ofBool, hx, false_and, decide_false,
        Bool.false_and]
      have : (x'.val - x.val ≠ 0) ∨ x'.val < x.val := by omega
      rcases this with h | h <;> simp [h]
  · have hne : y.val ≠ y'.val := fun h => hy (Fin.ext h.symm)
    simp [Framebuffer.pixel, Framebuffer.xorPixel, Vector.getElem_set_ne _ _ hne, hy]

@[simp] theorem Framebuffer.pixel_clear (x : Fin 64) (y : Fin 32) : Framebuffer.clear.pixel x y = false := by
  simp [Framebuffer.pixel, Framebuffer.clear]

/-- Framebuffers with the same pixels are equal. -/
theorem Framebuffer.ext (fb fb' : Framebuffer) (h : ∀ x y, fb.pixel x y = fb'.pixel x y) : fb = fb' := by
  apply Vector.ext
  intro y hy
  apply BitVec.eq_of_getLsbD_eq
  intro x hx
  exact h ⟨x, hx⟩ ⟨y, hy⟩

/-! ## One row -/

/-- The first `k` pixels of a row. -/
def blitCols (xs : Byte) (cy : Fin 32) (row : Byte) (k : Nat) (t : Blit) : Blit :=
  (List.range k).foldl (fun u b => blitPixel (spriteColumn xs b) cy (row.getLsbD (7 - b)) u) t

theorem blitCols_succ (xs : Byte) (cy : Fin 32) (row : Byte) (k : Nat) (t : Blit) :
    blitCols xs cy row (k + 1) t =
      blitPixel (spriteColumn xs k) cy (row.getLsbD (7 - k)) (blitCols xs cy row k t) := by
  simp [blitCols, List.range_succ]

/-- Eight columns in a row are all different, since 8 < 64 (R186). -/
theorem spriteColumn_inj (xs : Byte) (b b' : Nat) (hb : b < 64) (hb' : b' < 64)
    (h : spriteColumn xs b = spriteColumn xs b') : b = b' := by
  have := congrArg Fin.val h
  simp only [spriteColumn, Fin.val_ofNat] at this
  omega

/-- Rows less than 32 apart are different (R186). -/
theorem spriteRow_inj (ys : Byte) (r r' : Nat) (hr : r < r' + 32) (hr' : r' < r + 32)
    (h : spriteRow ys r = spriteRow ys r') : r = r' := by
  have := congrArg Fin.val h
  simp only [spriteRow, Fin.val_ofNat] at this
  omega

/-- What the first `k ≤ 8` pixels of a row do: each column they reach is XORed with its bit, every other pixel stays,
and a collision is one of those bits on a set pixel. -/
theorem blitCols_spec (xs : Byte) (cy : Fin 32) (row : Byte) (t : Blit) (k : Nat) (hk : k ≤ 8) :
    (∀ b, b < k → (blitCols xs cy row k t).fb.pixel (spriteColumn xs b) cy =
      (t.fb.pixel (spriteColumn xs b) cy ^^ row.getLsbD (7 - b))) ∧
    (∀ x y, (y ≠ cy ∨ ∀ b, b < k → spriteColumn xs b ≠ x) →
      (blitCols xs cy row k t).fb.pixel x y = t.fb.pixel x y) ∧
    ((blitCols xs cy row k t).coll = true ↔
      t.coll = true ∨ ∃ b, b < k ∧ t.fb.pixel (spriteColumn xs b) cy = true ∧ row.getLsbD (7 - b) = true) := by
  induction k with
  | zero => simp [blitCols]
  | succ k ih =>
    obtain ⟨hin, hout, hcoll⟩ := ih (by omega)
    rw [blitCols_succ]
    have hfresh : (blitCols xs cy row k t).fb.pixel (spriteColumn xs k) cy = t.fb.pixel (spriteColumn xs k) cy :=
      hout _ _ (.inr fun b hb h => absurd (spriteColumn_inj xs b k (by omega) (by omega) h) (by omega))
    refine ⟨fun b hb => ?_, fun x y hxy => ?_, ?_⟩
    · rw [blitPixel, Framebuffer.pixel_xorPixel]
      by_cases hbk : b = k
      · subst hbk; simp [hfresh]
      · have hne : spriteColumn xs b ≠ spriteColumn xs k := fun h =>
          hbk (spriteColumn_inj xs b k (by omega) (by omega) h)
        rw [hin b (by omega)]
        simp [hne]
    · rw [blitPixel, Framebuffer.pixel_xorPixel]
      have hne : ¬ (x = spriteColumn xs k ∧ y = cy) := by
        rintro ⟨rfl, rfl⟩
        rcases hxy with h | h
        · exact h rfl
        · exact h k (by omega) rfl
      rw [hout x y (hxy.imp_right fun h b hb => h b (by omega))]
      simp [hne]
    · rw [blitPixel]
      simp only [Bool.or_eq_true, Bool.and_eq_true, hcoll, hfresh]
      constructor
      · rintro ((h | ⟨b, hb, hp⟩) | hp)
        · exact .inl h
        · exact .inr ⟨b, by omega, hp⟩
        · exact .inr ⟨k, by omega, hp⟩
      · rintro (h | ⟨b, hb, hp⟩)
        · exact .inl (.inl h)
        · by_cases hbk : b = k
          · subst hbk; exact .inr hp
          · exact .inl (.inr ⟨b, by omega, hp⟩)

/-! ## The whole sprite -/

/-- The sprite rows from row `r` on, at most 32 rows in all: every pixel the sprite covers is XORed with its bit, every
other stays, and a collision is a set sprite bit on a set pixel (R182–R184). -/
theorem blitRows_spec (xs ys : Byte) (rows : List Byte) (r : Nat) (t : Blit) (hlen : rows.length ≤ 32) :
    (∀ j b, j < rows.length → b < 8 →
      (blitRows xs ys r rows t).fb.pixel (spriteColumn xs b) (spriteRow ys (r + j)) =
        (t.fb.pixel (spriteColumn xs b) (spriteRow ys (r + j)) ^^ (rows.getD j 0).getLsbD (7 - b))) ∧
    (∀ x y, (∀ j b, j < rows.length → b < 8 → ¬ (spriteColumn xs b = x ∧ spriteRow ys (r + j) = y)) →
      (blitRows xs ys r rows t).fb.pixel x y = t.fb.pixel x y) ∧
    ((blitRows xs ys r rows t).coll = true ↔
      t.coll = true ∨ ∃ j b, j < rows.length ∧ b < 8 ∧
        t.fb.pixel (spriteColumn xs b) (spriteRow ys (r + j)) = true ∧ (rows.getD j 0).getLsbD (7 - b) = true) := by
  induction rows generalizing r t with
  | nil => simp [blitRows]
  | cons row rest ih =>
    simp only [List.length_cons] at hlen
    obtain ⟨hin1, hout1, hcoll1⟩ := blitCols_spec xs (spriteRow ys r) row t 8 (Nat.le_refl 8)
    obtain ⟨hin, hout, hcoll⟩ := ih (r + 1) (blitRow xs (spriteRow ys r) row t) (by omega)
    have hrow : ∀ u, blitRow xs (spriteRow ys r) row u = blitCols xs (spriteRow ys r) row 8 u := fun _ => rfl
    simp only [blitRows]
    rw [hrow] at hin hout hcoll ⊢
    have hsep : ∀ j, j < rest.length → spriteRow ys (r + 1 + j) ≠ spriteRow ys r := fun j hj h => by
      have := spriteRow_inj ys _ _ (by omega) (by omega) h
      omega
    refine ⟨fun j b hj hb => ?_, fun x y hxy => ?_, ?_⟩
    · cases j with
      | zero =>
        simp only [Nat.add_zero, List.getD_cons_zero]
        rw [hout _ _ fun j b' hj' _ h => hsep j hj' h.2, hin1 b hb]
      | succ j =>
        simp only [List.length_cons] at hj
        have hj' : j < rest.length := by omega
        have := hin j b hj' hb
        rw [hout1 _ _ (.inl (hsep j hj'))] at this
        simpa [Nat.add_assoc, Nat.add_comm 1 j] using this
    · rw [hout x y fun j b hj hb h => hxy (j + 1) b (by simp; omega) hb
        ⟨h.1, by rw [← h.2]; congr 1; omega⟩]
      refine hout1 x y ?_
      by_cases hy : y = spriteRow ys r
      · exact .inr fun b hb h => hxy 0 b (by simp) hb ⟨h, by simp [hy]⟩
      · exact .inl hy
    · rw [hcoll, hcoll1]
      constructor
      · rintro ((h | ⟨b, hb, hp, hq⟩) | ⟨j, b, hj, hb, hp, hq⟩)
        · exact .inl h
        · exact .inr ⟨0, b, by simp, hb, by simpa using hp, by simpa using hq⟩
        · rw [hout1 _ _ (.inl (hsep j hj))] at hp
          refine .inr ⟨j + 1, b, by simp; omega, hb, ?_, by simpa using hq⟩
          rw [← hp]; congr 2; omega
      · rintro (h | ⟨j, b, hj, hb, hp, hq⟩)
        · exact .inl (.inl h)
        · cases j with
          | zero => exact .inl (.inr ⟨b, hb, by simpa using hp, by simpa using hq⟩)
          | succ j =>
            simp only [List.length_cons] at hj
            have hj' : j < rest.length := by omega
            refine .inr ⟨j, b, hj', hb, ?_, by simpa using hq⟩
            rw [hout1 _ _ (.inl (hsep j hj')), ← hp]; congr 2; omega

end Sys2Proof.Machine
end

