-- ==== Sys2Proof/Laws/Encoding.lean ====
section
/-! SUPPORT. The fields of the three word formats (spec/30_encoding.md R81, R82), and a word from its bytes. -/

namespace Sys2Proof

@[simp] theorem fieldC_formatNnn (c : Nibble) (nnn : Addr12) : fieldC (formatNnn c nnn) = c := by
  apply BitVec.eq_of_getLsbD_eq
  intro i hi
  interval_cases i <;>
    simp only [fieldC, formatNnn, BitVec.getLsbD_extractLsb', BitVec.getLsbD_append] <;> simp
@[simp] theorem fieldNnn_formatNnn (c : Nibble) (nnn : Addr12) : fieldNnn (formatNnn c nnn) = nnn := by
  apply BitVec.eq_of_getLsbD_eq
  intro i hi
  interval_cases i <;>
    simp only [fieldNnn, formatNnn, BitVec.getLsbD_extractLsb', BitVec.getLsbD_append] <;> simp

@[simp] theorem fieldC_formatXkk (c x : Nibble) (kk : Byte) : fieldC (formatXkk c x kk) = c := by
  apply BitVec.eq_of_getLsbD_eq
  intro i hi
  interval_cases i <;>
    simp only [fieldC, formatXkk, BitVec.getLsbD_extractLsb', BitVec.getLsbD_append] <;> simp
@[simp] theorem fieldX_formatXkk (c x : Nibble) (kk : Byte) : fieldX (formatXkk c x kk) = x := by
  apply BitVec.eq_of_getLsbD_eq
  intro i hi
  interval_cases i <;>
    simp only [fieldX, formatXkk, BitVec.getLsbD_extractLsb', BitVec.getLsbD_append] <;> simp
@[simp] theorem fieldKk_formatXkk (c x : Nibble) (kk : Byte) : fieldKk (formatXkk c x kk) = kk := by
  apply BitVec.eq_of_getLsbD_eq
  intro i hi
  interval_cases i <;>
    simp only [fieldKk, formatXkk, BitVec.getLsbD_extractLsb', BitVec.getLsbD_append] <;> simp

@[simp] theorem fieldC_formatXyn (c x y n : Nibble) : fieldC (formatXyn c x y n) = c := by
  apply BitVec.eq_of_getLsbD_eq
  intro i hi
  interval_cases i <;>
    simp only [fieldC, formatXyn, BitVec.getLsbD_extractLsb', BitVec.getLsbD_append] <;> simp
@[simp] theorem fieldX_formatXyn (c x y n : Nibble) : fieldX (formatXyn c x y n) = x := by
  apply BitVec.eq_of_getLsbD_eq
  intro i hi
  interval_cases i <;>
    simp only [fieldX, formatXyn, BitVec.getLsbD_extractLsb', BitVec.getLsbD_append] <;> simp
@[simp] theorem fieldY_formatXyn (c x y n : Nibble) : fieldY (formatXyn c x y n) = y := by
  apply BitVec.eq_of_getLsbD_eq
  intro i hi
  interval_cases i <;>
    simp only [fieldY, formatXyn, BitVec.getLsbD_extractLsb', BitVec.getLsbD_append] <;> simp
@[simp] theorem fieldN_formatXyn (c x y n : Nibble) : fieldN (formatXyn c x y n) = n := by
  apply BitVec.eq_of_getLsbD_eq
  intro i hi
  interval_cases i <;>
    simp only [fieldN, formatXyn, BitVec.getLsbD_extractLsb', BitVec.getLsbD_append] <;> simp

/-- A word is its class and `nnn` (R82). -/
theorem formatNnn_fields (w : Word) : formatNnn (fieldC w) (fieldNnn w) = w := by
  apply BitVec.eq_of_getLsbD_eq
  intro i hi
  interval_cases i <;>
    simp only [fieldC, fieldNnn, formatNnn, BitVec.getLsbD_extractLsb', BitVec.getLsbD_append] <;> simp

/-- A word is its class, `x` and `kk` (R82). -/
theorem formatXkk_fields (w : Word) : formatXkk (fieldC w) (fieldX w) (fieldKk w) = w := by
  apply BitVec.eq_of_getLsbD_eq
  intro i hi
  interval_cases i <;>
    simp only [fieldC, fieldX, fieldKk, formatXkk, BitVec.getLsbD_extractLsb', BitVec.getLsbD_append] <;> simp

/-- A word is its four nibbles (R82). -/
theorem formatXyn_fields (w : Word) : formatXyn (fieldC w) (fieldX w) (fieldY w) (fieldN w) = w := by
  apply BitVec.eq_of_getLsbD_eq
  intro i hi
  interval_cases i <;>
    simp only [fieldC, fieldX, fieldY, fieldN, formatXyn, BitVec.getLsbD_extractLsb', BitVec.getLsbD_append] <;> simp

/-- The two bytes of a word make the word again (R67). -/
@[simp] theorem wordOfBytes_bytes (w : Word) : wordOfBytes (highByte w) (lowByte w) = w := by
  apply BitVec.eq_of_getLsbD_eq
  intro i hi
  interval_cases i <;>
    simp only [wordOfBytes, highByte, lowByte, BitVec.getLsbD_extractLsb', BitVec.getLsbD_append] <;> simp

end Sys2Proof
end

