-- ==== Sys2Proof/Laws/Ops.lean ====
section
/-! SUPPORT. What each shared operation over ranges of memory can do: the range check, a store of several bytes, a load
of several registers, and the fetch. -/

namespace Sys2Proof.Machine

variable (s : State)

theorem State.dataAddr_eq (k : Nat) : s.dataAddr k = s.i.toNat + k := rfl

/-! ## The range check (R166) -/

/-- The check passes exactly when every byte of the range exists. -/
theorem State.rangeFault_eq_none (count : Nat) :
    s.rangeFault count = none ↔ count = 0 ∨ s.i.toNat + count ≤ s.cfg.memSize := by
  unfold State.rangeFault
  split <;> simp <;> omega

/-- Where it fails it names `max(I, MEM_SIZE)`. -/
theorem State.rangeFault_eq_some (count a : Nat) :
    s.rangeFault count = some a ↔
      (0 < count ∧ s.cfg.memSize < s.i.toNat + count) ∧ a = max s.i.toNat s.cfg.memSize := by
  unfold State.rangeFault
  split
  · simp only [Option.some.injEq]; constructor
    · intro h; exact ⟨by omega, h.symm⟩
    · intro h; exact h.2.symm
  · simp only [reduceCtorEq, false_iff]; omega

/-- A guarded instruction does its work on a range that exists, or raises MemoryRange. -/
theorem State.guardRange_cases (count : Nat) (w : Word) (ok : State) :
    ((count = 0 ∨ s.i.toNat + count ≤ s.cfg.memSize) ∧ s.guardRange count w ok = ok) ∨
    ((0 < count ∧ s.cfg.memSize < s.i.toNat + count) ∧
      s.guardRange count w ok = s.raise .memoryRange w (max s.i.toNat s.cfg.memSize)) := by
  unfold State.guardRange
  cases h : s.rangeFault count with
  | none => exact .inl ⟨(s.rangeFault_eq_none count).1 h, rfl⟩
  | some a =>
    obtain ⟨hr, rfl⟩ := (s.rangeFault_eq_some count a).1 h
    exact .inr ⟨hr, rfl⟩

theorem State.guardRange_ok (count : Nat) (w : Word) (ok : State)
    (h : count = 0 ∨ s.i.toNat + count ≤ s.cfg.memSize) : s.guardRange count w ok = ok := by
  simp [State.guardRange, (s.rangeFault_eq_none count).2 h]

theorem State.guardRange_fault (count : Nat) (w : Word) (ok : State) (h0 : 0 < count)
    (h : s.cfg.memSize < s.i.toNat + count) :
    s.guardRange count w ok = s.raise .memoryRange w (max s.i.toNat s.cfg.memSize) := by
  simp [State.guardRange, (s.rangeFault_eq_some count _).2 ⟨⟨h0, h⟩, rfl⟩]

/-! ## A store of several bytes (R163, R164) -/

theorem State.storeRange_succ (n : Nat) (f : Nat → Byte) :
    s.storeRange (n + 1) f = (s.storeRange n f).writeByte (s.dataAddr n) (f n) := by
  simp [State.storeRange, List.range_succ]

/-- A store changes memory and nothing else. -/
theorem State.storeRange_eq (n : Nat) (f : Nat → Byte) : ∃ m, s.storeRange n f = { s with mem := m } := by
  induction n with
  | zero => exact ⟨s.mem, rfl⟩
  | succ n ih =>
    obtain ⟨m, hm⟩ := ih
    exact ⟨_, by rw [State.storeRange_succ, hm]; rfl⟩

/-- A store inside `MEM_SIZE` keeps the canonical form, writes `f k` at `I + k` and leaves every other byte. -/
theorem State.storeRange_spec (n : Nat) (f : Nat → Byte) (hw : Memory.wf s.cfg s.mem = true)
    (hr : n = 0 ∨ s.i.toNat + n ≤ s.cfg.memSize) :
    Memory.wf s.cfg (s.storeRange n f).mem = true ∧
    ∀ p, (s.storeRange n f).readByte p =
      if s.i.toNat ≤ p ∧ p < s.i.toNat + n then f (p - s.i.toNat) else s.readByte p := by
  induction n with
  | zero =>
    refine ⟨hw, fun p => ?_⟩
    rw [if_neg (by omega)]
    rfl
  | succ n ih =>
    obtain ⟨hwn, hread⟩ := ih (by omega)
    obtain ⟨m, hm⟩ := s.storeRange_eq n f
    have hcfg : (s.storeRange n f).cfg = s.cfg := by rw [hm]
    rw [State.storeRange_succ, State.dataAddr_eq]
    refine ⟨?_, fun p => ?_⟩
    · rw [State.writeByte_mem, hcfg]
      exact Memory.write_wf s.cfg _ _ _ (by omega) hwn
    · rw [State.writeByte_readByte _ _ _ _ (by rw [hcfg]; exact hwn), hread p]
      by_cases hp : p = s.i.toNat + n
      · rw [if_pos hp, if_pos (by omega), hp]; congr 1; omega
      · rw [if_neg hp]
        by_cases hq : s.i.toNat ≤ p ∧ p < s.i.toNat + n
        · rw [if_pos hq, if_pos (by omega)]
        · rw [if_neg hq, if_neg (by omega)]

/-! ## A load of several registers (R165) -/

theorem State.loadRange_succ (n : Nat) :
    s.loadRange (n + 1) = (s.loadRange n).setReg (regAt n) (s.readByte (s.dataAddr n)) := by
  simp [State.loadRange, List.range_succ]

/-- A load changes V and nothing else. -/
theorem State.loadRange_eq (n : Nat) : ∃ v, s.loadRange n = { s with v := v } := by
  induction n with
  | zero => exact ⟨s.v, rfl⟩
  | succ n ih =>
    obtain ⟨v, hv⟩ := ih
    exact ⟨_, by rw [State.loadRange_succ, hv]; rfl⟩

theorem regAt_eq_iff (n : Nat) (q : Nibble) (hn : n < 16) : q = regAt n ↔ q.toNat = n := by
  constructor
  · intro h; simp [h, regAt, Nat.mod_eq_of_lt hn]
  · intro h; exact BitVec.eq_of_toNat_eq (by simp [regAt, h, Nat.mod_eq_of_lt hn])

/-- A load gives V0, V1, … the bytes from I and leaves the other registers. -/
theorem State.loadRange_reg (n : Nat) (hn : n ≤ 16) (q : Nibble) :
    (s.loadRange n).reg q = if q.toNat < n then s.readByte (s.i.toNat + q.toNat) else s.reg q := by
  induction n with
  | zero => simp [State.loadRange]
  | succ n ih =>
    rw [State.loadRange_succ, State.setReg_reg, ih (by omega)]
    by_cases hq : q = regAt n
    · have := (regAt_eq_iff n q (by omega)).1 hq
      rw [if_pos hq, if_pos (by omega), State.dataAddr, this]
    · have : q.toNat ≠ n := fun h => hq ((regAt_eq_iff n q (by omega)).2 h)
      rw [if_neg hq]
      by_cases hlt : q.toNat < n
      · rw [if_pos hlt, if_pos (by omega)]
      · rw [if_neg hlt, if_neg (by omega)]

/-! ## Fetch (R103) -/

/-- Inside `MEM_SIZE` the fetch gives the big-endian word at PC. -/
theorem State.fetch_ok (h : s.pc.toNat + 1 < s.cfg.memSize) :
    s.fetch = .ok (wordOfBytes (s.readByte s.pc.toNat) (s.readByte (s.pc.toNat + 1))) := by
  simp [State.fetch, Nat.not_le.2 h]

/-- Else it names the lowest address out of range. -/
theorem State.fetch_error (h : s.cfg.memSize ≤ s.pc.toNat + 1) :
    s.fetch = .error (if s.cfg.memSize ≤ s.pc.toNat then s.pc.toNat else s.pc.toNat + 1) := by
  simp [State.fetch, h]

end Sys2Proof.Machine
end

