-- ==== Sys2Proof/Laws/Latch.lean ====
section
/-! SUPPORT. No instruction reads or writes the pending-tick flag or the plan, so neither a pulse latched beside an Exec
step (spec/70_reset_and_hazards.md R282) nor what the host plans after it changes what the step does. -/

namespace Sys2Proof.Machine

/-- The state with the pending-tick flag and the plan as given. -/
def State.setAside (s : State) (b : Bool) (l : List HostStep) : State :=
  { s with pendingTick := b, host := { s.host with steps := l } }

theorem State.storeRange_setAside (s : State) (b : Bool) (l : List HostStep) (n : Nat) (f : Nat → Byte) :
    (s.setAside b l).storeRange n f = (s.storeRange n f).setAside b l := by
  induction n with
  | zero => rfl
  | succ n ih => rw [State.storeRange_succ, State.storeRange_succ, ih]; rfl

theorem State.loadRange_setAside (s : State) (b : Bool) (l : List HostStep) (n : Nat) :
    (s.setAside b l).loadRange n = (s.loadRange n).setAside b l := by
  induction n with
  | zero => rfl
  | succ n ih => rw [State.loadRange_succ, State.loadRange_succ, ih]; rfl

theorem State.guardRange_setAside (s ok : State) (b : Bool) (l : List HostStep) (n : Nat) (w : Word) :
    (s.setAside b l).guardRange n w (ok.setAside b l) = (s.guardRange n w ok).setAside b l := by
  rcases s.guardRange_cases n w ok with ⟨hin, e⟩ | ⟨hout, e⟩
  · rw [e, State.guardRange_ok]; exact hin
  · rcases (s.setAside b l).guardRange_cases n w (ok.setAside b l) with ⟨hin, -⟩ | ⟨-, e'⟩
    · simp only [State.setAside] at hin
      omega
    · rw [e, e']; rfl

theorem State.skipIf_setAside (s : State) (b c : Bool) (l : List HostStep) :
    (s.setAside b l).skipIf c = (s.skipIf c).setAside b l := by
  rw [State.skipIf_eq, State.skipIf_eq]; rfl

/-- An instruction does the same whatever the flag and the plan are, and leaves both. -/
theorem exec_setAside (i : Instr) (s u : State) (b : Bool) (l : List HostStep) (h : exec i s = .next u) :
    exec i (s.setAside b l) = .next (u.setAside b l) := by
  cases i with
  | ret =>
    obtain ⟨cfg, v, i, pc, stack, dt, st, keys, idle, fb, mem, run, wx, slots, fault, ldCount, loadErr, pendingTick, ports,
      frames, host⟩ := s
    cases stack <;> cases h <;> rfl
  | call nnn =>
    simp only [exec, execCall] at h ⊢
    split at h <;> cases h
    · exact if_pos ‹_›
    · exact if_neg ‹_›
  | drw x y n =>
    cases h
    exact congrArg _ (s.guardRange_setAside
      (s.present (s.fb.blit (s.reg x) (s.reg y) (s.readRange n.toNat))).advance _ _ _ _)
  | ldBVx x =>
    cases h
    simp only [exec, execLdBVx, State.storeRange_setAside]
    exact congrArg _ (s.guardRange_setAside (s.storeRange _ _).advance _ _ _ _)
  | storeRegs x =>
    cases h
    simp only [exec, execStoreRegs, State.storeRange_setAside]
    exact congrArg _ (s.guardRange_setAside (s.storeRange _ _).advance _ _ _ _)
  | loadRegs x =>
    cases h
    simp only [exec, execLoadRegs, State.loadRange_setAside]
    exact congrArg _ (s.guardRange_setAside (s.loadRange _).advance _ _ _ _)
  | skp x =>
    simp only [exec, execSkp, show (s.setAside b l).reg x = s.reg x from rfl] at h ⊢
    split at h <;> cases h
    · rfl
    · exact congrArg _ (s.skipIf_setAside b _ l)
  | sknp x =>
    simp only [exec, execSknp, show (s.setAside b l).reg x = s.reg x from rfl] at h ⊢
    split at h <;> cases h
    · rfl
    · exact congrArg _ (s.skipIf_setAside b _ l)
  | seImm x kk => cases h; exact congrArg _ (s.skipIf_setAside b _ l)
  | sneImm x kk => cases h; exact congrArg _ (s.skipIf_setAside b _ l)
  | seReg x y n => cases h; exact congrArg _ (s.skipIf_setAside b _ l)
  | sneReg x y n => cases h; exact congrArg _ (s.skipIf_setAside b _ l)
  | _ => cases h; rfl

end Sys2Proof.Machine
end

