-- ==== Sys2Proof/Laws/Load.lean ====
section
/-! SUPPORT. What the load port does with a stream of bytes (spec/10_state.md R52): all of it stored, or the error flag. -/

namespace Sys2Proof.Machine

/-- The byte fits: it is stored behind the ones before it (R52). -/
theorem State.acceptByte_fits (s : State) (b : Byte) (h : s.ldCount < imageCapacity s.cfg) :
    s.acceptByte b =
      { s with mem := Memory.write s.cfg s.mem (loadAddress + s.ldCount) b, ldCount := s.ldCount + 1 } := by
  unfold State.acceptByte
  rw [if_pos h]
  rfl

/-- The byte is one too many: only the error flag is set (R52). -/
theorem State.acceptByte_full (s : State) (b : Byte) (h : ¬ s.ldCount < imageCapacity s.cfg) :
    s.acceptByte b = { s with loadErr := true } := by
  unfold State.acceptByte
  rw [if_neg h]

/-- A stream that fits changes memory and the count, keeps the canonical form, and lies byte by byte behind what was
loaded before. -/
theorem State.acceptBytes_fit (img : List Byte) (s : State) (hw : Memory.wf s.cfg s.mem = true)
    (hfit : s.ldCount + img.length ≤ imageCapacity s.cfg) :
    ∃ m, img.foldl State.acceptByte s = { s with mem := m, ldCount := s.ldCount + img.length } ∧
      Memory.wf s.cfg m = true ∧
      ∀ a, Memory.read s.cfg m a =
        if loadAddress + s.ldCount ≤ a ∧ a < loadAddress + s.ldCount + img.length
        then img.getD (a - (loadAddress + s.ldCount)) 0 else Memory.read s.cfg s.mem a := by
  induction img generalizing s with
  | nil => exact ⟨s.mem, rfl, hw, fun a => by rw [if_neg]; simp⟩
  | cons b rest ih =>
    rw [List.length_cons] at hfit
    rw [List.foldl_cons, s.acceptByte_fits b (by omega)]
    have ha : loadAddress + s.ldCount < s.cfg.memSize := by
      have : imageCapacity s.cfg = s.cfg.memSize - loadAddress := rfl
      omega
    obtain ⟨m, hm, hmw, hread⟩ :=
      ih { s with mem := Memory.write s.cfg s.mem (loadAddress + s.ldCount) b, ldCount := s.ldCount + 1 }
        (Memory.write_wf _ _ _ _ ha hw) (show s.ldCount + 1 + rest.length ≤ imageCapacity s.cfg by omega)
    refine ⟨m, ?_, hmw, fun a => ?_⟩
    · rw [hm, List.length_cons]
      congr 1
      exact by show s.ldCount + 1 + rest.length = _; omega
    · rw [hread a]
      show (if loadAddress + (s.ldCount + 1) ≤ a ∧ a < loadAddress + (s.ldCount + 1) + rest.length
        then rest.getD (a - (loadAddress + (s.ldCount + 1))) 0
        else Memory.read s.cfg (Memory.write s.cfg s.mem (loadAddress + s.ldCount) b) a) = _
      rw [Memory.read_write s.cfg s.mem 0 _ _ _ hw, List.length_cons]
      obtain ⟨base, hbase⟩ : ∃ base, loadAddress + s.ldCount = base := ⟨_, rfl⟩
      rw [show loadAddress + (s.ldCount + 1) = base + 1 by omega, hbase]
      by_cases hb : a = base
      · subst hb
        rw [if_neg (by omega), if_pos rfl, if_pos (by omega), Nat.sub_self]
        rfl
      · by_cases hin : base < a ∧ a < base + 1 + rest.length
        · rw [if_pos (by omega), if_pos (by omega)]
          obtain ⟨d, rfl⟩ : ∃ d, a = base + 1 + d := ⟨a - (base + 1), by omega⟩
          rw [show base + 1 + d - base = d + 1 by omega, List.getD_cons_succ]
          congr 1
          omega
        · rw [if_neg (by omega), if_neg hb, if_neg (by omega)]

/-- A stream that comes when memory is full sets the error flag and changes nothing else. -/
theorem State.acceptBytes_full (img : List Byte) (s : State) (h : ¬ s.ldCount < imageCapacity s.cfg) (hne : img ≠ []) :
    img.foldl State.acceptByte s = { s with loadErr := true } := by
  induction img generalizing s with
  | nil => exact absurd rfl hne
  | cons b rest ih =>
    rw [List.foldl_cons, s.acceptByte_full b h]
    cases rest with
    | nil => rfl
    | cons b' rest' => exact ih { s with loadErr := true } h (List.cons_ne_nil _ _)

end Sys2Proof.Machine
end

