-- ==== Sys2Proof/Laws/PerInstr.lean ====
section
/-! SUPPORT. Per instruction: its word fits the mask and match of its row of spec/opcode_table.json. -/

namespace Sys2Proof.Laws

/-! ## The fixed bits of a format -/

theorem nnn_fixed (c : Nibble) (nnn : Addr12) : formatNnn c nnn &&& 0xF000#16 = c ++ 0x000#12 := by
  apply BitVec.eq_of_getLsbD_eq
  intro i hi
  interval_cases i <;> simp only [formatNnn, BitVec.getLsbD_and, BitVec.getLsbD_append] <;> simp

theorem xkk_class (c x : Nibble) (kk : Byte) : formatXkk c x kk &&& 0xF000#16 = c ++ 0x000#12 := by
  apply BitVec.eq_of_getLsbD_eq
  intro i hi
  interval_cases i <;> simp only [formatXkk, BitVec.getLsbD_and, BitVec.getLsbD_append] <;> simp

theorem xkk_fixed (c x : Nibble) (kk : Byte) : formatXkk c x kk &&& 0xF0FF#16 = c ++ 0x0#4 ++ kk := by
  apply BitVec.eq_of_getLsbD_eq
  intro i hi
  interval_cases i <;> simp only [formatXkk, BitVec.getLsbD_and, BitVec.getLsbD_append] <;> simp

theorem xyn_class (c x y n : Nibble) : formatXyn c x y n &&& 0xF000#16 = c ++ 0x000#12 := by
  apply BitVec.eq_of_getLsbD_eq
  intro i hi
  interval_cases i <;> simp only [formatXyn, BitVec.getLsbD_and, BitVec.getLsbD_append] <;> simp

theorem xyn_fixed (c x y n : Nibble) : formatXyn c x y n &&& 0xF00F#16 = c ++ 0x00#8 ++ n := by
  apply BitVec.eq_of_getLsbD_eq
  intro i hi
  interval_cases i <;> simp only [formatXyn, BitVec.getLsbD_and, BitVec.getLsbD_append] <;> simp

/-- The mask and match of an instruction's row of spec/opcode_table.json (R85). -/
def tableRow : Instr → Word × Word
  | .cls => (0xFFFF#16, 0x00E0#16)
  | .ret => (0xFFFF#16, 0x00EE#16)
  | .jp _ => (0xF000#16, 0x1000#16)
  | .call _ => (0xF000#16, 0x2000#16)
  | .seImm _ _ => (0xF000#16, 0x3000#16)
  | .sneImm _ _ => (0xF000#16, 0x4000#16)
  | .seReg _ _ _ => (0xF000#16, 0x5000#16)
  | .ldImm _ _ => (0xF000#16, 0x6000#16)
  | .addImm _ _ => (0xF000#16, 0x7000#16)
  | .ldReg _ _ => (0xF00F#16, 0x8000#16)
  | .orReg _ _ => (0xF00F#16, 0x8001#16)
  | .andReg _ _ => (0xF00F#16, 0x8002#16)
  | .xorReg _ _ => (0xF00F#16, 0x8003#16)
  | .addReg _ _ => (0xF00F#16, 0x8004#16)
  | .subReg _ _ => (0xF00F#16, 0x8005#16)
  | .sneReg _ _ _ => (0xF000#16, 0x9000#16)
  | .ldI _ => (0xF000#16, 0xA000#16)
  | .jpV0 _ => (0xF000#16, 0xB000#16)
  | .rnd _ _ => (0xF000#16, 0xC000#16)
  | .drw _ _ _ => (0xF000#16, 0xD000#16)
  | .skp _ => (0xF0FF#16, 0xE09E#16)
  | .sknp _ => (0xF0FF#16, 0xE0A1#16)
  | .ldVxDt _ => (0xF0FF#16, 0xF007#16)
  | .ldVxK _ => (0xF0FF#16, 0xF00A#16)
  | .ldDtVx _ => (0xF0FF#16, 0xF015#16)
  | .ldStVx _ => (0xF0FF#16, 0xF018#16)
  | .addIVx _ => (0xF0FF#16, 0xF01E#16)
  | .ldFVx _ => (0xF0FF#16, 0xF029#16)
  | .ldBVx _ => (0xF0FF#16, 0xF033#16)
  | .storeRegs _ => (0xF0FF#16, 0xF055#16)
  | .loadRegs _ => (0xF0FF#16, 0xF065#16)

/-- The word of the instruction has the bits its row fixes. -/
def EncodingMatchesTable.Statement (i : Instr) : Prop := encode i &&& (tableRow i).1 = (tableRow i).2

theorem EncodingMatchesTable.cls :
    Statement (.cls) := rfl
theorem EncodingMatchesTable.ret :
    Statement (.ret) := rfl
theorem EncodingMatchesTable.jp (nnn : Addr12) :
    Statement (.jp nnn) := (nnn_fixed _ _).trans rfl
theorem EncodingMatchesTable.call (nnn : Addr12) :
    Statement (.call nnn) := (nnn_fixed _ _).trans rfl
theorem EncodingMatchesTable.seImm (x : Nibble) (kk : Byte) :
    Statement (.seImm x kk) := (xkk_class _ _ _).trans rfl
theorem EncodingMatchesTable.sneImm (x : Nibble) (kk : Byte) :
    Statement (.sneImm x kk) := (xkk_class _ _ _).trans rfl
theorem EncodingMatchesTable.seReg (x y n : Nibble) :
    Statement (.seReg x y n) := (xyn_class _ _ _ _).trans rfl
theorem EncodingMatchesTable.ldImm (x : Nibble) (kk : Byte) :
    Statement (.ldImm x kk) := (xkk_class _ _ _).trans rfl
theorem EncodingMatchesTable.addImm (x : Nibble) (kk : Byte) :
    Statement (.addImm x kk) := (xkk_class _ _ _).trans rfl
theorem EncodingMatchesTable.ldReg (x y : Nibble) :
    Statement (.ldReg x y) := (xyn_fixed _ _ _ _).trans rfl
theorem EncodingMatchesTable.orReg (x y : Nibble) :
    Statement (.orReg x y) := (xyn_fixed _ _ _ _).trans rfl
theorem EncodingMatchesTable.andReg (x y : Nibble) :
    Statement (.andReg x y) := (xyn_fixed _ _ _ _).trans rfl
theorem EncodingMatchesTable.xorReg (x y : Nibble) :
    Statement (.xorReg x y) := (xyn_fixed _ _ _ _).trans rfl
theorem EncodingMatchesTable.addReg (x y : Nibble) :
    Statement (.addReg x y) := (xyn_fixed _ _ _ _).trans rfl
theorem EncodingMatchesTable.subReg (x y : Nibble) :
    Statement (.subReg x y) := (xyn_fixed _ _ _ _).trans rfl
theorem EncodingMatchesTable.sneReg (x y n : Nibble) :
    Statement (.sneReg x y n) := (xyn_class _ _ _ _).trans rfl
theorem EncodingMatchesTable.ldI (nnn : Addr12) :
    Statement (.ldI nnn) := (nnn_fixed _ _).trans rfl
theorem EncodingMatchesTable.jpV0 (nnn : Addr12) :
    Statement (.jpV0 nnn) := (nnn_fixed _ _).trans rfl
theorem EncodingMatchesTable.rnd (x : Nibble) (kk : Byte) :
    Statement (.rnd x kk) := (xkk_class _ _ _).trans rfl
theorem EncodingMatchesTable.drw (x y n : Nibble) :
    Statement (.drw x y n) := (xyn_class _ _ _ _).trans rfl
theorem EncodingMatchesTable.skp (x : Nibble) :
    Statement (.skp x) := (xkk_fixed _ _ _).trans rfl
theorem EncodingMatchesTable.sknp (x : Nibble) :
    Statement (.sknp x) := (xkk_fixed _ _ _).trans rfl
theorem EncodingMatchesTable.ldVxDt (x : Nibble) :
    Statement (.ldVxDt x) := (xkk_fixed _ _ _).trans rfl
theorem EncodingMatchesTable.ldVxK (x : Nibble) :
    Statement (.ldVxK x) := (xkk_fixed _ _ _).trans rfl
theorem EncodingMatchesTable.ldDtVx (x : Nibble) :
    Statement (.ldDtVx x) := (xkk_fixed _ _ _).trans rfl
theorem EncodingMatchesTable.ldStVx (x : Nibble) :
    Statement (.ldStVx x) := (xkk_fixed _ _ _).trans rfl
theorem EncodingMatchesTable.addIVx (x : Nibble) :
    Statement (.addIVx x) := (xkk_fixed _ _ _).trans rfl
theorem EncodingMatchesTable.ldFVx (x : Nibble) :
    Statement (.ldFVx x) := (xkk_fixed _ _ _).trans rfl
theorem EncodingMatchesTable.ldBVx (x : Nibble) :
    Statement (.ldBVx x) := (xkk_fixed _ _ _).trans rfl
theorem EncodingMatchesTable.storeRegs (x : Nibble) :
    Statement (.storeRegs x) := (xkk_fixed _ _ _).trans rfl
theorem EncodingMatchesTable.loadRegs (x : Nibble) :
    Statement (.loadRegs x) := (xkk_fixed _ _ _).trans rfl

end Sys2Proof.Laws
end

