-- ==== Sys2Proof/Tests/Slice0.lean ====
section
/-! SUPPORT. The model's own tests: the WellFormed smoke, one word of every instruction written out from the encoding map
(spec/30_encoding.md R85), the spec's test vectors (spec/95_test_vectors.md), and for every obligation with hypotheses a
state that meets them. -/

namespace Sys2Proof.Tests

open Sys2Proof.Machine

/-! ## WellFormed: the one check, LEGACY_UNIMPLEMENTED (R91) -/

theorem test_wf_refuses_skp : (Instr.skp 0x1).wellFormed true = false := by decide
theorem test_wf_refuses_ldVxK : (Instr.ldVxK 0x0).wellFormed true = false := by decide
theorem test_wf_refuses_addIVx : (Instr.addIVx 0xF).wellFormed true = false := by decide
theorem test_wf_accepts_sknp : (Instr.sknp 0x1).wellFormed true = true := by decide
theorem test_wf_accepts_skp_by_default : (Instr.skp 0x1).wellFormed false = true := by decide

/-! ## Decoding: a word of every row, as R85 writes it -/

theorem test_decode_class0 :
    decodeTableWord 16 0x00E0 = some .cls ∧ decodeTableWord 16 0x00EE = some .ret := by decide
theorem test_decode_address_forms :
    decodeTableWord 16 0x1234 = some (.jp 0x234) ∧ decodeTableWord 16 0x2ABC = some (.call 0xABC) ∧
    decodeTableWord 16 0xA300 = some (.ldI 0x300) ∧ decodeTableWord 16 0xBFFF = some (.jpV0 0xFFF) := by decide
theorem test_decode_immediate_forms :
    decodeTableWord 16 0x3310 = some (.seImm 0x3 0x10) ∧ decodeTableWord 16 0x4F01 = some (.sneImm 0xF 0x01) ∧
    decodeTableWord 16 0x6A2B = some (.ldImm 0xA 0x2B) ∧ decodeTableWord 16 0x7103 = some (.addImm 0x1 0x03) ∧
    decodeTableWord 16 0xC30F = some (.rnd 0x3 0x0F) := by decide
theorem test_decode_skips_keep_n :
    decodeTableWord 16 0x512F = some (.seReg 0x1 0x2 0xF) ∧ decodeTableWord 16 0x9120 = some (.sneReg 0x1 0x2 0x0) := by
  decide
theorem test_decode_class8 :
    decodeTableWord 16 0x8120 = some (.ldReg 0x1 0x2) ∧ decodeTableWord 16 0x8121 = some (.orReg 0x1 0x2) ∧
    decodeTableWord 16 0x8122 = some (.andReg 0x1 0x2) ∧ decodeTableWord 16 0x8123 = some (.xorReg 0x1 0x2) ∧
    decodeTableWord 16 0x8124 = some (.addReg 0x1 0x2) ∧ decodeTableWord 16 0x8125 = some (.subReg 0x1 0x2) := by decide
theorem test_decode_draw : decodeTableWord 16 0xD125 = some (.drw 0x1 0x2 0x5) := by decide
theorem test_decode_classE :
    decodeTableWord 16 0xE29E = some (.skp 0x2) ∧ decodeTableWord 16 0xE2A1 = some (.sknp 0x2) := by decide
theorem test_decode_classF :
    decodeTableWord 16 0xF307 = some (.ldVxDt 0x3) ∧ decodeTableWord 16 0xF30A = some (.ldVxK 0x3) ∧
    decodeTableWord 16 0xF015 = some (.ldDtVx 0x0) ∧ decodeTableWord 16 0xF418 = some (.ldStVx 0x4) ∧
    decodeTableWord 16 0xF21E = some (.addIVx 0x2) ∧ decodeTableWord 16 0xF029 = some (.ldFVx 0x0) ∧
    decodeTableWord 16 0xFC33 = some (.ldBVx 0xC) ∧ decodeTableWord 16 0xF155 = some (.storeRegs 0x1) ∧
    decodeTableWord 16 0xF265 = some (.loadRegs 0x2) := by decide
/-- Vectors E1 to E7. -/
theorem test_decode_refuses :
    decodeTableWord 16 0x0000 = none ∧ decodeTableWord 16 0x01E0 = none ∧ decodeTableWord 16 0x0FEE = none ∧
    decodeTableWord 16 0x8006 = none ∧ decodeTableWord 16 0x801E = none ∧ decodeTableWord 16 0xE000 = none ∧
    decodeTableWord 16 0xF000 = none := by decide
theorem test_decode_truncated :
    decodeBytes false [] = .error .truncated ∧ decodeBytes false [0x00] = .error .truncated := ⟨rfl, rfl⟩

/-! ## Running one instruction -/

/-- A view of the next state, if there is one. -/
def seen {α : Type} (f : State → α) : Host.Outcome State Fault Refusal → Option α
  | .next t => some (f t)
  | .fault _ => none
  | .refused _ => none

/-- The state after reset with one slot, as after the Tick step of the vectors' convention. -/
def ready : State := { State.reset with slots := 1 }

/-- `ready` with V1 and V2 as given. -/
def ready12 (a b : Byte) : State := (ready.setReg 0x1 a).setReg 0x2 b

/-- The word at PC is executed. -/
def run1 (w : Nat) (s : State) : Host.Outcome State Fault Refusal := step (s.withFetchWord 16 w)

/-- A fault as the vectors write it: run state, code, PC, word, address. -/
def faultOf (s : State) : RunState × FaultRecord := (s.run, s.fault)

/-- FAULTED with this record. -/
def faulted (code : FaultCode) (pc word : Word) (addr : BitVec 17) : Option (RunState × FaultRecord) :=
  some (.faulted, { code := code, pc := pc, word := word, addr := addr })

/-! ### Fetch and decode (E1, E9, E12, E13, E15) -/

theorem test_invalid : seen faultOf (run1 0x0000 ready) = faulted .invalidOpcode 0x0200 0x0000 0 := by decide
theorem test_unimplemented :
    seen faultOf (run1 0xE19E { ready with cfg := { defaultConfig with legacyUnimplemented := true } }) =
      faulted .unimplementedOpcode 0x0200 0xE19E 0 := by decide
theorem test_fetch_last_byte :
    seen faultOf (step { ready with pc := 0x0FFF }) = faulted .memoryRange 0x0FFF 0x0000 0x1000 := by decide
theorem test_fetch_past_end :
    seen faultOf (step { ready with pc := 0x1000 }) = faulted .memoryRange 0x1000 0x0000 0x1000 := by decide
theorem test_fetch_odd :
    seen (fun s => (s.reg 0x0, s.pc, s.slots)) (run1 0x607A { ready with pc := 0x0201 }) = some (0x7A, 0x0203, 0) := by
  decide

/-! ### Control transfer (C1, C2, C3, C5, C6, C14, W8, E8, C11, C12) -/

theorem test_ret :
    seen (fun s => (s.pc, s.stack)) (run1 0x00EE { ready with stack := [0x0206] }) = some (0x0206, []) := by decide
theorem test_ret_empty :
    seen (fun s => (s.pc, s.run, s.fault, s.status)) (run1 0x00EE ready) =
      some (0x0200, .halted, FaultRecord.zero, 0x0003) := by decide
theorem test_jp : seen State.pc (run1 0x1FFF ready) = some 0x0FFF := by decide
theorem test_call : seen (fun s => (s.pc, s.stack)) (run1 0x2300 ready) = some (0x0300, [0x0202]) := by decide
theorem test_call_overflow :
    seen (fun s => (faultOf s, s.stack.length)) (run1 0x2300 { ready with stack := List.replicate 16 0x0204 }) =
      some ((.faulted, { code := .stackOverflow, pc := 0x0200, word := 0x2300, addr := 0 }), 16) := by decide
theorem test_jpV0 : seen State.pc (run1 0xBFFF (ready.setReg 0x0 0xFF)) = some 0x10FE := by decide
theorem test_seImm :
    seen State.pc (run1 0x3310 (ready.setReg 0x3 0x10)) = some 0x0204 ∧
    seen State.pc (run1 0x3310 (ready.setReg 0x3 0x11)) = some 0x0202 := by decide
theorem test_sneImm :
    seen State.pc (run1 0x4310 (ready.setReg 0x3 0x11)) = some 0x0204 ∧
    seen State.pc (run1 0x4310 (ready.setReg 0x3 0x10)) = some 0x0202 := by decide
theorem test_seReg :
    seen State.pc (run1 0x512F (ready12 7 7)) = some 0x0204 ∧ seen State.pc (run1 0x5120 (ready12 7 8)) = some 0x0202 := by
  decide
theorem test_sneReg :
    seen State.pc (run1 0x9120 (ready12 7 8)) = some 0x0204 ∧ seen State.pc (run1 0x9110 (ready12 9 0)) = some 0x0202 := by
  decide

/-! ### Arithmetic and logic (A1 to A17, W4, W5) -/

theorem test_ldImm : seen (fun s => (s.reg 0xA, s.pc)) (run1 0x6A2B ready) = some (0x2B, 0x0202) := by decide
theorem test_addImm : seen (fun s => (s.reg 0x1, s.reg 0xF)) (run1 0x7101 (ready12 0xFF 0)) = some (0x00, 0x00) := by decide
theorem test_addImm_vf : seen (State.reg · 0xF) (run1 0x7FFF (ready.setReg 0xF 0x05)) = some 0x04 := by decide
theorem test_ldReg : seen (State.reg · 0x1) (run1 0x8120 (ready12 0 0x44)) = some 0x44 := by decide
theorem test_orReg :
    seen (fun s => (s.reg 0x1, s.reg 0xF)) (run1 0x8121 ((ready12 0x0F 0xF0).setReg 0xF 0x07)) = some (0xFF, 0x07) := by
  decide
theorem test_andReg : seen (State.reg · 0x1) (run1 0x8122 (ready12 0x3C 0x0F)) = some 0x0C := by decide
theorem test_xorReg : seen (State.reg · 0x1) (run1 0x8123 (ready12 0x3C 0x0F)) = some 0x33 := by decide
theorem test_addReg :
    seen (fun s => (s.reg 0x1, s.reg 0xF)) (run1 0x8124 (ready12 0xFF 0x02)) = some (0x01, 0x01) := by decide
theorem test_addReg_vf : seen (State.reg · 0xF) (run1 0x8FF4 (ready.setReg 0xF 0x80)) = some 0x01 := by decide
theorem test_subReg :
    seen (fun s => (s.reg 0x1, s.reg 0xF)) (run1 0x8125 (ready12 0x01 0x02)) = some (0xFF, 0x00) := by decide
theorem test_subReg_from_vf :
    seen (fun s => (s.reg 0x1, s.reg 0xF)) (run1 0x81F5 (ready.setReg 0xF 0x01)) = some (0xFF, 0x00) := by decide
theorem test_rnd :
    seen (fun s => (s.reg 0x3, s.host.rnd)) (run1 0xC30F { ready with host := { ready.host with rnd := [0xA7] } }) =
      some (0x07, []) := by decide

/-! ### Index register and memory (M2, M4, M8, W3, M10, M12, M14, M15, M17) -/

theorem test_ldI : seen State.i (run1 0xAFFF ready) = some 0x0FFF := by decide
theorem test_addIVx :
    seen (fun s => (s.i, s.reg 0xF)) (run1 0xF11E { ready12 0x01 0 with i := 0xFFFF }) = some (0x0000, 0x00) := by decide
theorem test_ldFVx : seen State.i (run1 0xF029 (ready.setReg 0x0 0xFF)) = some 0x04FB := by decide
theorem test_ldBVx :
    seen (fun s => (s.readByte 0x300, s.readByte 0x301, s.readByte 0x302, s.i))
      (run1 0xF033 { ready.setReg 0x0 0x93 with i := 0x0300 }) = some (0x01, 0x04, 0x07, 0x0300) := by decide
theorem test_ldBVx_range :
    seen faultOf (run1 0xF033 { ready with i := 0x0FFE }) = faulted .memoryRange 0x0200 0xF033 0x1000 := by decide
theorem test_storeRegs :
    seen (fun s => (s.readByte 0x300, s.readByte 0x301, s.readByte 0x302, s.i))
      (run1 0xF155 { (ready.setReg 0x0 1).setReg 0x1 2 with i := 0x0300 }) = some (0x01, 0x02, 0x00, 0x0300) := by decide
theorem test_storeRegs_range :
    seen faultOf (run1 0xFF55 { ready with i := 0x0FF1 }) = faulted .memoryRange 0x0200 0xFF55 0x1000 := by decide
theorem test_loadRegs :
    seen (fun s => (s.reg 0x0, s.reg 0x5, s.reg 0x9, s.reg 0xF)) (run1 0xFF65 ready) = some (0xF0, 0x20, 0x70, 0xF0) := by
  decide
theorem test_loadRegs_range :
    seen faultOf (run1 0xF065 { ready with i := 0x1005 }) = faulted .memoryRange 0x0200 0xF065 0x1005 := by decide

/-! ### Display (D1, D3, D8; W1's glyph is the one drawn here) -/

/-- One sprite byte at 0x300, I there, and the state of vector D8: the column comes from VF. -/
def drawState : State := { ((ready.setReg 0xF 0x3F).setReg 0x1 0x05).writeByte 0x300 0x01 with i := 0x0300 }

theorem test_cls :
    seen (fun s => (s.fb.pixel 0 0, s.frames)) (run1 0x00E0 { ready with fb := Vector.replicate 32 (-1) }) =
      some (false, 1) := by decide
theorem test_drw :
    seen (fun s => (s.fb.pixel 6 5, s.fb.pixel 5 5, s.reg 0xF, s.frames)) (run1 0xDF11 drawState) =
      some (true, false, 0x00, 1) := by decide
theorem test_drw_range :
    seen (fun s => (faultOf s, s.frames)) (run1 0xD013 { ready with i := 0x0FFE }) =
      some ((.faulted, { code := .memoryRange, pc := 0x0200, word := 0xD013, addr := 0x1000 }), 0) := by decide

/-! ### Timers (T1, T2, T7) -/

theorem test_ldVxDt : seen (State.reg · 0x3) (run1 0xF307 { ready with dt := 0x20 }) = some 0x20 := by decide
theorem test_ldDtVx : seen State.dt (run1 0xF015 (ready.setReg 0x0 0x05)) = some 0x05 := by decide
theorem test_ldStVx : seen State.stOut (run1 0xF418 (ready.setReg 0x4 0x3C)) = some 0x3C := by decide

/-! ### Keypad (W8, K1, K2, K3, K4, K7, K9) -/

/-- V2 = 5 with key 5 reading pressed. -/
def key5 : State := { ready12 0 5 with keys := 0x0020, idle := 0 }

theorem test_skp :
    seen State.pc (run1 0xE29E key5) = some 0x0204 ∧ seen State.pc (run1 0xE29E (ready12 0 5)) = some 0x0202 := by decide
theorem test_skp_range :
    seen faultOf (run1 0xE09E (ready.setReg 0x0 0x10)) = faulted .keyIndexRange 0x0200 0xE09E 0 := by decide
theorem test_sknp :
    seen State.pc (run1 0xE2A1 key5) = some 0x0202 ∧ seen State.pc (run1 0xE2A1 (ready12 0 5)) = some 0x0204 := by decide
theorem test_sknp_range :
    seen faultOf (run1 0xE0A1 (ready.setReg 0x0 0xFF)) = faulted .keyIndexRange 0x0200 0xE0A1 0 := by decide
theorem test_ldVxK :
    seen (fun s => (s.run, s.wx, s.pc, s.slots)) (run1 0xF30A ready) = some (.waitKey, 0x3, 0x0200, 0) := by decide

/-! ### The other steps (T5, K4, K7, K9, R1, R4) -/

/-- Waiting for a key for V3. -/
def waiting : State := { ready with run := .waitKey, wx := 0x3, slots := 0 }

/-- Pins with the key-event port and the quit input low. -/
def tickPins : Pins := { Pins.low with tick := true, keyCode := 0x5 }

theorem test_tick : seen (fun s => (s.dt, s.slots)) (step { State.reset with dt := 0x01 }) = some (0x00, 1) := by decide
theorem test_key_ends_wait :
    seen (fun s => (s.reg 0x3, s.pc, s.run, s.keys)) (step (waiting.withPlan [.key 0x9])) =
      some (0x09, 0x0202, .running, 0x0200) := by decide
theorem test_quit_before_key :
    seen (fun s => (s.run, s.reg 0x3, s.keys))
      (step { waiting.withPlan [.clock { Pins.low with keyCode := 0x2 }] with
        ports := { Ports.quiet with keySync2 := true, quitSync2 := true } }) = some (.quit, 0x00, 0x0000) := by decide
theorem test_tick_before_key :
    seen (fun s => (s.keys, s.idle, s.ports.keyAck))
      (step { State.reset.withPlan [.clock tickPins] with
        keys := 0x0020, idle := 59, ports := { Ports.quiet with keySync2 := true } }) = some (0x0020, 0, true) := by decide
/-- Vector K8: the event is acknowledged and dropped. -/
theorem test_key_lost_when_halted :
    seen (fun s => (s.keys, s.run, s.ports.keyAck))
      (step { ready.withPlan [.clock Pins.low] with run := .halted, ports := { Ports.quiet with keySync2 := true } }) =
      some (0x0000, .halted, true) := by decide
theorem test_tick_before_quit :
    seen (fun s => (s.run, s.dt))
      (step { State.reset.withPlan [.clock tickPins] with
        dt := 0x05, ports := { Ports.quiet with quitSync2 := true } }) = some (.quit, 0x04) := by decide
/-- R249: quit beats the instruction that would start, not the one that completes (R251). -/
theorem test_quit_at_step_boundary :
    seen (fun s => (s.run, s.pc))
      (step { (ready.withFetchWord 16 0x1300) with ports := { Ports.quiet with quitSync2 := true } }) =
      some (.quit, 0x0200) := by decide
theorem test_instruction_completes_before_quit :
    seen (fun s => (s.run, s.pc))
      (step { (ready.withFetchWord 16 0x1300).withPlan [.clockExec false Pins.low] with
        ports := { Ports.quiet with quitSync2 := true } }) = some (.quit, 0x0300) := by decide
/-- Pending step `e` on a state. -/
def planned (s : State) (e : HostStep) : State := s.withPlan [e]

/-- The word `w` at PC, about to complete at an edge with pins `p`. -/
def completing (o : Bool) (w : Nat) (s : State) (p : Pins) : State :=
  planned (s.withFetchWord 16 w) (.clockExec o p)

/-- R203: the load wins over the decrement of its clock, and a read comes before it. -/
theorem test_load_beside_tick :
    seen (fun s => (s.dt, s.slots))
      (step { completing true 0xF115 { ready12 9 0 with dt := 5 } tickPins with slots := 0 }) = some (0x09, 0) := by decide
/-- R282: a pulse that comes while one is pending is lost, in the clock in which that one is taken too. -/
theorem test_pulse_beside_latched_tick_is_lost :
    seen (fun s => (s.dt, s.slots, s.pendingTick))
      (step (completing true 0xF30A { ready with dt := 5, pendingTick := true } tickPins)) = some (0x04, 1, false) := by
  decide
theorem test_read_beside_tick :
    seen (fun s => (s.reg 0x1, s.dt))
      (step (({ ready with dt := 5 } : State).withFetchWord 16 0xF107 |>.withPlan [.clockExec true tickPins])) =
      some (0x05, 0x04) := by decide
theorem test_reset_step :
    seen (fun s => (s.run, s.pc, s.readByte 0x200, s.readByte 0x201, s.stack))
      (step { ready.withPlan [.reset [0x12, 0x00]] with run := .faulted, stack := [0x0300] }) =
      some (.running, 0x0200, 0x12, 0x00, []) := by decide
theorem test_reset_is_well_formed : Memory.wf State.reset.cfg State.reset.mem = true := by decide

/-! ## Witnesses: states and operands that meet an obligation's hypotheses, clause by clause -/

/-- A full stack. -/
def full : State := { ready with stack := List.replicate 16 0x0204 }

theorem witness_AddStoresSumThenCarry : (0x1#4 : Nibble) ≠ 0xF ∧ (ready12 0xFF 0x02).reg 0x1 = 0xFF := by decide
theorem witness_SubStoresDifferenceThenNoBorrow : (0xE#4 : Nibble) ≠ 0xF ∧ (ready12 0x01 0x02).reg 0x2 = 0x02 := by
  decide
theorem witness_RandomByteIsDrawnAndMasked_presented :
    ({ ready with host := { ready.host with rnd := [0xA7] } } : State).host.rnd = 0xA7 :: [] := by decide
theorem witness_RandomByteIsDrawnAndMasked_free : ready.host.rnd = [] ∧ (0x00#8 : Byte) = 0 := by decide
theorem witness_ReturnPopsOrHalts_pops : full.stack = 0x0204 :: List.replicate 15 0x0204 := by decide
theorem witness_ReturnPopsOrHalts_halts : ready.stack = [] := by decide
theorem witness_CallPushesReturnAddressOrOverflows_pushes :
    ({ ready with stack := List.replicate 15 0x0204 } : State).stack.length ≠ ready.cfg.stackDepth := by decide
theorem witness_CallPushesReturnAddressOrOverflows_overflows : full.stack.length = full.cfg.stackDepth := by decide
theorem witness_ReturnResumesAfterTheCall : ready.stack.length ≠ ready.cfg.stackDepth := by decide

/-- `ready` with I as given. -/
def readyI (i : Word) : State := { ready with i := i }

theorem witness_BcdStoresThreeDigits_stores :
    Memory.wf (readyI 0x0FFD).cfg (readyI 0x0FFD).mem = true ∧ (readyI 0x0FFD).i.toNat + 2 < (readyI 0x0FFD).cfg.memSize := by decide
theorem witness_BcdStoresThreeDigits_faults :
    Memory.wf (readyI 0x0FFE).cfg (readyI 0x0FFE).mem = true ∧ (readyI 0x0FFE).cfg.memSize ≤ (readyI 0x0FFE).i.toNat + 2 := by decide
theorem witness_StoreWritesRegistersToMemory_stores :
    Memory.wf (readyI 0x0FF0).cfg (readyI 0x0FF0).mem = true ∧
    (readyI 0x0FF0).i.toNat + (0xF#4 : Nibble).toNat < (readyI 0x0FF0).cfg.memSize ∧
    (0xF#4 : Nibble).toNat ≤ (0xF#4 : Nibble).toNat := by decide
theorem witness_StoreWritesRegistersToMemory_faults :
    Memory.wf (readyI 0x0FF1).cfg (readyI 0x0FF1).mem = true ∧
    (readyI 0x0FF1).cfg.memSize ≤ (readyI 0x0FF1).i.toNat + (0xF#4 : Nibble).toNat := by decide
theorem witness_LoadReadsRegistersFromMemory_loads :
    (readyI 0x0FFF).i.toNat + (0x0#4 : Nibble).toNat < (readyI 0x0FFF).cfg.memSize ∧
    (0x0#4 : Nibble).toNat ≤ (0x0#4 : Nibble).toNat := by decide
theorem witness_LoadReadsRegistersFromMemory_faults :
    (readyI 0x1000).cfg.memSize ≤ (readyI 0x1000).i.toNat + (0x0#4 : Nibble).toNat := by decide
theorem witness_StoredBytesAreFetchedNext :
    Memory.wf (readyI 0x0201).cfg (readyI 0x0201).mem = true ∧
    (readyI 0x0201).i.toNat + (0x2#4 : Nibble).toNat < (readyI 0x0201).cfg.memSize ∧
    (0x2#4 : Nibble).toNat = (0x1#4 : Nibble).toNat + 1 ∧ (0x2#4 : Nibble).toNat ≤ (0x2#4 : Nibble).toNat ∧
    ((readyI 0x0201).pc + 2).toNat = (readyI 0x0201).i.toNat + (0x1#4 : Nibble).toNat := by decide

theorem witness_DrawXorsTheSprite_no_rows :
    (0x0#4 : Nibble) = 0 ∨ (readyI 0x1000).i.toNat + (0x0#4 : Nibble).toNat - 1 < (readyI 0x1000).cfg.memSize := by decide
theorem witness_DrawXorsTheSprite_last_rows :
    (0x2#4 : Nibble) = 0 ∨ (readyI 0x0FFE).i.toNat + (0x2#4 : Nibble).toNat - 1 < (readyI 0x0FFE).cfg.memSize := by decide
theorem witness_DrawXorsTheSprite_faults :
    (0x3#4 : Nibble) ≠ 0 ∧
    (readyI 0x0FFE).cfg.memSize ≤ (readyI 0x0FFE).i.toNat + (0x3#4 : Nibble).toNat - 1 := by decide
/-- The sprite of `drawState` meets a set pixel at column 6, row 5. -/
theorem witness_DrawXorsTheSprite_collision :
    ∃ r b, r < (0x1#4 : Nibble).toNat ∧ b < 8 ∧
      ({ drawState with fb := Vector.replicate 32 (-1) } : State).fb.pixel
        (Fin.ofNat 64 ((drawState.reg 0xF).toNat + b)) (Fin.ofNat 32 ((drawState.reg 0x1).toNat + r)) = true ∧
      (drawState.readByte (drawState.i.toNat + r)).getLsbD (7 - b) = true := ⟨0, 7, by decide⟩
theorem witness_DrawXorsTheSprite_no_collision :
    ∀ r b, r < (0x0#4 : Nibble).toNat → b < 8 →
      drawState.fb.pixel (Fin.ofNat 64 ((drawState.reg 0xF).toNat + b))
        (Fin.ofNat 32 ((drawState.reg 0x1).toNat + r)) = false ∨
      (drawState.readByte (drawState.i.toNat + r)).getLsbD (7 - b) = false := fun _ _ h => absurd h (by simp)
theorem witness_DrawingTwiceGivesTheScreenBack :
    (0x1#4 : Nibble) ≠ 0xF ∧ (0x2#4 : Nibble) ≠ 0xF ∧
    ((0x1#4 : Nibble) = 0 ∨ drawState.i.toNat + (0x1#4 : Nibble).toNat - 1 < drawState.cfg.memSize) := by decide
theorem witness_DrawingTwiceGivesTheScreenBack_empty :
    (∀ r b, r < (0x1#4 : Nibble).toNat → b < 8 →
      drawState.fb.pixel (Fin.ofNat 64 ((drawState.reg 0x1).toNat + b))
        (Fin.ofNat 32 ((drawState.reg 0x2).toNat + r)) = false) ∧
    ∃ r b, r < (0x1#4 : Nibble).toNat ∧ b < 8 ∧ (drawState.readByte (drawState.i.toNat + r)).getLsbD (7 - b) = true :=
  ⟨fun r b _ _ => by simp [drawState, ready, State.reset, Framebuffer.pixel, State.setReg, State.writeByte],
    ⟨0, 7, by decide⟩⟩

theorem witness_KeySkipsReadTheFlagOrFault_reads : ((ready.setReg 0x0 0x0F).reg 0x0).toNat ≤ 15 := by decide
theorem witness_KeySkipsReadTheFlagOrFault_faults : 15 < ((ready.setReg 0x0 0x10).reg 0x0).toNat := by decide
theorem witness_KeyEventEndsTheWait :
    (planned waiting (.key 0x9)).Plans (.key 0x9) [] ∧ (planned waiting (.key 0x9)).run = .waitKey := ⟨⟨rfl, rfl, rfl⟩, rfl⟩
theorem witness_KeyEventSetsItsOwnFlag_running :
    (planned ready (.key 0x9)).Plans (.key 0x9) [] ∧ (planned ready (.key 0x9)).run = .running := ⟨⟨rfl, rfl, rfl⟩, rfl⟩
theorem witness_KeyEventSetsItsOwnFlag_lost :
    (planned { ready with run := .halted } (.key 0x3)).Plans (.key 0x3) [] ∧
    (planned { ready with run := .halted } (.key 0x3)).run.terminal = true := ⟨⟨rfl, rfl, rfl⟩, rfl⟩

theorem witness_TickCountsAgesAndGivesSlots_running :
    (planned State.reset .tick).Plans .tick [] ∧ (planned State.reset .tick).CanTick := ⟨⟨rfl, rfl, rfl⟩, .inl ⟨rfl, rfl⟩⟩
theorem witness_TickCountsAgesAndGivesSlots_waiting :
    (planned waiting .tick).Plans .tick [] ∧ (planned waiting .tick).CanTick := ⟨⟨rfl, rfl, rfl⟩, .inr rfl⟩
theorem witness_TickCountsAgesAndGivesSlots_not_enabled :
    (planned ready .tick).Plans .tick [] ∧ ¬ (planned ready .tick).CanTick :=
  ⟨⟨rfl, rfl, rfl⟩, by unfold State.CanTick; decide⟩
theorem witness_EarlyTickIsLatched_latches :
    (planned ready .tick).Plans .tick [] ∧ (planned ready .tick).run = .running ∧ 0 < (planned ready .tick).slots :=
  ⟨⟨rfl, rfl, rfl⟩, rfl, by decide⟩
/-- A latched tick that is due, beside a key event the host plans. -/
def latched : State := { planned State.reset (.key 0x3) with pendingTick := true }
theorem witness_EarlyTickIsLatched_taken : latched.pendingTick = true ∧ latched.CanTick := ⟨rfl, .inl ⟨rfl, rfl⟩⟩
theorem witness_QuitEndsTheRun_quits :
    (planned waiting .quit).Plans .quit [] ∧ (planned waiting .quit).run = .waitKey := ⟨⟨rfl, rfl, rfl⟩, rfl⟩
theorem witness_QuitEndsTheRun_no_effect :
    (planned { ready with run := .load } .quit).Plans .quit [] ∧
    (planned { ready with run := .load } .quit).run = .load := ⟨⟨rfl, rfl, rfl⟩, rfl⟩
/-- Vectors R2 and R3: 3584 bytes fit, 3585 do not. -/
theorem witness_ResetGivesTheInitialState_fits :
    (planned full (.reset (List.replicate 3584 0x00))).Plans (.reset (List.replicate 3584 0x00)) [] ∧
    (List.replicate 3584 (0x00 : Byte)).length ≤
      (planned full (.reset (List.replicate 3584 0x00))).cfg.memSize - 0x200 :=
  ⟨⟨rfl, rfl, rfl⟩, by rw [List.length_replicate]; decide⟩
theorem witness_ResetGivesTheInitialState_too_long :
    (planned full (.reset (List.replicate 3585 0x00))).Plans (.reset (List.replicate 3585 0x00)) [] ∧
    (planned full (.reset (List.replicate 3585 0x00))).cfg.memSize - 0x200 < (List.replicate 3585 (0x00 : Byte)).length :=
  ⟨⟨rfl, rfl, rfl⟩, by rw [List.length_replicate]; decide⟩

/-- The clock edges of a two-byte load. -/
def loadEdges : List HostStep :=
  [.clock { Pins.low with rst := true },
   .clock { Pins.low with rst := true, ldValid := true, ldData := 0x12 },
   .clock { Pins.low with rst := true, ldValid := true, ldData := 0x00 },
   .clock Pins.low]

theorem witness_LoadPortStreamIsTheResetStep :
    (ready.withPlan loadEdges).run ≠ .load ∧ (ready.withPlan loadEdges).ports = Ports.quiet ∧
    (ready.withPlan loadEdges).latchedTickDue = false ∧
    (ready.withPlan loadEdges).host.steps =
      .clock { Pins.low with rst := true } ::
        ([0x12, 0x00].map (fun b => .clock { Pins.low with rst := true, ldValid := true, ldData := b }) ++
          .clock Pins.low :: []) := by decide

/-- JP 0x200 at the entry point. -/
def atJump : State := (ready.writeByte 0x200 0x12).writeByte 0x201 0x00

theorem witness_StepRunsTheDecodedInstruction :
    atJump.run = .running ∧ 0 < atJump.slots ∧ atJump.pc.toNat + 1 < atJump.cfg.memSize ∧
    decodeWord atJump.cfg.legacyUnimplemented (atJump.readByte atJump.pc.toNat ++ atJump.readByte (atJump.pc.toNat + 1)) =
      .ok (.jp 0x200) ∧
    atJump.ports.quitSync2 = false ∧ atJump.host.steps = [] := ⟨rfl, by decide, by decide, rfl, rfl, rfl⟩
theorem witness_StepRunsTheDecodedInstruction_planned :
    (planned atJump .exec).run = .running ∧ 0 < (planned atJump .exec).slots ∧
    (planned atJump .exec).pc.toNat + 1 < (planned atJump .exec).cfg.memSize ∧
    decodeWord (planned atJump .exec).cfg.legacyUnimplemented
      ((planned atJump .exec).readByte 0x200 ++ (planned atJump .exec).readByte 0x201) = .ok (.jp 0x200) ∧
    (planned atJump .exec).ports.quitSync2 = false ∧ (planned atJump .exec).host.steps = .exec :: [] :=
  ⟨rfl, by decide, by decide, rfl, rfl, rfl⟩
/-- PC at the last byte of memory. -/
def atEnd : State := { ready with pc := 0x0FFF }

theorem witness_FetchPastTheEndFaults : atEnd.NextIsExec ∧ atEnd.cfg.memSize ≤ atEnd.pc.toNat + 1 :=
  ⟨⟨rfl, by decide, rfl, .inl rfl⟩, by decide⟩
theorem witness_FetchPastTheEndFaults_planned :
    (planned atEnd .exec).NextIsExec ∧ (planned atEnd .exec).cfg.memSize ≤ (planned atEnd .exec).pc.toNat + 1 :=
  ⟨⟨rfl, by decide, rfl, .inr ⟨[], rfl⟩⟩, by decide⟩
theorem witness_UndecodableWordFaults_invalid :
    (planned ready .exec).NextIsExec ∧ (planned ready .exec).pc.toNat + 1 < (planned ready .exec).cfg.memSize ∧
    (0x0000 : Word) =
      (planned ready .exec).readByte (planned ready .exec).pc.toNat ++
        (planned ready .exec).readByte ((planned ready .exec).pc.toNat + 1) ∧
    decodeWord (planned ready .exec).cfg.legacyUnimplemented 0x0000 = .error .invalidOpcode :=
  ⟨⟨rfl, by decide, rfl, .inr ⟨[], rfl⟩⟩, by decide, by decide, rfl⟩

/-- Fx0A at the entry point of a block with LEGACY_UNIMPLEMENTED. -/
def legacyWait : State :=
  (({ ready with cfg := { defaultConfig with legacyUnimplemented := true } } : State).writeByte 0x200 0xF0).writeByte 0x201
    0x0A

theorem witness_UndecodableWordFaults_unimplemented :
    legacyWait.NextIsExec ∧ legacyWait.pc.toNat + 1 < legacyWait.cfg.memSize ∧
    (0xF00A : Word) = legacyWait.readByte legacyWait.pc.toNat ++ legacyWait.readByte (legacyWait.pc.toNat + 1) ∧
    decodeWord legacyWait.cfg.legacyUnimplemented 0xF00A = .error .unimplementedOpcode :=
  ⟨⟨rfl, by decide, rfl, .inl rfl⟩, by decide, by decide, rfl⟩
theorem witness_FaultsArePrecise :
    full.run ≠ .faulted ∧ exec (.call 0x300) full = .next (full.raise .stackOverflow 0x2300 0) ∧
    (full.raise .stackOverflow 0x2300 0).run = .faulted ∧
    (full.raise .stackOverflow 0x2300 0).fault.code ≠ .memoryRange := ⟨by decide, rfl, rfl, by decide⟩
theorem witness_BlockTicksWhenSlotsAreUsedUp : State.reset.PlansNothing ∧ State.reset.CanTick :=
  ⟨⟨rfl, rfl, rfl⟩, .inl ⟨rfl, rfl⟩⟩
theorem witness_BlockTicksWhenSlotsAreUsedUp_waiting : waiting.PlansNothing ∧ waiting.CanTick :=
  ⟨⟨rfl, rfl, rfl⟩, .inr rfl⟩
theorem witness_TerminalStatesAreFrozen :
    (planned { ready with run := .quit } (.clock tickPins)).run.terminal = true ∧
    (∀ img rest, (planned { ready with run := .quit } (.clock tickPins)).host.steps ≠ .reset img :: rest) ∧
    (∀ p rest, (planned { ready with run := .quit } (.clock tickPins)).host.steps = .clock p :: rest → p.rst = false) ∧
    (∀ o p rest,
      (planned { ready with run := .quit } (.clock tickPins)).host.steps = .clockExec o p :: rest → p.rst = false) := by
  refine ⟨rfl, fun img rest h => ?_, fun p rest h => ?_, fun o p rest h => ?_⟩
  · change [HostStep.clock tickPins] = _ at h
    cases h
  · change [HostStep.clock tickPins] = _ at h
    cases h
    rfl
  · change [HostStep.clock tickPins] = _ at h
    cases h
theorem witness_NoStepChangesTheParameters : step State.reset = .next State.reset.tickStep := rfl

/-- A key request that has passed both flip-flops. -/
def requested (s : State) : State := { s with ports := { Ports.quiet with keySync1 := true, keySync2 := true } }

/-- Pins with a request and its key code. -/
def keyPins : Pins := { Pins.low with keyReq := true, keyCode := 0x7 }

/-- A new request seen at the next edge, while running. -/
def newRequest : State := planned (requested ready) (.clock keyPins)

/-- A new request seen at the next edge, while waiting. -/
def newRequestWaiting : State := planned (requested waiting) (.clock keyPins)

theorem witness_PortFlipFlopsMoveAtEveryEdge :
    (planned (requested { ready with run := .halted }) (.clock keyPins)).Plans (.clock keyPins) [] ∧
    (HostStep.clock keyPins).IsEdge keyPins := ⟨⟨rfl, rfl, rfl⟩, .inl rfl⟩
theorem witness_PortFlipFlopsMoveAtEveryEdge_completing :
    (planned (requested ready) (.clockExec true keyPins)).Plans (.clockExec true keyPins) [] ∧
    (HostStep.clockExec true keyPins).IsEdge keyPins := ⟨⟨rfl, rfl, rfl⟩, .inr ⟨true, rfl⟩⟩
theorem witness_OneHandshakeIsOneKeyStep_running :
    newRequest.Plans (.clock keyPins) [] ∧ newRequest.run = .running ∧ keyPins.rst = false ∧ keyPins.tick = false ∧
    newRequest.ports.quitSync2 = false ∧ newRequest.ports.NewRequest := ⟨⟨rfl, rfl, rfl⟩, rfl, rfl, rfl, rfl, rfl, rfl⟩
theorem witness_OneHandshakeIsOneKeyStep_waiting :
    newRequestWaiting.Plans (.clock keyPins) [] ∧ newRequestWaiting.run = .waitKey ∧ keyPins.rst = false ∧
    keyPins.tick = false ∧ newRequestWaiting.ports.quitSync2 = false ∧ newRequestWaiting.ports.NewRequest :=
  ⟨⟨rfl, rfl, rfl⟩, rfl, rfl, rfl, rfl, rfl, rfl⟩
theorem witness_OneHandshakeIsOneKeyStep_not_taken :
    (planned ready (.clock Pins.low)).Plans (.clock Pins.low) [] ∧ (planned ready (.clock Pins.low)).run = .running ∧
    Pins.low.rst = false ∧ Pins.low.tick = false ∧ (planned ready (.clock Pins.low)).ports.quitSync2 = false ∧
    ¬ (planned ready (.clock Pins.low)).ports.NewRequest :=
  ⟨⟨rfl, rfl, rfl⟩, rfl, rfl, rfl, rfl, by unfold Ports.NewRequest; decide⟩

/-- An edge with `rst` = 1 and a new key request, on a state. -/
def resetPins : Pins := { keyPins with rst := true }

theorem witness_ResetEdgeTakesTheResetValues_first :
    (planned (requested full) (.clock resetPins)).Plans (.clock resetPins) [] ∧ resetPins.rst = true ∧
    resetPins.ldValid = false ∧ (planned (requested full) (.clock resetPins)).run ≠ .load :=
  ⟨⟨rfl, rfl, rfl⟩, rfl, rfl, by decide⟩
theorem witness_ResetEdgeTakesTheResetValues_later :
    (planned { ready with run := .load, ldCount := 2 } (.clock resetPins)).Plans (.clock resetPins) [] ∧
    resetPins.rst = true ∧ resetPins.ldValid = false ∧
    (planned { ready with run := .load, ldCount := 2 } (.clock resetPins)).run = .load := ⟨⟨rfl, rfl, rfl⟩, rfl, rfl, rfl⟩
theorem witness_TickPinIsOneTickStep_enabled :
    (planned waiting (.clock tickPins)).Plans (.clock tickPins) [] ∧ tickPins.rst = false ∧ tickPins.tick = true ∧
    (planned waiting (.clock tickPins)).ports.quitSync2 = false ∧
    ¬ (planned waiting (.clock tickPins)).ports.NewRequest ∧ (planned waiting (.clock tickPins)).CanTick :=
  ⟨⟨rfl, rfl, rfl⟩, rfl, rfl, rfl, by unfold Ports.NewRequest; decide, .inr rfl⟩
theorem witness_TickPinIsOneTickStep_latched :
    (planned ready (.clock tickPins)).Plans (.clock tickPins) [] ∧
    (planned ready (.clock tickPins)).ports.quitSync2 = false ∧
    ¬ (planned ready (.clock tickPins)).ports.NewRequest ∧ (planned ready (.clock tickPins)).run = .running ∧
    0 < (planned ready (.clock tickPins)).slots :=
  ⟨⟨rfl, rfl, rfl⟩, rfl, by unfold Ports.NewRequest; decide, rfl, by decide⟩

/-- A byte offered at an edge with `rst` = 1. -/
def bytePins : Pins := { resetPins with ldValid := true, ldData := 0x12 }

theorem witness_ResetEdgeTakesTheResetValues_first_byte :
    (planned full (.clock bytePins)).Plans (.clock bytePins) [] ∧ bytePins.rst = true ∧ bytePins.ldValid = true ∧
    (planned full (.clock bytePins)).run ≠ .load ∧ 0x200 < full.cfg.memSize :=
  ⟨⟨rfl, rfl, rfl⟩, rfl, rfl, by decide, by decide⟩

/-- In LOAD with `n` bytes accepted; 3584 is the whole capacity. -/
def loading (n : Nat) : State := planned { ready with run := .load, ldCount := n } (.clock bytePins)

theorem witness_ResetEdgeTakesTheResetValues_later_byte :
    (loading 3583).Plans (.clock bytePins) [] ∧ bytePins.ldValid = true ∧ (loading 3583).run = .load ∧
    Memory.wf (loading 3583).cfg (loading 3583).mem = true ∧
    (loading 3583).ldCount < (loading 3583).cfg.memSize - 0x200 :=
  ⟨⟨rfl, rfl, rfl⟩, rfl, rfl, rfl, by decide⟩
theorem witness_ResetEdgeTakesTheResetValues_byte_too_many :
    (loading 3584).Plans (.clock bytePins) [] ∧ bytePins.ldValid = true ∧ (loading 3584).run = .load ∧
    Memory.wf (loading 3584).cfg (loading 3584).mem = true ∧
    (loading 3584).cfg.memSize - 0x200 ≤ (loading 3584).ldCount :=
  ⟨⟨rfl, rfl, rfl⟩, rfl, rfl, rfl, by decide⟩

/-- Quit seen, on a state. -/
def quitSeen (s : State) : State := { s with ports := { Ports.quiet with quitSync2 := true } }

theorem witness_QuitSeenIsTakenAtTheNextStepBoundary_own :
    (quitSeen ready).ports.quitSync2 = true ∧ (quitSeen ready).run = .running ∧ (quitSeen ready).PlansNoEdge ∧
    (quitSeen ready).latchedTickDue = false :=
  ⟨rfl, rfl, fun _ _ h => (nomatch h), rfl⟩
theorem witness_QuitSeenIsTakenAtTheNextStepBoundary_planned :
    (planned (quitSeen waiting) (.key 0x9)).run = .waitKey ∧ (planned (quitSeen waiting) (.key 0x9)).PlansNoEdge ∧
    (planned (quitSeen waiting) (.key 0x9)).latchedTickDue = false := ⟨rfl, fun _ _ h => by cases h; rfl, rfl⟩
theorem witness_QuitSeenIsTakenAtTheNextStepBoundary_latched :
    (quitSeen latched).pendingTick = true ∧ (quitSeen latched).CanTick ∧ (quitSeen latched).PlansNoEdge :=
  ⟨rfl, .inl ⟨rfl, rfl⟩, fun _ _ h => by cases h; rfl⟩
theorem witness_QuitSeenIsTakenAtTheNextStepBoundary_edge :
    (quitSeen (planned ready (.clock tickPins))).Plans (.clock tickPins) [] ∧ tickPins.rst = false ∧
    (quitSeen (planned ready (.clock tickPins))).run = .running := ⟨⟨rfl, rfl, rfl⟩, rfl, rfl⟩

/-- V1 = 9, DT = 5 and one slot left. -/
def counting : State := { ready12 9 0 with dt := 5 }

/-- An Fx15 that shares the clock of the tick that gives its slot. -/
def loadBesideTick : State := { completing true 0xF115 counting tickPins with slots := 0 }

/-- An instruction word with the last slot, a latched pulse, and pins `p`. -/
def besideLatched (w : Nat) (p : Pins) : State := completing true w { counting with pendingTick := true } p

theorem witness_LoadWinsOverTheDecrementOfItsClock_load :
    loadBesideTick.Plans (.clockExec true tickPins) [] ∧ tickPins.rst = false ∧ loadBesideTick.run = .running ∧
    loadBesideTick.ports.quitSync2 = false ∧ ¬ loadBesideTick.ports.NewRequest ∧ loadBesideTick.fetch = .ok 0xF115 ∧
    decodeWord false 0xF115 = .ok (.ldDtVx 0x1) ∧ loadBesideTick.slots = 0 ∧ tickPins.tick = true ∧
    0 < loadBesideTick.cfg.ipt :=
  ⟨⟨rfl, rfl, rfl⟩, rfl, rfl, rfl, by unfold Ports.NewRequest; decide, rfl, rfl, rfl, rfl, by decide⟩
theorem witness_LoadWinsOverTheDecrementOfItsClock_latched_read :
    (besideLatched 0xF107 tickPins).Plans (.clockExec true tickPins) [] ∧
    ¬ (besideLatched 0xF107 tickPins).ports.NewRequest ∧ (besideLatched 0xF107 tickPins).slots = 1 ∧
    (besideLatched 0xF107 tickPins).pendingTick = true ∧ (besideLatched 0xF107 tickPins).fetch = .ok 0xF107 ∧
    decodeWord false 0xF107 = .ok (.ldVxDt 0x1) :=
  ⟨⟨rfl, rfl, rfl⟩, by unfold Ports.NewRequest; decide, rfl, rfl, rfl, rfl⟩
theorem witness_OverlappedClockIsASerialOrder_load :
    loadBesideTick.Plans (.clockExec true tickPins) [] ∧ loadBesideTick.fetch = .ok 0xF115 ∧
    decodeWord false 0xF115 = .ok (.ldDtVx 0x1) ∧ loadBesideTick.slots = 0 ∧ tickPins.tick = true :=
  ⟨⟨rfl, rfl, rfl⟩, rfl, rfl, rfl, rfl⟩
theorem witness_OverlappedClockIsASerialOrder_pulse :
    (completing true 0xF30A counting tickPins).Plans (.clockExec true tickPins) [] ∧
    (completing true 0xF30A counting tickPins).fetch = .ok 0xF30A ∧ decodeWord false 0xF30A = .ok (.ldVxK 0x3) ∧
    0 < (completing true 0xF30A counting tickPins).slots ∧
    (completing true 0xF30A counting tickPins).pendingTick = false ∧ tickPins.tick = true :=
  ⟨⟨rfl, rfl, rfl⟩, rfl, rfl, by decide, rfl, rfl⟩
theorem witness_OverlappedClockIsASerialOrder_latched :
    (besideLatched 0xF107 tickPins).Plans (.clockExec true tickPins) [] ∧ 0 < (besideLatched 0xF107 tickPins).slots ∧
    (besideLatched 0xF107 tickPins).pendingTick = true ∧
    exec (.ldVxDt 0x1) ((besideLatched 0xF107 tickPins).withPlan []) =
      .next ((((besideLatched 0xF107 tickPins).withPlan []).setReg 0x1 5).advance) ∧
    ((((besideLatched 0xF107 tickPins).withPlan []).setReg 0x1 5).advance).slotTaken.CanTick :=
  ⟨⟨rfl, rfl, rfl⟩, by decide, rfl, rfl, .inl ⟨rfl, rfl⟩⟩
theorem witness_EdgeCompletesTheInstructionFirst_plain :
    (planned waiting (.clockExec true tickPins)).Plans (.clockExec true tickPins) [] ∧
    (planned waiting (.clockExec true tickPins)).run ≠ .running := ⟨⟨rfl, rfl, rfl⟩, by decide⟩
/-- Fx0A completes beside a pulse that is latched, with a new key seen. -/
theorem witness_EdgeCompletesTheInstructionFirst_key :
    (completing false 0xF30A (requested ready) tickPins).Plans (.clockExec false tickPins) [] ∧ tickPins.rst = false ∧
    (completing false 0xF30A (requested ready) tickPins).run = .running ∧
    0 < (completing false 0xF30A (requested ready) tickPins).slots ∧
    (completing false 0xF30A (requested ready) tickPins).fetch = .ok 0xF30A ∧
    decodeWord false 0xF30A = .ok (.ldVxK 0x3) ∧
    (completing false 0xF30A (requested ready) tickPins).ports.quitSync2 = false ∧
    (completing false 0xF30A (requested ready) tickPins).ports.NewRequest :=
  ⟨⟨rfl, rfl, rfl⟩, rfl, rfl, by decide, rfl, rfl, rfl, rfl, rfl⟩
/-- RET on an empty stack completes beside a quit that is seen. -/
theorem witness_EdgeCompletesTheInstructionFirst_quit :
    (quitSeen (completing true 0x00EE ready Pins.low)).Plans (.clockExec true Pins.low) [] ∧ Pins.low.tick = false ∧
    (quitSeen (completing true 0x00EE ready Pins.low)).pendingTick = false ∧
    (quitSeen (completing true 0x00EE ready Pins.low)).fetch = .ok 0x00EE ∧
    decodeWord false 0x00EE = .ok .ret ∧ (quitSeen (completing true 0x00EE ready Pins.low)).ports.quitSync2 = true :=
  ⟨⟨rfl, rfl, rfl⟩, rfl, rfl, rfl, rfl, rfl⟩

/-- Vector K7: quit and a key seen at the next edge, while waiting, `p` being its pins. -/
def quitAndKey (p : Pins) : State :=
  { planned waiting (.clock p) with ports := { Ports.quiet with keySync2 := true, quitSync2 := true } }

theorem witness_SameClockOrderOfTickQuitKey_quit :
    (quitAndKey Pins.low).Plans (.clock Pins.low) [] ∧ Pins.low.rst = false ∧
    (quitAndKey Pins.low).ports.quitSync2 = true ∧ (quitAndKey Pins.low).run = .waitKey ∧ Pins.low.tick = false :=
  ⟨⟨rfl, rfl, rfl⟩, rfl, rfl, rfl, rfl⟩
theorem witness_SameClockOrderOfTickQuitKey_tick_and_quit :
    (quitAndKey tickPins).Plans (.clock tickPins) [] ∧ tickPins.rst = false ∧
    (quitAndKey tickPins).ports.quitSync2 = true ∧ (quitAndKey tickPins).CanTick ∧ tickPins.tick = true :=
  ⟨⟨rfl, rfl, rfl⟩, rfl, rfl, .inr rfl, rfl⟩

/-- Vector K9: a tick and a key seen at the next edge, `idle` = 59 of 60. -/
def tickAndKey (s : State) : State := { planned (requested s) (.clock tickPins) with idle := 59, keys := 0x0020 }

theorem witness_SameClockOrderOfTickQuitKey_tick_and_key :
    (tickAndKey State.reset).Plans (.clock tickPins) [] ∧ tickPins.rst = false ∧
    (tickAndKey State.reset).ports.NewRequest ∧ (tickAndKey State.reset).run = .running ∧
    (tickAndKey State.reset).slots = 0 ∧ (tickAndKey State.reset).ports.quitSync2 = false ∧ tickPins.tick = true :=
  ⟨⟨rfl, rfl, rfl⟩, rfl, ⟨rfl, rfl⟩, rfl, rfl, rfl, rfl⟩
theorem witness_SameClockOrderOfTickQuitKey_tick_and_key_waiting :
    (tickAndKey waiting).Plans (.clock tickPins) [] ∧ (tickAndKey waiting).ports.NewRequest ∧
    (tickAndKey waiting).run = .waitKey ∧ (tickAndKey waiting).ports.quitSync2 = false ∧ tickPins.tick = true :=
  ⟨⟨rfl, rfl, rfl⟩, ⟨rfl, rfl⟩, rfl, rfl, rfl⟩
theorem witness_OnlyNamedInstructionsWriteVF :
    exec (.ldImm 0xF 0x01) ready = .next (ready.setReg 0xF 0x01).advance ∧
    (ready.setReg 0xF 0x01).advance.reg 0xF ≠ ready.reg 0xF := ⟨rfl, by decide⟩
theorem witness_EachUnitHasItsOwnWriters_index :
    exec (.ldI 0x300) ready = .next (ready.setIndex 0x0300).advance ∧ (ready.setIndex 0x0300).advance.i ≠ ready.i :=
  ⟨rfl, by decide⟩
theorem witness_EachUnitHasItsOwnWriters_timer :
    exec (.ldDtVx 0x1) (ready12 5 0) = .next ((ready12 5 0).timerLoad 5).advance ∧
    ((ready12 5 0).timerLoad 5).advance.dt ≠ (ready12 5 0).dt := ⟨rfl, by decide⟩
theorem witness_EachUnitHasItsOwnWriters_sound :
    exec (.ldStVx 0x1) (ready12 5 0) = .next ({ ready12 5 0 with st := 5 } : State).advance ∧
    ({ ready12 5 0 with st := 5 } : State).advance.st ≠ (ready12 5 0).st := ⟨rfl, by decide⟩
theorem witness_EachUnitHasItsOwnWriters_stack :
    exec (.call 0x300) ready = .next ((ready.push 0x0202).setPc 0x0300) ∧
    ((ready.push 0x0202).setPc 0x0300).stack ≠ ready.stack := ⟨rfl, by decide⟩
theorem witness_EachUnitHasItsOwnWriters_display :
    seen State.fb (exec .cls { ready with fb := Vector.replicate 32 (-1) }) = some Framebuffer.clear ∧
    Framebuffer.clear ≠ ({ ready with fb := Vector.replicate 32 (-1) } : State).fb := ⟨rfl, by decide⟩
theorem witness_EachUnitHasItsOwnWriters_memory :
    seen State.mem (exec (.storeRegs 0x0) { ready.setReg 0x0 1 with i := 0x0300 }) = some [(0x300, 1)] ∧
    [((0x300 : Nat), (1 : Byte))] ≠ ready.mem := ⟨by decide, by decide⟩
theorem witness_DecodingAnEncodedInstructionGivesItBack :
    (Instr.skp 0xF).wellFormed false = true ∧ (Instr.sknp 0xF).wellFormed true = true := by decide
theorem witness_EncodingADecodedWordGivesItBack : decodeWord false 0x512F = .ok (.seReg 0x1 0x2 0xF) := rfl
theorem witness_InvalidWordsAreTheListedOnes :
    (0xDFFF#16 : Word).toNat / 4096 ∈ [1, 2, 3, 4, 5, 6, 7, 9, 0xA, 0xB, 0xC, 0xD] ∧
    (0x8006#16 : Word).toNat / 4096 = 8 ∧ 6 ≤ (0x8006#16 : Word).toNat % 16 := by decide
theorem witness_LegacyParameterRemovesThreeInstructions :
    decodeWord true 0xF055 ≠ .error .unimplementedOpcode := by
  rw [show decodeWord true 0xF055 = .ok (.storeRegs 0x0) from rfl]; exact fun h => nomatch h
theorem witness_EveryStepKeepsTheBlockLegal :
    State.reset.Inv ∧ step State.reset = .next State.reset.tickStep :=
  ⟨⟨by decide, rfl, by decide, by decide, fun _ => rfl, by decide, by decide, fun _ => rfl, fun h => (by cases h),
    fun h => (by cases h)⟩, rfl⟩

end Sys2Proof.Tests
end

section
/-! PROOFS. The parameters (spec/00_scope.md R8) are fixed: each operation, each agent's step and each instruction leaves
`State.cfg` as it is, and so does every step of the machine. -/

namespace Sys2Proof.Machine

variable (s : State)

/-! ## Shared operations -/

@[simp] theorem State.skipIf_cfg (c : Bool) : (s.skipIf c).cfg = s.cfg := by simp [State.skipIf_eq]

@[simp] theorem State.present_cfg (b : Blit) : (s.present b).cfg = s.cfg := rfl

@[simp] theorem State.withPlan_cfg (rest : List HostStep) : (s.withPlan rest).cfg = s.cfg := rfl

@[simp] theorem State.storeRange_cfg (n : Nat) (f : Nat → Byte) : (s.storeRange n f).cfg = s.cfg := by
  obtain ⟨m, e⟩ := s.storeRange_eq n f
  rw [e]

@[simp] theorem State.loadRange_cfg (n : Nat) : (s.loadRange n).cfg = s.cfg := by
  obtain ⟨v, e⟩ := s.loadRange_eq n
  rw [e]

/-- The range check keeps the parameters where the guarded work does. -/
theorem State.guardRange_cfg (n : Nat) (w : Word) (ok : State) (h : ok.cfg = s.cfg) :
    (s.guardRange n w ok).cfg = s.cfg := by
  rcases s.guardRange_cases n w ok with ⟨-, e⟩ | ⟨-, e⟩ <;> rw [e]
  · exact h
  · exact s.raise_cfg _ _ _

@[simp] theorem State.retire_cfg : s.retire.cfg = s.cfg := by
  unfold State.retire
  split <;> rfl

/-! ## Steps that are no instruction -/

@[simp] theorem State.tickStep_cfg : s.tickStep.cfg = s.cfg := by
  obtain ⟨_, -, e⟩ := s.tickStep_eq
  rw [e]

@[simp] theorem State.latchedTick_cfg : s.latchedTick.cfg = s.cfg := by simp [State.latchedTick]

@[simp] theorem State.tickPulse_cfg : s.tickPulse.cfg = s.cfg := by
  rcases s.tickPulse_cases with ⟨-, e⟩ | ⟨-, -, e⟩ | ⟨-, -, e⟩ <;> rw [e]
  exact s.tickStep_cfg

@[simp] theorem State.keyStep_cfg (k : Nibble) : (s.keyStep k).cfg = s.cfg := by
  rcases s.keyStep_cases k with ⟨-, e⟩ | ⟨-, e⟩ | ⟨-, -, e⟩ <;> rw [e]

@[simp] theorem State.quitStep_cfg : s.quitStep.cfg = s.cfg := by
  rcases s.quitStep_cases with ⟨-, e⟩ | ⟨-, -, e⟩ <;> rw [e]

/-! ## Reset and the load port -/

@[simp] theorem State.assertReset_cfg : s.assertReset.cfg = s.cfg := by
  unfold State.assertReset
  split <;> rfl

@[simp] theorem State.acceptByte_cfg (b : Byte) : (s.acceptByte b).cfg = s.cfg := by
  by_cases h : s.ldCount < imageCapacity s.cfg
  · rw [s.acceptByte_fits b h]
  · rw [s.acceptByte_full b h]

@[simp] theorem State.release_cfg : s.release.cfg = s.cfg := by
  unfold State.release
  split <;> rfl

theorem State.acceptBytes_cfg (img : List Byte) : (img.foldl State.acceptByte s).cfg = s.cfg := by
  induction img generalizing s with
  | nil => rfl
  | cons b rest ih => rw [List.foldl_cons, ih, State.acceptByte_cfg]

@[simp] theorem State.resetStep_cfg (img : List Byte) : (s.resetStep img).cfg = s.cfg := by
  rw [State.resetStep, State.release_cfg, State.acceptBytes_cfg]
  rfl

/-! ## Clock edges -/

@[simp] theorem State.resetPins_cfg (p : Pins) : (s.resetPins p).cfg = s.cfg := by
  unfold State.resetPins
  (repeat' split) <;> simp

@[simp] theorem State.tickPin_cfg (p : Pins) : (s.tickPin p).cfg = s.cfg := by
  cases h : p.tick <;> simp [h]

@[simp] theorem State.tickBeside_cfg (p : Pins) : (s.tickBeside p).cfg = s.cfg := by
  unfold State.tickBeside
  split <;> simp

@[simp] theorem State.quitPin_cfg : s.quitPin.cfg = s.cfg := by
  cases h : s.ports.quitSync2 <;> simp [h]

@[simp] theorem State.quitAndKey_cfg (p : Pins) : (s.quitAndKey p).cfg = s.cfg := by
  rw [State.quitAndKey_eq]
  split <;> simp

@[simp] theorem State.clockEdge_cfg (p : Pins) : (s.clockEdge p).cfg = s.cfg := by simp [State.clockEdge]

/-! ## Instructions -/

/-- An instruction writes its own destination, the program counter or the fault record, never a parameter. -/
theorem exec_cfg (i : Instr) (s t : State) (h : exec i s = .next t) : t.cfg = s.cfg := by
  cases i with
  | ret =>
    simp only [exec, execRet] at h
    split at h <;> cases h <;> rfl
  | call nnn =>
    simp only [exec, execCall] at h
    split at h <;> cases h <;> rfl
  | skp x =>
    simp only [exec, execSkp] at h
    split at h <;> cases h <;> simp
  | sknp x =>
    simp only [exec, execSknp] at h
    split at h <;> cases h <;> simp
  | seImm x kk => cases h; exact s.skipIf_cfg _
  | sneImm x kk => cases h; exact s.skipIf_cfg _
  | seReg x y n => cases h; exact s.skipIf_cfg _
  | sneReg x y n => cases h; exact s.skipIf_cfg _
  | drw x y n => cases h; exact s.guardRange_cfg _ _ _ (by simp)
  | ldBVx x => cases h; exact s.guardRange_cfg _ _ _ (by simp)
  | storeRegs x => cases h; exact s.guardRange_cfg _ _ _ (by simp)
  | loadRegs x => cases h; exact s.guardRange_cfg _ _ _ (by simp)
  | _ => cases h; rfl

/-- An Exec step keeps the parameters: it raises a fault of fetch or decode, or is an instruction and its slot. -/
theorem State.execInstr_cfg (s t : State) (h : s.execInstr = .next t) : t.cfg = s.cfg := by
  rcases s.execInstr_cases with ⟨_, _, _, -, e⟩ | ⟨i, u, hu, e⟩ <;> rw [e] at h <;> cases h
  · exact s.raise_cfg _ _ _
  · rw [u.retire_cfg, exec_cfg i s u hu]

/-! ## One step -/

/-- Every step keeps the parameters, a reset included. -/
theorem step_cfg (s t : State) (h : step s = .next t) : t.cfg = s.cfg := by
  rcases step_cases s with ⟨-, e⟩ | ⟨-, e⟩ | ⟨u, hu, hstep⟩
  · rw [e] at h; cases h; exact s.latchedTick_cfg
  · rw [e] at h; cases h; exact s.quitStep_cfg
  · have hus : u.cfg = s.cfg := by
      rcases hu with rfl | ⟨rest, rfl⟩
      · rfl
      · exact s.withPlan_cfg rest
    rw [← hus]
    rcases hstep with ⟨-, e⟩ | e | ⟨-, e⟩ | e | ⟨k, e⟩ | e | ⟨img, e⟩ | ⟨p, e⟩ | ⟨p, v, -, hv, e⟩ | ⟨p, v, -, hv, e⟩ <;>
      rw [e] at h
    · exact u.execInstr_cfg t h
    · cases h; rfl
    · cases h; exact u.tickStep_cfg
    · cases h; exact u.tickPulse_cfg
    · cases h; exact u.keyStep_cfg k
    · cases h; exact u.quitStep_cfg
    · cases h; exact u.resetStep_cfg img
    · cases h; exact u.clockEdge_cfg p
    · cases h; rw [State.quitAndKey_cfg, State.tickBeside_cfg, u.execInstr_cfg v hv]
    · cases h; rw [State.quitAndKey_cfg, State.execInstr_cfg _ v hv, State.tickPin_cfg]

end Sys2Proof.Machine

/-- Settles O39: an Exec step, a step of the host or a clock edge, each keeps the parameters (R8, R20). -/
theorem noStepChangesTheParameters : Obligations.NoStepChangesTheParameters :=
  Sys2Proof.Machine.step_cfg
end

section
/-! PROOFS. What an instruction can do to the state, one constructor per kind of write: every claim about who writes what
(spec/10_state.md R20–R40) and the invariant's case for the Exec step follow from it. -/

namespace Sys2Proof

/-- The one V register that an instruction of a single plain result names as its destination (R83). -/
def Instr.destination : Instr → Option Nibble
  | .ldImm x _ => some x
  | .addImm x _ => some x
  | .ldReg x _ => some x
  | .orReg x _ => some x
  | .andReg x _ => some x
  | .xorReg x _ => some x
  | .rnd x _ => some x
  | .ldVxDt x => some x
  | _ => none

end Sys2Proof

namespace Sys2Proof.Machine

/-- `ExecEffect s i t`: the pieces of `s` that instruction `i` may have written to leave `t` (`exec_effect` ties it to
`exec`). -/
inductive ExecEffect (s : State) : Instr → State → Prop
  /-- A fatal condition: the fault is entered and nothing else is done (R241). -/
  | raise (i : Instr) (code : FaultCode) (w : Word) (a : Nat) (hcode : code ≠ .none) : ExecEffect s i (s.raise code w a)
  /-- RET on an empty stack (R120). -/
  | halt : ExecEffect s .ret (s.halt .halted)
  /-- RET on a stack that holds an address (R120). -/
  | pop (top : Word) (rest : List Word) (hstack : s.stack = top :: rest) :
      ExecEffect s .ret { s with pc := top, stack := rest }
  /-- CALL on a stack with room (R122). -/
  | push (nnn : Addr12) (target : Word) (hroom : s.stack.length ≠ s.cfg.stackDepth) :
      ExecEffect s (.call nnn) ((s.push (s.pc + 2)).setPc target)
  /-- Fx0A (R229). -/
  | wait (x : Nibble) : ExecEffect s (.ldVxK x) { s with run := .waitKey, wx := x, slots := 0 }
  /-- Jumps and skips (R121, R123–R127, R227, R228). -/
  | jump (i : Instr) (target : Word) : ExecEffect s i (s.setPc target)
  /-- One register result and no flag (R140–R145, R148, R204); RND moves the random port on (R49). -/
  | result (i : Instr) (x : Nibble) (b : Byte) (rnd : List Byte) (draws : Nat) (hdest : i.destination = some x) :
      ExecEffect s i (({ s with host := { s.host with rnd := rnd, draws := draws } } : State).setReg x b).advance
  /-- 8xy4 and 8xy5: a result and its flag (R146, R147). -/
  | flagged (i : Instr) (x : Nibble) (b flag : Byte) (hi : (∃ x y, i = .addReg x y) ∨ ∃ x y, i = .subReg x y) :
      ExecEffect s i (s.setRegThenFlag x b flag).advance
  /-- Fx65 writes V0 to Vx, so VF only where x = F (R165). -/
  | load (x : Nibble) (v : Vector Byte 16) (hflag : x ≠ vf → v[vf.toNat] = s.reg vf) :
      ExecEffect s (.loadRegs x) ({ s with v := v } : State).advance
  /-- Annn, Fx1E and Fx29 (R160–R162). -/
  | index (i : Instr) (w : Word) (hi : (∃ nnn, i = .ldI nnn) ∨ (∃ x, i = .addIVx x) ∨ ∃ x, i = .ldFVx x) :
      ExecEffect s i (s.setIndex w).advance
  /-- Fx33 and Fx55: a store inside `MEM_SIZE` (R163, R164). -/
  | store (i : Instr) (m : Memory) (hi : (∃ x, i = .ldBVx x) ∨ ∃ x, i = .storeRegs x)
      (hwf : Memory.wf s.cfg s.mem = true → Memory.wf s.cfg m = true) : ExecEffect s i ({ s with mem := m } : State).advance
  /-- CLS (R181). -/
  | clear : ExecEffect s .cls ({ s with fb := Framebuffer.clear } : State).emitFrame.advance
  /-- Dxyn (R182). -/
  | draw (x y n : Nibble) (b : Blit) : ExecEffect s (.drw x y n) (s.present b).advance
  /-- Fx15 (R205). -/
  | timer (x : Nibble) (b : Byte) : ExecEffect s (.ldDtVx x) (s.timerLoad b).advance
  /-- Fx18 (R206). -/
  | sound (x : Nibble) (b : Byte) : ExecEffect s (.ldStVx x) ({ s with st := b } : State).advance

variable {s t : State} {i : Instr}

/-- A guarded instruction has the effect of its work wherever its range exists, or raises MemoryRange (R166). -/
theorem ExecEffect.guardRange {count : Nat} {w : Word} {ok : State}
    (h : count = 0 ∨ s.i.toNat + count ≤ s.cfg.memSize → ExecEffect s i ok) :
    ExecEffect s i (s.guardRange count w ok) := by
  rcases s.guardRange_cases count w ok with ⟨hin, e⟩ | ⟨-, e⟩ <;> rw [e]
  · exact h hin
  · exact .raise i .memoryRange w _ (by decide)

theorem ExecEffect.skipIf (c : Bool) : ExecEffect s i (s.skipIf c) := by
  rw [State.skipIf_eq]
  exact .jump i _

/-- A store of several bytes inside `MEM_SIZE` is the effect of the two instructions that store. -/
theorem ExecEffect.storeRange {n : Nat} (f : Nat → Byte) (hi : (∃ x, i = .ldBVx x) ∨ ∃ x, i = .storeRegs x)
    (hin : n = 0 ∨ s.i.toNat + n ≤ s.cfg.memSize) : ExecEffect s i (s.storeRange n f).advance := by
  obtain ⟨m, hm⟩ := s.storeRange_eq n f
  have hwf : Memory.wf s.cfg s.mem = true → Memory.wf s.cfg m = true := fun hw => by
    simpa [hm] using (s.storeRange_spec n f hw hin).1
  rw [hm]
  exact .store i m hi hwf

/-- A load of V0 to Vx is the effect of Fx65. -/
theorem ExecEffect.loadRange (x : Nibble) : ExecEffect s (.loadRegs x) (s.loadRange (x.toNat + 1)).advance := by
  obtain ⟨v, hv⟩ := s.loadRange_eq (x.toNat + 1)
  have hflag : x ≠ vf → v[vf.toNat] = s.reg vf := fun hx => by
    have hreg := s.loadRange_reg (x.toNat + 1) (by omega) vf
    have hlt : ¬ vf.toNat < x.toNat + 1 := fun h =>
      hx (BitVec.eq_of_toNat_eq (by have : vf.toNat = 15 := rfl; omega))
    rw [if_neg hlt, hv] at hreg
    exact hreg
  rw [hv]
  exact .load x v hflag

/-- What an instruction answers is one of its effects. -/
theorem exec_effect (h : exec i s = .next t) : ExecEffect s i t := by
  cases i with
  | cls => cases h; exact .clear
  | ret =>
    simp only [exec, execRet] at h
    split at h <;> cases h
    · exact .halt
    · exact .pop _ _ ‹_›
  | jp nnn => cases h; exact .jump _ _
  | call nnn =>
    simp only [exec, execCall] at h
    split at h <;> cases h
    · exact .raise _ _ _ _ (by decide)
    · exact .push nnn _ ‹_›
  | seImm x kk => cases h; exact .skipIf _
  | sneImm x kk => cases h; exact .skipIf _
  | seReg x y n => cases h; exact .skipIf _
  | sneReg x y n => cases h; exact .skipIf _
  | jpV0 nnn => cases h; exact .jump _ _
  | addReg x y => cases h; exact .flagged _ x _ _ (.inl ⟨x, y, rfl⟩)
  | subReg x y => cases h; exact .flagged _ x _ _ (.inr ⟨x, y, rfl⟩)
  | ldI nnn => cases h; exact .index _ _ (.inl ⟨nnn, rfl⟩)
  | addIVx x => cases h; exact .index _ _ (.inr (.inl ⟨x, rfl⟩))
  | ldFVx x => cases h; exact .index _ _ (.inr (.inr ⟨x, rfl⟩))
  | drw x y n => cases h; exact .guardRange fun _ => .draw x y n _
  | ldBVx x => cases h; exact .guardRange (.storeRange _ (.inl ⟨x, rfl⟩))
  | storeRegs x => cases h; exact .guardRange (.storeRange _ (.inr ⟨x, rfl⟩))
  | loadRegs x => cases h; exact .guardRange fun _ => .loadRange x
  | skp x =>
    simp only [exec, execSkp] at h
    split at h <;> cases h
    · exact .raise _ _ _ _ (by decide)
    · exact .skipIf _
  | sknp x =>
    simp only [exec, execSknp] at h
    split at h <;> cases h
    · exact .raise _ _ _ _ (by decide)
    · exact .skipIf _
  | ldVxK x => cases h; exact .wait x
  | ldDtVx x => cases h; exact .timer x _
  | ldStVx x => cases h; exact .sound x _
  | rnd x kk => cases h; exact .result _ x _ _ _ rfl
  | ldImm x kk => cases h; exact .result _ x _ _ _ rfl
  | addImm x kk => cases h; exact .result _ x _ _ _ rfl
  | ldReg x y => cases h; exact .result _ x _ _ _ rfl
  | orReg x y => cases h; exact .result _ x _ _ _ rfl
  | andReg x y => cases h; exact .result _ x _ _ _ rfl
  | xorReg x y => cases h; exact .result _ x _ _ _ rfl
  | ldVxDt x => cases h; exact .result _ x _ _ _ rfl

/-! ## Who writes what -/

/-- VF changes with a flag, or as the destination of a result or a load (R22). -/
theorem ExecEffect.flag_writers (h : ExecEffect s i t) (hne : t.reg vf ≠ s.reg vf) :
    (∃ x y, i = .addReg x y) ∨ (∃ x y, i = .subReg x y) ∨ (∃ x y n, i = .drw x y n) ∨ i.destination = some vf ∨
      i = .loadRegs vf := by
  cases h with
  | flagged _ x b flag hi => exact hi.elim .inl fun hi => .inr (.inl hi)
  | draw x y n b => exact .inr (.inr (.inl ⟨x, y, n, rfl⟩))
  | result _ x b rnd draws hdest =>
    have hx : x = vf := by
      by_contra hx
      exact hne (State.setReg_reg_ne _ x vf b (Ne.symm hx))
    exact .inr (.inr (.inr (.inl (hx ▸ hdest))))
  | load x v hflag =>
    have hx : x = vf := by
      by_contra hx
      exact hne (hflag hx)
    exact .inr (.inr (.inr (.inr (hx ▸ rfl))))
  | _ => exact absurd rfl hne

/-- I is written by three instructions (R24). -/
theorem ExecEffect.index_writers (h : ExecEffect s i t) (hne : t.i ≠ s.i) :
    (∃ nnn, i = .ldI nnn) ∨ (∃ x, i = .addIVx x) ∨ ∃ x, i = .ldFVx x := by
  cases h with
  | index _ w hi => exact hi
  | _ => exact absurd rfl hne

/-- The stack is written by CALL and RET (R26). -/
theorem ExecEffect.stack_writers (h : ExecEffect s i t) (hne : t.stack ≠ s.stack) :
    (∃ nnn, i = .call nnn) ∨ i = .ret := by
  cases h with
  | push nnn _ _ => exact .inl ⟨nnn, rfl⟩
  | pop _ _ _ => exact .inr rfl
  | _ => exact absurd rfl hne

/-- DT is written by Fx15 (R27). -/
theorem ExecEffect.dt_writers (h : ExecEffect s i t) (hne : t.dt ≠ s.dt) : ∃ x, i = .ldDtVx x := by
  cases h with
  | timer x _ => exact ⟨x, rfl⟩
  | _ => exact absurd rfl hne

/-- ST is written by Fx18 (R28). -/
theorem ExecEffect.st_writers (h : ExecEffect s i t) (hne : t.st ≠ s.st) : ∃ x, i = .ldStVx x := by
  cases h with
  | sound x _ => exact ⟨x, rfl⟩
  | _ => exact absurd rfl hne

/-- The framebuffer is written by CLS and DRW (R32). -/
theorem ExecEffect.fb_writers (h : ExecEffect s i t) (hne : t.fb ≠ s.fb) : i = .cls ∨ ∃ x y n, i = .drw x y n := by
  cases h with
  | clear => exact .inl rfl
  | draw x y n _ => exact .inr ⟨x, y, n, rfl⟩
  | _ => exact absurd rfl hne

/-- Memory is written by Fx33 and Fx55 (R60). -/
theorem ExecEffect.mem_writers (h : ExecEffect s i t) (hne : t.mem ≠ s.mem) :
    (∃ x, i = .ldBVx x) ∨ ∃ x, i = .storeRegs x := by
  cases h with
  | store _ _ hi _ => exact hi
  | _ => exact absurd rfl hne

/-- No instruction writes KEYS, the idle counter, the load state, the pending-tick flag, the ports, the parameters or the
plan (R40, R225). -/
theorem ExecEffect.frame (h : ExecEffect s i t) :
    t.keys = s.keys ∧ t.idle = s.idle ∧ t.ldCount = s.ldCount ∧ t.loadErr = s.loadErr ∧
      t.pendingTick = s.pendingTick ∧ t.ports = s.ports ∧ t.cfg = s.cfg ∧ t.host.steps = s.host.steps := by
  cases h <;> exact ⟨rfl, rfl, rfl, rfl, rfl, rfl, rfl, rfl⟩

/-- The instructions whose plain destination is VF, listed (R22). -/
theorem eq_of_destination_vf (h : i.destination = some vf) :
    (∃ kk, i = .ldImm 0xF kk) ∨ (∃ kk, i = .addImm 0xF kk) ∨ (∃ y, i = .ldReg 0xF y) ∨ (∃ y, i = .orReg 0xF y) ∨
      (∃ y, i = .andReg 0xF y) ∨ (∃ y, i = .xorReg 0xF y) ∨ (∃ kk, i = .rnd 0xF kk) ∨ i = .ldVxDt 0xF := by
  cases i <;> simp_all [Instr.destination, vf]

end Sys2Proof.Machine

open Sys2Proof.Machine in
/-- Settles O44: VF changes with a flag of 8xy4, 8xy5 or Dxyn, or as the named destination (R22). -/
theorem onlyNamedInstructionsWriteVF : Obligations.OnlyNamedInstructionsWriteVF := by
  intro i s t h hne
  rcases (exec_effect h).flag_writers hne with hi | hi | hi | hdest | hload
  · exact .inl hi
  · exact .inr (.inl hi)
  · exact .inr (.inr (.inl hi))
  · have := eq_of_destination_vf hdest
    tauto
  · have : i = .loadRegs 0xF := hload
    tauto

open Sys2Proof.Machine in
/-- Settles O45: each unit's writers are read off the effects of the instructions. -/
theorem eachUnitHasItsOwnWriters : Obligations.EachUnitHasItsOwnWriters := by
  intro i s t h
  have e := exec_effect h
  exact ⟨e.index_writers, e.stack_writers, e.dt_writers, e.st_writers, e.fb_writers, e.mem_writers, e.frame⟩
end

section
/-! PROOFS. The invariant of the block (`State.Inv`): each operation of a step keeps it, so every step does, and it holds
right after reset. -/

namespace Sys2Proof.Machine

variable {s t : State}

/-! ## What the invariant says of a block that is at work -/

/-- A step that is taken while RUNNING or WAIT_KEY starts with no record and no load error (R241, R272). -/
theorem State.Inv.clean (h : s.Inv) (hr : s.run = .running ∨ s.run = .waitKey) :
    s.fault = FaultRecord.zero ∧ s.loadErr = false := by
  refine ⟨h.noRecord (by rcases hr with e | e <;> simp [e]), ?_⟩
  by_contra hle
  rcases h.loadErr (by simpa using hle) with e' | ⟨e', -⟩ <;> rcases hr with e | e <;> simp [e] at e'

/-- `IDLE_TICKS` is at least 1 (R8). -/
theorem State.Inv.idleTicks_pos (h : s.Inv) : 0 < s.cfg.idleTicks := by
  have hp := h.params
  simp only [Config.legal, Bool.and_eq_true, decide_eq_true_eq] at hp
  omega

/-! ## Updates that no clause of the invariant restricts -/

theorem State.Inv.withPlan (h : s.Inv) (rest : List HostStep) : (s.withPlan rest).Inv := { h with }

theorem State.Inv.setPorts (h : s.Inv) (p : Ports) : ({ s with ports := p } : State).Inv := { h with }

theorem State.Inv.setPending (h : s.Inv) (b : Bool) : ({ s with pendingTick := b } : State).Inv := { h with }

/-- PC may move while no record names it (R241). -/
theorem State.Inv.setPc (h : s.Inv) (hr : s.run ≠ .faulted) (w : Word) : (s.setPc w).Inv :=
  { h with record := fun e => absurd e hr }

theorem State.Inv.advance (h : s.Inv) (hr : s.run ≠ .faulted) : s.advance.Inv := h.setPc hr _

/-! ## Leaving RUNNING and WAIT_KEY -/

/-- Fault entry keeps the invariant: the record names the fault and the PC (R241). -/
theorem State.Inv.raise (h : s.Inv) (hr : s.run = .running ∨ s.run = .waitKey) {code : FaultCode}
    (hcode : code ≠ .none) (w : Word) (a : Nat) : (s.raise code w a).Inv :=
  { h with
    noRecord := fun e => absurd rfl e
    record := fun _ => ⟨hcode, rfl⟩
    loadErr := fun e => by simp [(h.clean hr).2] at e }

/-- A block at work may go to any other run state but FAULTED, with as few slots as it likes. -/
theorem State.Inv.setRun (h : s.Inv) (hr : s.run = .running ∨ s.run = .waitKey) {r : RunState} (hne : r ≠ .faulted)
    {n : Nat} (hn : n ≤ s.cfg.ipt) : ({ s with run := r, slots := n } : State).Inv :=
  { h with
    slots := hn
    noRecord := fun _ => (h.clean hr).1
    record := fun e => absurd e hne
    loadErr := fun e => by simp [(h.clean hr).2] at e }

/-! ## Exec -/

/-- Every effect of an instruction keeps the invariant: what it writes beside V, I, PC, the timers and the framebuffer is
a stack or a memory in range, or the run state. -/
theorem ExecEffect.inv {i : Instr} (e : ExecEffect s i t) (h : s.Inv) (hr : s.run = .running) : t.Inv := by
  have hnf : s.run ≠ .faulted := by simp [hr]
  cases e with
  | raise _ code w a hcode => exact h.raise (.inl hr) hcode w a
  | halt => exact h.setRun (.inl hr) (by decide) h.slots
  | wait x =>
    have hw := h.setRun (.inl hr) (r := .waitKey) (by decide) (Nat.zero_le _)
    exact { hw with }
  | pop top rest hstack =>
    have hlen : rest.length ≤ s.cfg.stackDepth := by
      have := h.stack
      rw [hstack, List.length_cons] at this
      omega
    have hp := h.setPc hnf top
    exact { hp with stack := hlen }
  | push nnn target hroom =>
    have hlen : s.stack.length + 1 ≤ s.cfg.stackDepth := by
      have := h.stack
      omega
    have hp := h.setPc hnf target
    exact { hp with stack := hlen }
  | store _ m _ hwf =>
    have hp := h.advance hnf
    exact { hp with memory := hwf h.memory }
  | jump _ target => exact h.setPc hnf target
  | _ =>
    have hp := h.advance hnf
    exact { hp with }

/-- Taking a slot keeps the invariant (R107). -/
theorem State.Inv.retire (h : s.Inv) : s.retire.Inv := by
  unfold State.retire
  split
  · exact { h with slots := (Nat.sub_le _ _).trans h.slots }
  · exact h

/-- An Exec step that is enabled keeps the invariant. -/
theorem State.Inv.execInstr (h : s.Inv) (he : s.execEnabled = true) (hst : s.execInstr = .next t) : t.Inv := by
  have hr : s.run = .running := by
    simp only [State.execEnabled, Bool.and_eq_true, decide_eq_true_eq] at he
    exact he.1
  rcases s.execInstr_cases with ⟨code, w, a, hcode, e⟩ | ⟨i, u, hu, e⟩ <;> rw [e] at hst <;> cases hst
  · exact h.raise (.inl hr) hcode w a
  · exact ((exec_effect hu).inv h hr).retire

/-! ## Tick, key and quit -/

/-- A Tick step keeps the counters in range and clears KEYS where `idle` arrives at `IDLE_TICKS` (R106, R222). -/
theorem State.Inv.tickStep (h : s.Inv) : s.tickStep.Inv := by
  have hidle : (if s.idle < s.cfg.idleTicks then s.idle + 1 else s.idle) ≤ s.cfg.idleTicks := by
    split
    · omega
    · exact h.idle
  obtain ⟨dt, -, e⟩ := s.tickStep_eq
  rw [e]
  exact { h with idle := hidle, aged := fun hi => if_pos hi, slots := le_rfl }

theorem State.Inv.latchedTick (h : s.Inv) : s.latchedTick.Inv := (h.setPending false).tickStep

theorem State.Inv.tickPulse (h : s.Inv) : s.tickPulse.Inv := by
  rcases s.tickPulse_cases with ⟨-, e⟩ | ⟨-, -, e⟩ | ⟨-, -, e⟩ <;> rw [e]
  · exact h.tickStep
  · exact h.setPending true
  · exact h

theorem State.Inv.tickPin (h : s.Inv) (p : Pins) : (s.tickPin p).Inv := by
  cases hp : p.tick
  · rwa [s.tickPin_low p hp]
  · rw [s.tickPin_high p hp]
    exact h.tickPulse

theorem State.Inv.tickBeside (h : s.Inv) (p : Pins) : (s.tickBeside p).Inv := by
  unfold State.tickBeside
  split
  · exact h.latchedTick
  · exact h.tickPin p

/-- A key may read pressed because its event restarts the idle interval (R221). -/
theorem State.Inv.keyEvent (h : s.Inv) (k : Nibble) : (s.keyEvent k).Inv :=
  { h with
    idle := Nat.zero_le _
    aged := fun e => absurd e (Nat.ne_of_lt h.idleTicks_pos) }

/-- The end of a wait: a register, PC, RUNNING, no slot (R230). -/
theorem State.Inv.completeWait (h : s.Inv) (hr : s.run = .waitKey) (k : Nibble) : (s.completeWait k).Inv := by
  have hrun := h.setRun (.inr hr) (r := .running) (by decide) (Nat.zero_le _)
  have hpc := hrun.advance (fun e => nomatch e)
  exact { hpc with }

theorem State.Inv.keyStep (h : s.Inv) (k : Nibble) : (s.keyStep k).Inv := by
  rcases s.keyStep_cases k with ⟨-, e⟩ | ⟨hr, e⟩ | ⟨-, -, e⟩ <;> rw [e]
  · exact h.keyEvent k
  · exact (h.keyEvent k).completeWait hr k
  · exact h

theorem State.Inv.quitStep (h : s.Inv) : s.quitStep.Inv := by
  rcases s.quitStep_cases with ⟨hr, e⟩ | ⟨-, -, e⟩ <;> rw [e]
  · exact h.setRun hr (by decide) h.slots
  · exact h

theorem State.Inv.quitPin (h : s.Inv) : s.quitPin.Inv := by
  cases hq : s.ports.quitSync2
  · rwa [s.quitPin_low hq]
  · rw [s.quitPin_high hq]
    exact h.quitStep

theorem State.Inv.quitAndKey (h : s.Inv) (p : Pins) : (s.quitAndKey p).Inv := by
  rw [State.quitAndKey_eq]
  refine State.Inv.setPorts ?_ _
  split
  · exact h.quitPin.keyStep p.keyCode
  · exact h.quitPin

/-! ## Reset and the load port -/

theorem State.Inv.resetRegisters (h : s.Inv) : s.resetRegisters.Inv :=
  { h with
    stack := Nat.zero_le _
    idle := le_rfl
    aged := fun _ => rfl
    slots := Nat.zero_le _
    noRecord := fun _ => rfl
    record := fun e => nomatch e
    loadErr := fun _ => .inl rfl }

theorem State.Inv.clearLoad (h : s.Inv) : s.clearLoad.Inv :=
  { h with memory := rfl, loaded := Nat.zero_le _, loadErr := fun e => nomatch e }

theorem State.Inv.assertReset (h : s.Inv) : s.assertReset.Inv := by
  unfold State.assertReset
  split
  · exact h.resetRegisters
  · exact h.resetRegisters.clearLoad

@[simp] theorem State.assertReset_run (s : State) : s.assertReset.run = .load := by
  unfold State.assertReset
  split <;> rfl

@[simp] theorem State.acceptByte_run (s : State) (b : Byte) : (s.acceptByte b).run = s.run := by
  unfold State.acceptByte
  split <;> rfl

/-- In LOAD a byte is stored inside `MEM_SIZE` and counted, or only the error is noted (R52). -/
theorem State.Inv.acceptByte (h : s.Inv) (hr : s.run = .load) (b : Byte) : (s.acceptByte b).Inv := by
  by_cases hfit : s.ldCount < imageCapacity s.cfg
  · have haddr : loadAddress + s.ldCount < s.cfg.memSize := by
      unfold imageCapacity at hfit
      omega
    rw [s.acceptByte_fits b hfit]
    exact { h with memory := Memory.write_wf _ _ _ _ haddr h.memory, loaded := hfit }
  · rw [s.acceptByte_full b hfit]
    exact { h with loadErr := fun _ => .inl hr }

/-- A stream of bytes keeps the invariant and the run state LOAD. -/
theorem State.Inv.acceptBytes (img : List Byte) (h : s.Inv) (hr : s.run = .load) :
    (img.foldl State.acceptByte s).Inv ∧ (img.foldl State.acceptByte s).run = .load := by
  induction img generalizing s with
  | nil => exact ⟨h, hr⟩
  | cons b rest ih =>
    rw [List.foldl_cons]
    exact ih (h.acceptByte hr b) (by rw [State.acceptByte_run, hr])

/-- The release leaves LOAD for RUNNING without a load error, or for a ProgramLoad fault (R247, R272). -/
theorem State.Inv.release (h : s.Inv) (hr : s.run = .load) : s.release.Inv := by
  unfold State.release
  split
  · exact { h with
      noRecord := fun e => absurd rfl e
      record := fun _ => ⟨(fun e => nomatch e), rfl⟩
      loadErr := fun _ => .inr ⟨rfl, rfl⟩ }
  · exact { h with
      slots := Nat.zero_le _
      noRecord := fun _ => h.noRecord (by simp [hr])
      record := fun e => nomatch e
      loadErr := fun e => absurd e ‹_› }

theorem State.Inv.resetStep (h : s.Inv) (img : List Byte) : (s.resetStep img).Inv := by
  obtain ⟨hinv, hr⟩ := h.resetRegisters.clearLoad.acceptBytes img rfl
  exact hinv.release hr

theorem State.Inv.resetPins (h : s.Inv) (p : Pins) : (s.resetPins p).Inv := by
  unfold State.resetPins
  split
  · split
    · exact h.assertReset.acceptByte s.assertReset_run p.ldData
    · exact h.assertReset
  · split
    · exact h.release ‹_›
    · exact h

/-! ## One step -/

theorem State.Inv.clockEdge (h : s.Inv) (p : Pins) : (s.clockEdge p).Inv := ((h.resetPins p).tickPin p).quitAndKey p

/-- Every step keeps the invariant: each of the steps it can be is made of operations that do. -/
theorem step_inv (h : s.Inv) (hst : step s = .next t) : t.Inv := by
  rcases step_cases s with ⟨-, e⟩ | ⟨-, e⟩ | ⟨u, hu, hstep⟩
  · rw [e] at hst; cases hst; exact h.latchedTick
  · rw [e] at hst; cases hst; exact h.quitStep
  · have hui : u.Inv := by
      rcases hu with rfl | ⟨rest, rfl⟩
      · exact h
      · exact h.withPlan rest
    rcases hstep with ⟨he, e⟩ | e | ⟨-, e⟩ | e | ⟨k, e⟩ | e | ⟨img, e⟩ | ⟨p, e⟩ | ⟨p, v, he, hv, e⟩ |
      ⟨p, v, he, hv, e⟩ <;> rw [e] at hst
    · exact hui.execInstr he hst
    · cases hst; exact hui
    · cases hst; exact hui.tickStep
    · cases hst; exact hui.tickPulse
    · cases hst; exact hui.keyStep k
    · cases hst; exact hui.quitStep
    · cases hst; exact hui.resetStep img
    · cases hst; exact hui.clockEdge p
    · cases hst; exact ((hui.execInstr he hv).tickBeside p).quitAndKey p
    · cases hst; exact ((hui.tickPin p).execInstr he hv).quitAndKey p

/-- The reset state meets every clause: counters in range, no key pressed, no record and no load error. -/
theorem State.reset_inv : State.reset.Inv where
  params := by decide
  memory := rfl
  stack := Nat.zero_le _
  idle := le_rfl
  aged := fun _ => rfl
  slots := Nat.zero_le _
  loaded := Nat.zero_le _
  noRecord := fun _ => rfl
  record := fun e => nomatch e
  loadErr := fun e => nomatch e

end Sys2Proof.Machine

/-- Settles O51: `step_cases` lists what a step can be, and each operation of it keeps the invariant. -/
theorem everyStepKeepsTheBlockLegal : Obligations.EveryStepKeepsTheBlockLegal :=
  fun _ _ => Sys2Proof.Machine.step_inv

/-- Settles O52, clause by clause of the invariant. -/
theorem resetStateIsLegal : Obligations.ResetStateIsLegal := Sys2Proof.Machine.State.reset_inv
end

section
/-! PROOFS. The status word and the framebuffer output (spec/10_state.md R41, R50). -/

namespace Sys2Proof.Machine

/-- The value of two words side by side. -/
theorem toNat_append_add {m n : Nat} (a : BitVec m) (b : BitVec n) : (a ++ b).toNat = 2 ^ n * a.toNat + b.toNat := by
  rw [BitVec.toNat_append, ← Nat.shiftLeft_add_eq_or_of_lt b.isLt, Nat.shiftLeft_eq, Nat.mul_comm]

/-- STATUS as the sum of its fields at their places (R41). -/
theorem State.status_toNat (s : State) :
    s.status.toNat = s.run.bits.toNat + 8 * s.fault.code.bits.toNat + 128 * s.loadErr.toNat + 256 * s.wx.toNat := by
  simp only [State.status, toNat_append_add, BitVec.toNat_ofBool, BitVec.toNat_ofNat]
  omega

/-- Rows of 64 bits packed end to end: bit `64 * y + x` is bit `x` of row `y`. -/
theorem testBit_packRows (rows : List (BitVec 64)) (x y : Nat) (hx : x < 64) (hy : y < rows.length) :
    (packRows rows).testBit (64 * y + x) = rows[y].getLsbD x := by
  induction rows generalizing y with
  | nil => simp at hy
  | cons row rest ih =>
    have hrow : row.toNat < 2 ^ 64 := row.isLt
    rw [packRows, Nat.add_comm, Nat.testBit_two_pow_mul_add _ hrow]
    cases y with
    | zero => simp [hx, BitVec.testBit_toNat]
    | succ y =>
      rw [if_neg (by omega), show 64 * (y + 1) + x - 64 = 64 * y + x by omega]
      exact ih y (by simpa using hy)

/-- Bit `64 * y + x` of `fb_out` is the pixel in column `x` of row `y` (R50). -/
theorem State.fbOut_getLsbD (s : State) (x : Fin 64) (y : Fin 32) :
    s.fbOut.getLsbD (64 * y.val + x.val) = s.fb.pixel x y := by
  have hbit := testBit_packRows s.fb.toList x.val y.val x.isLt (by simp)
  have hin : 64 * y.val + x.val < 2048 := by omega
  rw [State.fbOut, BitVec.getLsbD_ofNat, hbit]
  simp [hin, Framebuffer.pixel]

end Sys2Proof.Machine

/-- Settles O42: the fields side by side are a sum, and each encoding is the number the rule gives (R34, R37, R41). -/
theorem statusWordHasItsLayout : Obligations.StatusWordHasItsLayout := by
  intro s
  rw [s.status_toNat]
  congr 2
  · congr 1
    · cases s.run <;> rfl
    · cases s.fault.code <;> rfl
  · cases s.loadErr <;> rfl

/-- Settles O43: the rows stand end to end in the output, row 0 lowest (R50). -/
theorem framebufferOutputHasItsLayout : Obligations.FramebufferOutputHasItsLayout :=
  Sys2Proof.Machine.State.fbOut_getLsbD
end

section
/-! PROOFS. Clock edges: an edge at which no quit is seen and no key is new, with a pulse on `tick` (spec/10_state.md R46);
and a load through the port, edge by edge, as one Reset step (R52, spec/70_reset_and_hazards.md R271, R272). -/

namespace Sys2Proof.Machine

variable (s : State)

/-- The port flip-flops after an edge at which they held `q` (R48, R224). -/
def Ports.shifted (q : Ports) (p : Pins) : Ports :=
  { keySync1 := p.keyReq, keySync2 := q.keySync1, keyAck := q.keySync2, quitSync1 := p.quit, quitSync2 := q.quitSync1 }

/-- A planned edge that no latched tick precedes is the next step (R249: no quit comes before it as a step). -/
theorem step_of_planned_edge (p : Pins) (rest : List HostStep) (h : s.host.steps = .clock p :: rest)
    (hl : s.latchedTickDue = false) : step s = .next ((s.withPlan rest).clockEdge p) :=
  step_of_plans s _ rest h hl (s.quitDue_of_edge _ rest h rfl)

/-- Where no quit is seen and no key is new, the end of an edge only moves the flip-flops on. -/
theorem State.quitAndKey_idle (p : Pins) (hq : s.ports.quitSync2 = false) (hk : ¬ s.ports.NewRequest) :
    s.quitAndKey p = { s with ports := s.ports.shifted p } := by
  have hnew : (s.ports.keySync2 && !s.ports.keyAck) = false := by
    rw [Bool.eq_false_iff]
    intro e
    exact hk (by simpa [Ports.NewRequest] using e)
  rw [State.quitAndKey_eq, s.quitPin_low hq, hnew]
  rfl

/-! ## A pulse on `tick` -/

/-- Outside a reset period, with no quit seen and no new key, an edge with a pulse is that pulse and the flip-flops' move. -/
theorem State.clockEdge_pulse (p : Pins) (hrst : p.rst = false) (htick : p.tick = true) (hrun : s.run ≠ .load)
    (hq : s.ports.quitSync2 = false) (hk : ¬ s.ports.NewRequest) :
    s.clockEdge p = { s.tickPulse with ports := s.ports.shifted p } := by
  have hports : s.tickPulse.ports = s.ports := by
    rw [← s.tickPin_high p htick]
    exact (s.tickPin_ports p).1
  rw [State.clockEdge, s.resetPins_low p hrst hrun, s.tickPin_high p htick,
    State.quitAndKey_idle _ p (by rw [hports]; exact hq) (by rw [hports]; exact hk), hports]

/-- A pulse where a Tick step is enabled is that step, with the values of R106. -/
theorem State.tickPulse_of_canTick (h : s.CanTick) :
    ∃ dt, dt.toNat = s.dt.toNat - 1 ∧
      s.tickPulse = { s with dt := dt, idle := s.agedIdle, keys := s.agedKeys, slots := s.cfg.ipt } := by
  obtain ⟨dt, hdt, e⟩ := s.tickStep_eq
  have hen : s.tickEnabled = true := s.tickEnabled_iff.2 h
  refine ⟨dt, hdt, ?_⟩
  rw [State.tickPulse, if_pos hen, e]
  rfl

/-- A pulse while RUNNING with slots left is latched (R282). -/
theorem State.tickPulse_of_slots (hrun : s.run = .running) (hslots : 0 < s.slots) :
    s.tickPulse = { s with pendingTick := true } := by
  rw [← s.tickPin_high { Pins.low with tick := true } rfl,
    s.tickPin_latches _ (by simp [State.execEnabled, hrun, hslots]), Bool.or_true]

/-- The pieces that a Tick step at an edge changes. -/
theorem changesOnly_tickAtEdge (steps : List HostStep) (dt : Byte) (idle : Nat) (keys : BitVec 16) (slots : Nat)
    (q : Ports) :
    ChangesOnly (· ∈ [.dt, .idle, .keys, .slots, .ports, .plan]) s
      { s.withPlan steps with dt := dt, idle := idle, keys := keys, slots := slots, ports := q } := by
  intro piece hp
  cases piece with
  | dt => simp at hp
  | idle => simp at hp
  | keys => simp at hp
  | slots => simp at hp
  | ports => simp at hp
  | plan => simp at hp
  | _ => rfl

/-- The pieces that a pulse latched at an edge changes. -/
theorem changesOnly_latchAtEdge (steps : List HostStep) (q : Ports) :
    ChangesOnly (· ∈ [.pendingTick, .ports, .plan]) s { s.withPlan steps with pendingTick := true, ports := q } := by
  intro piece hp
  cases piece with
  | pendingTick => simp at hp
  | ports => simp at hp
  | plan => simp at hp
  | _ => rfl

/-! ## A load through the port -/

/-- A run takes its first step and goes on. -/
theorem run_succ_of_step {M : Host.Core} {u t : M.State} (k : Nat) (h : M.step u = .next t) :
    M.run (k + 1) u = M.run k t := by
  rw [Host.Core.run, h]

/-- The pins of an edge with `rst` = 1 that offers no byte. -/
def Pins.inReset : Pins := { Pins.low with rst := true }

/-- The pins of an edge with `rst` = 1 that offers `b` to the load port (R52). -/
def Pins.offering (b : Byte) : Pins := { Pins.low with rst := true, ldValid := true, ldData := b }

/-- The block inside a reset period with nothing in its synchronizers: an edge with `rst` = 1 finds every register at its
reset value already (R270). -/
structure State.InLoad (s : State) : Prop where
  registers : s.resetRegisters = s
  ports : s.ports = Ports.quiet

/-- With nothing in the synchronizers and low key and quit pins, the end of an edge changes nothing. -/
theorem State.quitAndKey_quiet (p : Pins) (hs : s.ports = Ports.quiet) (hkey : p.keyReq = false)
    (hquit : p.quit = false) : s.quitAndKey p = s := by
  have hshift : s.ports.shifted p = s.ports := by rw [hs, Ports.shifted, hkey, hquit]; rfl
  rw [s.quitAndKey_idle p (by rw [hs]; rfl) (by rw [hs]; exact fun h => nomatch h.1), hshift]

/-- The load port takes a byte whatever the plan is. -/
theorem State.acceptByte_withPlan (b : Byte) (l : List HostStep) :
    (s.withPlan l).acceptByte b = (s.acceptByte b).withPlan l := by
  by_cases h : s.ldCount < imageCapacity s.cfg
  · rw [s.acceptByte_fits b h, (s.withPlan l).acceptByte_fits b h]
    rfl
  · rw [s.acceptByte_full b h, (s.withPlan l).acceptByte_full b h]
    rfl

/-- The first edge of a reset period resets every register, memory and the load state (R270, R271). -/
theorem State.clockEdge_inReset (hrun : s.run ≠ .load) (hs : s.ports = Ports.quiet) :
    s.clockEdge Pins.inReset = s.resetRegisters.clearLoad := by
  have hreset : s.resetPins Pins.inReset = s.resetRegisters.clearLoad := if_neg hrun
  rw [State.clockEdge, hreset, State.tickPin_low _ _ rfl,
    State.quitAndKey_quiet s.resetRegisters.clearLoad _ hs rfl rfl]

/-- The step that is the first edge of a planned reset period. -/
theorem step_first_edge (l : List HostStep) (hrun : s.run ≠ .load) (hs : s.ports = Ports.quiet)
    (hl : s.latchedTickDue = false) (hsteps : s.host.steps = .clock Pins.inReset :: l) :
    step s = .next (s.resetRegisters.clearLoad.withPlan l) := by
  rw [step_of_planned_edge s Pins.inReset l hsteps hl]
  exact congrArg Host.Outcome.next ((s.withPlan l).clockEdge_inReset hrun hs)

namespace State.InLoad

variable {s : State}

theorem run_eq (h : s.InLoad) : s.run = .load := (congrArg State.run h.registers).symm

theorem latchedTickDue (h : s.InLoad) : s.latchedTickDue = false := by
  have hp : s.pendingTick = false := (congrArg State.pendingTick h.registers).symm
  rw [State.latchedTickDue, hp, Bool.false_and]

theorem withPlan (h : s.InLoad) (l : List HostStep) : (s.withPlan l).InLoad :=
  ⟨congrArg (State.withPlan · l) h.registers, h.ports⟩

/-- A byte changes memory and the load state only. -/
theorem acceptByte (h : s.InLoad) (b : Byte) : (s.acceptByte b).InLoad := by
  by_cases hfit : s.ldCount < imageCapacity s.cfg
  · rw [s.acceptByte_fits b hfit]
    exact ⟨congrArg (fun t : State =>
      { t with mem := Memory.write s.cfg s.mem (loadAddress + s.ldCount) b, ldCount := s.ldCount + 1 }) h.registers,
      h.ports⟩
  · rw [s.acceptByte_full b hfit]
    exact ⟨congrArg (fun t : State => { t with loadErr := true }) h.registers, h.ports⟩

/-- A later edge of a reset period that offers a byte takes it and does nothing else (R52). -/
theorem clockEdge_offering (h : s.InLoad) (b : Byte) : s.clockEdge (Pins.offering b) = s.acceptByte b := by
  have hassert : s.assertReset = s := (if_pos h.run_eq).trans h.registers
  have hreset : s.resetPins (Pins.offering b) = s.acceptByte b := by
    simp [State.resetPins, Pins.offering, hassert]
  rw [State.clockEdge, hreset, State.tickPin_low _ _ rfl, State.quitAndKey_quiet _ _ (h.acceptByte b).ports rfl rfl]

/-- The edge that releases `rst` does nothing else (R272). -/
theorem clockEdge_low (h : s.InLoad) : s.clockEdge Pins.low = s.release := by
  have hreset : s.resetPins Pins.low = s.release := if_pos h.run_eq
  have hports : s.release.ports = Ports.quiet := by
    rw [← hreset, (s.resetPins_ports _).1, h.ports]
  rw [State.clockEdge, hreset, State.tickPin_low _ _ rfl, State.quitAndKey_quiet _ _ hports rfl rfl]

/-- In a reset period a planned edge is the next step. -/
theorem step_edge (h : s.InLoad) (p : Pins) (l : List HostStep) :
    step (s.withPlan (.clock p :: l)) = .next ((s.withPlan l).clockEdge p) :=
  step_of_planned_edge _ p l rfl (h.withPlan _).latchedTickDue

/-- The edges of a stream and the release leave what the bytes, taken one by one, and the release leave. -/
theorem run_stream (h : s.InLoad) (img : List Byte) (rest : List HostStep) :
    Sys2Proof.core.run (img.length + 1)
        (s.withPlan (img.map (fun b => .clock (Pins.offering b)) ++ .clock Pins.low :: rest)) =
      .next (img.foldl State.acceptByte (s.withPlan rest)).release := by
  induction img generalizing s with
  | nil =>
    have hstep := h.step_edge Pins.low rest
    rw [(h.withPlan rest).clockEdge_low] at hstep
    exact run_succ_of_step (M := core) 0 hstep
  | cons b img ih =>
    have hstep := h.step_edge (Pins.offering b)
      (img.map (fun b => .clock (Pins.offering b)) ++ .clock Pins.low :: rest)
    rw [(h.withPlan _).clockEdge_offering b, State.acceptByte_withPlan] at hstep
    have hrest := ih (h.acceptByte b)
    rw [← State.acceptByte_withPlan s b rest] at hrest
    rw [List.map_cons, List.cons_append, List.length_cons, List.foldl_cons]
    exact (run_succ_of_step (M := core) _ hstep).trans hrest

end State.InLoad

/-- The state after the first edge of a reset period is one to load into. -/
theorem State.inLoad_clearLoad (hs : s.ports = Ports.quiet) : s.resetRegisters.clearLoad.InLoad := ⟨rfl, hs⟩

end Sys2Proof.Machine

open Sys2Proof.Machine in
/-- Settles O56: the edge is the pulse alone, a Tick step (R106) or the latched flag (R282). -/
theorem tickPinIsOneTickStep : Obligations.TickPinIsOneTickStep := by
  intro s p rest hplan hrst htick hq hk
  obtain ⟨hsteps, hl, -⟩ := hplan
  have hstep := step_of_planned_edge s p rest hsteps hl
  refine ⟨fun hcan => ?_, fun hrun hslots => ?_⟩
  · have hnl : s.run ≠ .load := by rcases hcan with ⟨e, -⟩ | e <;> simp [e]
    obtain ⟨dt, hdt, e⟩ := (s.withPlan rest).tickPulse_of_canTick hcan
    rw [State.clockEdge_pulse (s.withPlan rest) p hrst htick hnl hq hk, e] at hstep
    exact ⟨_, hstep, ⟨hdt, rfl, rfl, rfl⟩, changesOnly_tickAtEdge s rest dt _ _ _ _⟩
  · have hnl : s.run ≠ .load := by simp [hrun]
    rw [State.clockEdge_pulse (s.withPlan rest) p hrst htick hnl hq hk,
      (s.withPlan rest).tickPulse_of_slots hrun hslots] at hstep
    exact ⟨_, hstep, rfl, changesOnly_latchAtEdge s rest _⟩

open Sys2Proof.Machine in
/-- Settles O31: the first edge clears, each byte's edge is one byte taken, and the last edge releases, as R110's Reset
step does at once. -/
theorem loadPortStreamIsTheResetStep : Obligations.LoadPortStreamIsTheResetStep := by
  intro s img rest hrun hports hl hsteps
  have hfirst := step_first_edge s _ hrun hports hl hsteps
  have hreset : step (s.withPlan (.reset img :: rest)) = .next ((s.withPlan rest).resetStep img) :=
    step_of_plans (s.withPlan _) (.reset img) rest rfl hl (State.quitDue_of_edge _ (.reset img) rest rfl rfl)
  have hrest := (s.inLoad_clearLoad hports).run_stream img rest
  exact (run_succ_of_step (M := Sys2Proof.core) _ hfirst).trans (hrest.trans hreset.symm)
end

section
/-! PROOFS. The values of the reset state (spec/10_state.md R23–R38, spec/20_memory.md R65). -/

namespace Sys2Proof.Machine

theorem State.reset_reg (r : Nibble) : State.reset.reg r = 0 := by
  simp [State.reg, State.reset]

theorem State.reset_pixel (x : Fin 64) (y : Fin 32) : State.reset.fb.pixel x y = false :=
  Framebuffer.pixel_clear x y

/-- The registers of the reset state are at the values a reset sets. -/
theorem State.reset_registersAtReset : RegistersAtReset State.reset State.reset :=
  ⟨State.reset_reg, rfl, rfl, rfl, rfl, rfl, rfl, rfl, State.reset_pixel, rfl, rfl, rfl, rfl⟩

/-- With no image, memory holds the font and zeros (R65). -/
theorem State.reset_atResetValues : AtResetValues State.reset State.reset [] := by
  refine ⟨State.reset_registersAtReset, rfl, fun a => ?_⟩
  rw [if_neg (by simp)]
  rfl

end Sys2Proof.Machine

/-- Settles O53: registers and memory by the lemmas above, the parameters, `run`, the record and `load_err` as
`State.reset` writes them. -/
theorem resetStateHasTheResetValues : Obligations.ResetStateHasTheResetValues :=
  ⟨Sys2Proof.Machine.State.reset_atResetValues, rfl, rfl, rfl, rfl, rfl, rfl, rfl, rfl, rfl⟩
end

section
/-! PROOFS. Instruction-fetch coherence (spec/20_memory.md R74): the fetch after LD [I], Vx reads the bytes it stored. -/

namespace Sys2Proof.Machine

variable (s : State)

/-- LD [I], Vx inside `MEM_SIZE` stores and advances (R164). -/
theorem exec_storeRegs_inRange (x : Nibble) (h : s.i.toNat + x.toNat < s.cfg.memSize) :
    exec (.storeRegs x) s = .next (s.storeRange (x.toNat + 1) fun k => s.reg (regAt k)).advance :=
  congrArg Host.Outcome.next (s.guardRange_ok (x.toNat + 1) _ _ (.inr h))

@[simp] theorem State.storeRange_pc (n : Nat) (f : Nat → Byte) : (s.storeRange n f).pc = s.pc := by
  obtain ⟨m, e⟩ := s.storeRange_eq n f
  rw [e]

/-- After `n` registers are stored inside `MEM_SIZE`, each of them is the byte at `I` plus its number (R164). -/
theorem State.storeRange_readByte_reg (n : Nat) (q : Nibble) (hw : Memory.wf s.cfg s.mem = true)
    (hr : s.i.toNat + n ≤ s.cfg.memSize) (hq : q.toNat < n) :
    (s.storeRange n fun k => s.reg (regAt k)).readByte (s.i.toNat + q.toNat) = s.reg q := by
  obtain ⟨-, hread⟩ := s.storeRange_spec n (fun k => s.reg (regAt k)) hw (.inr hr)
  rw [hread, if_pos (by omega), Nat.add_sub_cancel_left, ← (regAt_eq_iff q.toNat q q.isLt).2 rfl]

/-- A fetch at `a` gives the bytes at `a` and `a + 1`, the first one high (R67). -/
theorem State.fetch_of_bytes {a : Nat} {hi lo : Byte} (hpc : s.pc.toNat = a) (hin : a + 1 < s.cfg.memSize)
    (hhi : s.readByte a = hi) (hlo : s.readByte (a + 1) = lo) : s.fetch = .ok (hi ++ lo) := by
  subst hpc
  rw [s.fetch_ok hin, hhi, hlo, wordOfBytes]

end Sys2Proof.Machine

open Sys2Proof.Machine in
/-- Settles O18: the successor's two bytes lie in the stored range, so the fetch reads the two registers stored there. -/
theorem storedBytesAreFetchedNext : Obligations.StoredBytesAreFetchedNext := by
  intro s x j k hw hr hk hkx hpc
  have hstored (q : Sys2Proof.Nibble) (hq : q.toNat ≤ x.toNat) :=
    s.storeRange_readByte_reg (x.toNat + 1) q hw hr (by omega)
  refine ⟨_, exec_storeRegs_inRange s x hr, State.fetch_of_bytes _ (a := s.i.toNat + j.toNat) ?_ ?_ ?_ ?_⟩
  · rw [State.advance_pc, State.storeRange_pc, hpc]
  · rw [State.advance_cfg, State.storeRange_cfg]
    omega
  · rw [State.advance_readByte, hstored j (by omega)]
  · rw [State.advance_readByte, Nat.add_assoc, ← hk, hstored k hkx]
end

section
/-! PROOFS. Decode and encode are inverse, and which words are no instruction (spec/30_encoding.md R85–R92). -/

namespace Sys2Proof

/-! ## Decode of encode -/

/-- The word of an instruction decodes to it on a block that has it, and is UnimplementedOpcode on one that lacks it
(R91, R92). -/
theorem encodedAs_encode (i : Instr) : Machine.EncodedAs (encode i) i := by
  intro legacy
  cases i with
  | cls | ret => cases legacy <;> rfl
  | ldReg | orReg | andReg | xorReg | addReg | subReg =>
    simp [encode, decodeWord, decodeClass8, Instr.wellFormed, Instr.legacyGap]
  | skp => cases legacy <;> simp [encode, decodeWord, decodeClassE, unlessLegacy, Instr.wellFormed, Instr.legacyGap]
  | sknp => simp [encode, decodeWord, decodeClassE, Instr.wellFormed, Instr.legacyGap]
  | ldVxK | addIVx =>
    cases legacy <;> simp [encode, decodeWord, decodeClassF, unlessLegacy, Instr.wellFormed, Instr.legacyGap]
  | ldVxDt | ldDtVx | ldStVx | ldFVx | ldBVx | storeRegs | loadRegs =>
    simp [encode, decodeWord, decodeClassF, Instr.wellFormed, Instr.legacyGap]
  | _ => simp [encode, decodeWord, Instr.wellFormed, Instr.legacyGap]

/-! ## The fields the decoder selects by, as numbers (R82) -/

theorem fieldC_toNat (w : Word) : (fieldC w).toNat = w.toNat / 4096 := by
  have := w.isLt
  rw [fieldC, BitVec.extractLsb'_toNat, Nat.shiftRight_eq_div_pow]
  omega

theorem fieldN_toNat (w : Word) : (fieldN w).toNat = w.toNat % 16 := by
  rw [fieldN, BitVec.extractLsb'_toNat, Nat.shiftRight_zero]

theorem fieldKk_toNat (w : Word) : (fieldKk w).toNat = w.toNat % 256 := by
  rw [fieldKk, BitVec.extractLsb'_toNat, Nat.shiftRight_zero]

variable {w : Word}

theorem fieldC_eq_iff {c : Nibble} : fieldC w = c ↔ w.toNat / 4096 = c.toNat := by
  rw [← BitVec.toNat_inj, fieldC_toNat]

theorem fieldN_eq_iff {n : Nibble} : fieldN w = n ↔ w.toNat % 16 = n.toNat := by
  rw [← BitVec.toNat_inj, fieldN_toNat]

theorem fieldKk_eq_iff {kk : Byte} : fieldKk w = kk ↔ w.toNat % 256 = kk.toNat := by
  rw [← BitVec.toNat_inj, fieldKk_toNat]

/-! ## A word from the fields the decoder has matched -/

theorem formatNnn_of_class {c : Nibble} (hc : fieldC w = c) : formatNnn c (fieldNnn w) = w :=
  hc ▸ formatNnn_fields w

theorem formatXkk_of_class {c : Nibble} (hc : fieldC w = c) : formatXkk c (fieldX w) (fieldKk w) = w :=
  hc ▸ formatXkk_fields w

theorem formatXkk_of_kk {c : Nibble} {kk : Byte} (hc : fieldC w = c) (hkk : fieldKk w = kk) :
    formatXkk c (fieldX w) kk = w :=
  hkk ▸ formatXkk_of_class hc

theorem formatXyn_of_class {c : Nibble} (hc : fieldC w = c) : formatXyn c (fieldX w) (fieldY w) (fieldN w) = w :=
  hc ▸ formatXyn_fields w

theorem formatXyn_of_n {c n : Nibble} (hc : fieldC w = c) (hn : fieldN w = n) :
    formatXyn c (fieldX w) (fieldY w) n = w :=
  hn ▸ formatXyn_of_class hc

/-! ## What a word decodes to -/

/-- The words R88 lists as InvalidOpcode. -/
def ListedInvalid (w : Word) : Prop :=
  (w.toNat / 4096 = 0 ∧ w.toNat ≠ 0x00E0 ∧ w.toNat ≠ 0x00EE) ∨
  (w.toNat / 4096 = 8 ∧ 6 ≤ w.toNat % 16) ∨
  (w.toNat / 4096 = 0xE ∧ w.toNat % 256 ∉ [0x9E, 0xA1]) ∨
  (w.toNat / 4096 = 0xF ∧ w.toNat % 256 ∉ [0x07, 0x0A, 0x15, 0x18, 0x1E, 0x29, 0x33, 0x55, 0x65])

/-- The words Ex9E, Fx0A and Fx1E (R91). -/
def ListedLegacy (w : Word) : Prop :=
  (w.toNat / 4096 = 0xE ∧ w.toNat % 256 = 0x9E) ∨ (w.toNat / 4096 = 0xF ∧ w.toNat % 256 ∈ [0x0A, 0x1E])

theorem ListedLegacy.not_invalid (h : ListedLegacy w) : ¬ ListedInvalid w := by
  simp only [ListedLegacy, ListedInvalid, List.mem_cons, List.not_mem_nil, or_false] at h ⊢
  omega

/-- `Decoding legacy w r`: the three ways the word `w` may decode to `r` (`decoding` ties it to `decodeWord`). -/
inductive Decoding (legacy : Bool) (w : Word) : Except DecodeError Instr → Prop
  /-- An instruction every block has. -/
  | valid (i : Instr) (hw : encode i = w) (hgap : i.legacyGap = false) (hinv : ¬ ListedInvalid w)
      (hleg : ¬ ListedLegacy w) : Decoding legacy w (.ok i)
  /-- An instruction that `LEGACY_UNIMPLEMENTED` takes away (R91). -/
  | gap (i : Instr) (hw : encode i = w) (hgap : i.legacyGap = true) (hleg : ListedLegacy w) :
      Decoding legacy w (unlessLegacy legacy i)
  /-- No instruction (R88). -/
  | invalid (hinv : ListedInvalid w) : Decoding legacy w (.error .invalidOpcode)

variable {legacy : Bool} {i : Instr}

/-- In twelve classes every word is an instruction (R85, R90). -/
theorem Decoding.of_class {c : Nibble} (hc : fieldC w = c) (hclass : c ∉ [0x0#4, 0x8#4, 0xE#4, 0xF#4])
    (hw : encode i = w) (hgap : i.legacyGap = false) : Decoding legacy w (.ok i) := by
  simp only [List.mem_cons, List.not_mem_nil, ← hc, fieldC_eq_iff, BitVec.toNat_ofNat] at hclass
  refine .valid i hw hgap ?_ ?_ <;> simp only [ListedInvalid, ListedLegacy] <;> omega

/-- Class 0 holds two instructions (R86). -/
theorem Decoding.class0 (hc : fieldC w = 0x0#4) : Decoding legacy w (decodeClass0 w) := by
  unfold decodeClass0
  split
  · subst w; exact .valid .cls rfl rfl (by simp [ListedInvalid]) (by simp [ListedLegacy])
  · split
    · subst w; exact .valid .ret rfl rfl (by simp [ListedInvalid]) (by simp [ListedLegacy])
    · exact .invalid (.inl ⟨fieldC_eq_iff.1 hc, by bv_omega, by bv_omega⟩)

/-- In class 8 the words with `n` below 6 are instructions (R87). -/
theorem Decoding.of_n {n : Nibble} (hc : fieldC w = 0x8#4) (hn : fieldN w = n) (hlt : n.toNat < 6) (hw : encode i = w)
    (hgap : i.legacyGap = false) : Decoding legacy w (.ok i) := by
  rw [fieldC_eq_iff, BitVec.toNat_ofNat] at hc
  rw [fieldN_eq_iff] at hn
  refine .valid i hw hgap ?_ ?_ <;> simp only [ListedInvalid, ListedLegacy] <;> omega

/-- Class 8 selects by `n` (R87). -/
theorem Decoding.class8 (hc : fieldC w = 0x8#4) : Decoding legacy w (decodeClass8 w) := by
  unfold decodeClass8
  split
  case h_7 =>
    simp only [imp_false, fieldN_eq_iff, fieldC_eq_iff, BitVec.toNat_ofNat] at *
    exact .invalid (.inr (.inl ⟨hc, by omega⟩))
  all_goals next hn => exact .of_n hc hn (by decide) (formatXyn_of_n hc hn) rfl

/-- Class E selects by `kk`, and one of its two instructions is a legacy one (R85, R89). -/
theorem Decoding.classE (hc : fieldC w = 0xE#4) : Decoding legacy w (decodeClassE legacy w) := by
  have hc' := fieldC_eq_iff.1 hc
  unfold decodeClassE
  split
  next hkk => exact .gap _ (formatXkk_of_kk hc hkk) rfl (.inl ⟨hc', fieldKk_eq_iff.1 hkk⟩)
  next hkk =>
    have hkk' := fieldKk_eq_iff.1 hkk
    exact .valid _ (formatXkk_of_kk hc hkk) rfl (by simp [ListedInvalid, hc', hkk']) (by simp [ListedLegacy, hc', hkk'])
  next => exact .invalid (.inr (.inr (.inl ⟨hc', by simp_all [fieldKk_eq_iff]⟩)))

/-- In class F seven values of `kk` are instructions every block has (R85). -/
theorem Decoding.of_kk {kk : Byte} (hc : fieldC w = 0xF#4) (hkk : fieldKk w = kk)
    (hmem : kk ∈ [0x07#8, 0x15#8, 0x18#8, 0x29#8, 0x33#8, 0x55#8, 0x65#8]) (hw : encode i = w)
    (hgap : i.legacyGap = false) : Decoding legacy w (.ok i) := by
  simp only [List.mem_cons, List.not_mem_nil, or_false, ← hkk, fieldKk_eq_iff, BitVec.toNat_ofNat] at hmem
  rw [fieldC_eq_iff, BitVec.toNat_ofNat] at hc
  refine .valid i hw hgap ?_ ?_ <;>
    simp only [ListedInvalid, ListedLegacy, List.mem_cons, List.not_mem_nil, or_false] <;> omega

/-- Class F selects by `kk`, and two of its nine instructions are legacy ones (R85, R89). -/
theorem Decoding.classF (hc : fieldC w = 0xF#4) : Decoding legacy w (decodeClassF legacy w) := by
  have hc' := fieldC_eq_iff.1 hc
  unfold decodeClassF
  split
  case h_10 => exact .invalid (.inr (.inr (.inr ⟨hc', by simp_all [fieldKk_eq_iff]⟩)))
  case h_2 hkk => exact .gap _ (formatXkk_of_kk hc hkk) rfl (.inr ⟨hc', by simp [fieldKk_eq_iff.1 hkk]⟩)
  case h_5 hkk => exact .gap _ (formatXkk_of_kk hc hkk) rfl (.inr ⟨hc', by simp [fieldKk_eq_iff.1 hkk]⟩)
  all_goals next hkk => exact .of_kk hc hkk (by decide) (formatXkk_of_kk hc hkk) rfl

/-- Every word decodes in one of the three ways, by class first (R85). -/
theorem decoding (legacy : Bool) (w : Word) : Decoding legacy w (decodeWord legacy w) := by
  unfold decodeWord
  split
  next hc => exact .class0 hc
  next hc => exact .of_class hc (by decide) (formatNnn_of_class hc) rfl
  next hc => exact .of_class hc (by decide) (formatNnn_of_class hc) rfl
  next hc => exact .of_class hc (by decide) (formatXkk_of_class hc) rfl
  next hc => exact .of_class hc (by decide) (formatXkk_of_class hc) rfl
  next hc => exact .of_class hc (by decide) (formatXyn_of_class hc) rfl
  next hc => exact .of_class hc (by decide) (formatXkk_of_class hc) rfl
  next hc => exact .of_class hc (by decide) (formatXkk_of_class hc) rfl
  next hc => exact .class8 hc
  next hc => exact .of_class hc (by decide) (formatXyn_of_class hc) rfl
  next hc => exact .of_class hc (by decide) (formatNnn_of_class hc) rfl
  next hc => exact .of_class hc (by decide) (formatNnn_of_class hc) rfl
  next hc => exact .of_class hc (by decide) (formatXkk_of_class hc) rfl
  next hc => exact .of_class hc (by decide) (formatXyn_of_class hc) rfl
  next hc => exact .classE hc
  next =>
    simp only [imp_false, ← BitVec.toNat_inj, BitVec.toNat_ofNat] at *
    exact .classF (by bv_omega)

variable {r : Except DecodeError Instr}

theorem Decoding.encode_of_ok (h : Decoding legacy w r) (hr : r = .ok i) :
    encode i = w ∧ i.wellFormed legacy = true := by
  cases h with
  | valid j hw hgap _ _ => cases hr; exact ⟨hw, by simp [Instr.wellFormed, hgap]⟩
  | gap j hw _ _ =>
    cases legacy with
    | false => cases hr; exact ⟨hw, rfl⟩
    | true => cases hr
  | invalid _ => cases hr

theorem Decoding.invalid_iff (h : Decoding legacy w r) : r = .error .invalidOpcode ↔ ListedInvalid w := by
  cases h with
  | valid _ _ _ hinv _ => simp [hinv]
  | gap _ _ _ hleg => cases legacy <;> simp [unlessLegacy, hleg.not_invalid]
  | invalid hinv => simp [hinv]

theorem Decoding.unimplemented_iff (h : Decoding legacy w r) :
    r = .error .unimplementedOpcode ↔ legacy = true ∧ ListedLegacy w := by
  cases h with
  | valid _ _ _ _ hleg => simp [hleg]
  | gap _ _ _ hleg => cases legacy <;> simp [unlessLegacy, hleg]
  | invalid hinv => exact ⟨nofun, fun ⟨_, hleg⟩ => absurd hinv hleg.not_invalid⟩

/-- A word that neither R88 nor R91 lists is an instruction. -/
theorem Decoding.exists_ok (h : Decoding legacy w r) (hinv : ¬ ListedInvalid w) (hleg : ¬ ListedLegacy w) :
    ∃ i, r = .ok i := by
  cases h with
  | valid i => exact ⟨i, rfl⟩
  | gap _ _ _ h => exact absurd h hleg
  | invalid h => exact absurd h hinv

/-- The parameter changes no word that R91 does not list. -/
theorem decodeWord_true_eq_false (hleg : ¬ ListedLegacy w) : decodeWord true w = decodeWord false w := by
  by_cases hinv : ListedInvalid w
  · rw [(decoding true w).invalid_iff.2 hinv, (decoding false w).invalid_iff.2 hinv]
  · obtain ⟨i, hi⟩ := (decoding true w).exists_ok hinv hleg
    obtain ⟨hw, _⟩ := (decoding true w).encode_of_ok hi
    rw [hi, ← hw, encodedAs_encode i false]
    rfl

end Sys2Proof

open Sys2Proof

/-- Settles O46: the word of an instruction is that instruction on every block that has it (R85, R92). -/
theorem decodingAnEncodedInstructionGivesItBack : Obligations.DecodingAnEncodedInstructionGivesItBack := by
  intro legacy i hwf
  rw [encodedAs_encode i legacy, if_pos hwf]

/-- Settles O47: where the decoder answers an instruction, its fields put together are the word (R85, R92). -/
theorem encodingADecodedWordGivesItBack : Obligations.EncodingADecodedWordGivesItBack :=
  fun legacy w _ h => (decoding legacy w).encode_of_ok h

/-- Settles O48: the decoder's invalid arms are the words of R88, and the other classes hold no word of R88 or R91. -/
theorem invalidWordsAreTheListedOnes : Obligations.InvalidWordsAreTheListedOnes := by
  refine fun legacy w => ⟨(decoding legacy w).invalid_iff, fun hclass => (decoding legacy w).exists_ok ?_ ?_⟩ <;>
    simp only [ListedInvalid, ListedLegacy, List.mem_cons, List.not_mem_nil, or_false] at hclass ⊢ <;> omega

/-- Settles O49: UnimplementedOpcode is answered for the three words of R91 alone, and only with the parameter. -/
theorem legacyParameterRemovesThreeInstructions : Obligations.LegacyParameterRemovesThreeInstructions := by
  intro w
  have hiff (legacy : Bool) := (decoding legacy w).unimplemented_iff
  exact ⟨by simp [hiff], by simp [hiff, ListedLegacy], fun h => decodeWord_true_eq_false (by simpa [hiff] using h)⟩

/-- Settles O50: the decoder run on the eleven pairs of bytes (R67, R85, R88, R91). -/
theorem writtenOutWordsDecode : Obligations.WrittenOutWordsDecode :=
  ⟨rfl, rfl, rfl, rfl, rfl, rfl, rfl, rfl, rfl, rfl, rfl⟩
end

section
/-! PROOFS. The steps that are no instruction, as the block or the host takes them: a Tick step where it is enabled
(spec/40_cycle.md R106, R113), the planned Quit step (R109), and a block in which only a reset is enabled (R101). -/

namespace Sys2Proof.Machine

variable {s t : State}

/-! ## Frames -/

/-- A frame stays true where more pieces may change. -/
theorem ChangesOnly.mono {l l' : List Piece} (h : ChangesOnly (· ∈ l) s t) (hl : l ⊆ l') : ChangesOnly (· ∈ l') s t :=
  fun p hp => h p fun hm => hp (hl hm)

/-- What a step changes after its entry is taken from the plan, it changes of the state before, the plan besides. -/
theorem ChangesOnly.of_withPlan {l : List Piece} {rest : List HostStep} (h : ChangesOnly (· ∈ l) (s.withPlan rest) t)
    (hl : .plan ∈ l) : ChangesOnly (· ∈ l) s t := by
  intro p hp
  cases p with
  | plan => exact absurd hl hp
  | _ => exact h _ hp

/-- Taking an entry from the plan and moving the flip-flops on changes these two pieces. -/
theorem changesOnly_planAndPorts (s : State) (rest : List HostStep) (q : Ports) :
    ChangesOnly (· ∈ [.plan, .ports]) s { s.withPlan rest with ports := q } := by
  intro p hp
  cases p with
  | plan => simp at hp
  | ports => simp at hp
  | _ => rfl

theorem changesOnly_withPlan (s : State) (rest : List HostStep) : ChangesOnly (· ∈ [.plan]) s (s.withPlan rest) := by
  intro p hp
  cases p with
  | plan => simp at hp
  | _ => rfl

theorem changesOnly_pendingTick (s : State) (b : Bool) :
    ChangesOnly (· ∈ [.pendingTick]) s { s with pendingTick := b } := by
  intro p hp
  cases p with
  | pendingTick => simp at hp
  | _ => rfl

theorem changesOnly_run (s : State) (r : RunState) : ChangesOnly (· ∈ [.run]) s { s with run := r } := by
  intro p hp
  cases p with
  | run => simp at hp
  | _ => rfl

/-! ## The Tick step (R106) -/

theorem State.tickEnabled_of_canTick (h : s.CanTick) : s.tickEnabled = true := s.tickEnabled_iff.2 h

/-- The Tick step writes DT, the keypad and the slots with the values of R106. -/
theorem State.givesTick_tickStep (s : State) : GivesTick s s.tickStep := by
  obtain ⟨dt, hdt, e⟩ := s.tickStep_eq
  rw [e]
  exact ⟨hdt, rfl, rfl, rfl⟩

theorem State.changesOnly_tickStep (s : State) : ChangesOnly (· ∈ [.dt, .idle, .keys, .slots]) s s.tickStep := by
  obtain ⟨dt, -, e⟩ := s.tickStep_eq
  rw [e]
  intro p hp
  cases p with
  | dt => simp at hp
  | idle => simp at hp
  | keys => simp at hp
  | slots => simp at hp
  | _ => rfl

theorem State.tickStep_host (s : State) : s.tickStep.host = s.host := by
  obtain ⟨_, -, e⟩ := s.tickStep_eq
  rw [e]

/-- Where no Tick step is enabled a pulse can only set the pending-tick flag (R282). -/
theorem State.tickPulse_of_not_canTick (h : ¬ s.CanTick) : ∃ b, s.tickPulse = { s with pendingTick := b } := by
  rcases s.tickPulse_cases with ⟨hen, -⟩ | ⟨-, -, e⟩ | ⟨-, -, e⟩
  · exact absurd (s.tickEnabled_iff.1 hen) h
  · exact ⟨true, e⟩
  · exact ⟨s.pendingTick, e⟩

/-- The block does not execute where it can tick: no slot is left, or it waits. -/
theorem State.execEnabled_of_canTick (h : s.CanTick) : s.execEnabled = false := by
  rcases h with ⟨-, hslots⟩ | hrun
  · simp [State.execEnabled, hslots]
  · simp [State.execEnabled, hrun]

/-! ## A block at rest (R101) -/

/-- The block is neither RUNNING nor WAIT_KEY: no Exec, Tick, Key or Quit step is enabled. -/
def State.AtRest (s : State) : Prop := s.run ≠ .running ∧ s.run ≠ .waitKey

theorem State.atRest_of_load_or_terminal (h : s.run = .load ∨ s.run.terminal = true) : s.AtRest := by
  constructor <;> intro e <;> simp [e, RunState.terminal] at h

namespace State.AtRest

theorem execEnabled (h : s.AtRest) : s.execEnabled = false := by simp [State.execEnabled, h.1]

theorem tickEnabled (h : s.AtRest) : s.tickEnabled = false := by simp [State.tickEnabled, h.1, h.2]

theorem latchedTickDue (h : s.AtRest) : s.latchedTickDue = false := by simp [State.latchedTickDue, h.tickEnabled]

theorem quitDue (h : s.AtRest) : s.quitDue = false := by simp [State.quitDue, h.1, h.2]

theorem ownStep (h : s.AtRest) : s.ownStep = .next s := by simp [State.ownStep, h.execEnabled, h.tickEnabled]

theorem execStep (h : s.AtRest) : s.execStep = .next s := by simp [State.execStep, h.execEnabled]

theorem tickPulse (h : s.AtRest) : s.tickPulse = s := by simp [State.tickPulse, h.tickEnabled, h.1]

theorem tickPin (h : s.AtRest) (p : Pins) : s.tickPin p = s := by simp [State.tickPin, h.tickPulse]

theorem keyStep (h : s.AtRest) (k : Nibble) : s.keyStep k = s := by
  rcases s.keyStep_cases k with ⟨e, -⟩ | ⟨e, -⟩ | ⟨-, -, e⟩
  · exact absurd e h.1
  · exact absurd e h.2
  · exact e

theorem quitStep (h : s.AtRest) : s.quitStep = s := by
  rcases s.quitStep_cases with ⟨e, -⟩ | ⟨-, -, e⟩
  · exact absurd e (not_or.2 h)
  · exact e

theorem quitPin (h : s.AtRest) : s.quitPin = s := by simp [State.quitPin, h.quitStep]

/-- The end of an edge only moves the flip-flops on: quit and key are lost (R226, R249). -/
theorem quitAndKey (h : s.AtRest) (p : Pins) : s.quitAndKey p = { s with ports := s.ports.shifted p } := by
  rw [State.quitAndKey_eq, h.quitPin, h.keyStep, ite_self]
  rfl

/-- So does the whole edge outside a reset period, where the pulse is lost too (R208). -/
theorem clockEdge (h : s.AtRest) (hload : s.run ≠ .load) (p : Pins) (hrst : p.rst = false) :
    s.clockEdge p = { s with ports := s.ports.shifted p } := by
  rw [State.clockEdge, s.resetPins_low p hrst hload, h.tickPin, h.quitAndKey]

/-- No instruction can complete at an edge. -/
theorem clockExec (h : s.AtRest) (o : Bool) (p : Pins) : s.clockExec o p = .next (s.clockEdge p) := by
  simp [State.clockExec, h.tickPin, h.execEnabled]

end State.AtRest

/-- Whatever the host chooses, short of a reset, a block in a terminal state answers itself with at most the flip-flops
moved on. -/
theorem hostStep_of_terminal (h : s.run.terminal = true) (e : HostStep) (hreset : ∀ img, e ≠ .reset img)
    (hedge : ∀ p, e.IsEdge p → p.rst = false) : ∃ q, s.hostStep e = .next { s with ports := q } := by
  have hrest : s.AtRest := State.atRest_of_load_or_terminal (.inr h)
  have hload : s.run ≠ .load := fun e => by simp [e, RunState.terminal] at h
  cases e with
  | exec => exact ⟨s.ports, hrest.execStep⟩
  | tick => exact ⟨s.ports, congrArg _ hrest.tickPulse⟩
  | key k => exact ⟨s.ports, congrArg _ (hrest.keyStep k)⟩
  | quit => exact ⟨s.ports, congrArg _ hrest.quitStep⟩
  | reset img => exact absurd rfl (hreset img)
  | clock p => exact ⟨s.ports.shifted p, congrArg _ (hrest.clockEdge hload p (hedge p (.inl rfl)))⟩
  | clockExec o p =>
    have hplain := hrest.clockEdge hload p (hedge p (.inr ⟨o, rfl⟩))
    exact ⟨s.ports.shifted p, (hrest.clockExec o p).trans (congrArg _ hplain)⟩

end Sys2Proof.Machine

open Sys2Proof.Machine in
/-- Settles O27: a planned pulse is a Tick step where one is enabled (R106); else it is latched or lost (R282, R208). -/
theorem tickCountsAgesAndGivesSlots : Obligations.TickCountsAgesAndGivesSlots := by
  intro s rest ⟨hsteps, hl, hq⟩
  have hstep : step s = .next (s.withPlan rest).tickPulse := step_of_plans s .tick rest hsteps hl hq
  refine ⟨fun hcan => ?_, fun hnot => ?_⟩
  · have hpulse : (s.withPlan rest).tickPulse = (s.withPlan rest).tickStep := if_pos (State.tickEnabled_of_canTick hcan)
    have hframe := (s.withPlan rest).changesOnly_tickStep.mono
      (l' := [.dt, .idle, .keys, .slots, .plan]) (by simp)
    rw [hpulse] at hstep
    exact ⟨_, hstep, (s.withPlan rest).givesTick_tickStep, congrArg HostInputs.steps (State.tickStep_host _),
      hframe.of_withPlan (by simp)⟩
  · obtain ⟨b, hpulse⟩ := State.tickPulse_of_not_canTick (s := s.withPlan rest) hnot
    have hframe := (changesOnly_pendingTick (s.withPlan rest) b).mono (l' := [.pendingTick, .plan]) (by simp)
    rw [hpulse] at hstep
    exact ⟨_, hstep, rfl, hframe.of_withPlan (by simp)⟩

open Sys2Proof.Machine in
/-- Settles O29: the planned Quit step writes the run state of a block at work (R109) and finds one at rest as it is. -/
theorem quitEndsTheRun : Obligations.QuitEndsTheRun := by
  intro s rest ⟨hsteps, hl, hq⟩
  have hstep : step s = .next (s.withPlan rest).quitStep := step_of_plans s .quit rest hsteps hl hq
  refine ⟨fun hwork => ?_, fun hidle => ?_⟩
  · rcases (s.withPlan rest).quitStep_cases with ⟨-, e⟩ | ⟨h1, h2, -⟩
    · have hframe := (changesOnly_run (s.withPlan rest) .quit).mono (l' := [.run, .plan]) (by simp)
      rw [e] at hstep
      exact ⟨_, hstep, rfl, rfl, hframe.of_withPlan (by simp)⟩
    · exact absurd hwork (not_or.2 ⟨h1, h2⟩)
  · have hrest : (s.withPlan rest).AtRest := State.atRest_of_load_or_terminal hidle
    rw [hrest.quitStep] at hstep
    exact ⟨_, hstep, rfl, changesOnly_withPlan s rest⟩

open Sys2Proof.Machine in
/-- Settles O36: with nothing planned the block that cannot execute takes its own Tick step (R106, R113). -/
theorem blockTicksWhenSlotsAreUsedUp : Obligations.BlockTicksWhenSlotsAreUsedUp := by
  intro s ⟨hsteps, hl, hq⟩ hcan
  have hown : s.ownStep = .next s.tickStep := by
    simp [State.ownStep, State.execEnabled_of_canTick hcan, State.tickEnabled_of_canTick hcan]
  exact ⟨_, (step_of_no_plan s hsteps hl hq).trans hown, s.givesTick_tickStep, s.changesOnly_tickStep⟩

open Sys2Proof.Machine in
/-- Settles O37: no step but a reset is enabled in a terminal state (R101), so no entry changes the block. -/
theorem terminalStatesAreFrozen : Obligations.TerminalStatesAreFrozen := by
  intro s hterm hreset hclock hclockExec
  have hrest : s.AtRest := State.atRest_of_load_or_terminal (.inr hterm)
  cases hsteps : s.host.steps with
  | nil =>
    have hstep := step_of_no_plan s hsteps hrest.latchedTickDue hrest.quitDue
    exact ⟨s, hstep.trans hrest.ownStep, changesOnly_planAndPorts s s.host.steps s.ports⟩
  | cons e rest =>
    have hstep := step_of_plans s e rest hsteps hrest.latchedTickDue hrest.quitDue
    obtain ⟨q, hq⟩ := hostStep_of_terminal (s := s.withPlan rest) hterm e
      (fun img he => hreset img rest (he ▸ hsteps))
      (fun p he => by
        rcases he with rfl | ⟨o, rfl⟩
        · exact hclock p rest hsteps
        · exact hclockExec o p rest hsteps)
    exact ⟨_, hstep.trans hq, changesOnly_planAndPorts s rest q⟩
end

section
/-! PROOFS. The instruction cycle: Exec as the next step, planned or the block's own (spec/40_cycle.md R102, R103, R107);
and a clock that a Tick step and an instruction share as whole steps one after another (R111, R112). -/

namespace Sys2Proof.Machine

variable {s t u : State} {i : Instr} {w : Word}

/-! ## The Exec step as the next step -/

theorem State.execEnabled_of_slots (hrun : s.run = .running) (hslots : 0 < s.slots) : s.execEnabled = true := by
  simp [State.execEnabled, hrun, hslots]

/-- While slots are left no latched tick is due (R282). -/
theorem State.latchedTickDue_of_execEnabled (h : s.execEnabled = true) : s.latchedTickDue = false := by
  obtain ⟨hrun, hslots⟩ : s.run = .running ∧ 0 < s.slots := by simpa [State.execEnabled] using h
  simp [State.latchedTickDue, State.tickEnabled, hrun, Nat.ne_of_gt hslots]

theorem State.latchedTickDue_of_not_pending (h : s.pendingTick = false) : s.latchedTickDue = false := by
  simp [State.latchedTickDue, h]

theorem State.planTaken_of_nil (h : s.host.steps = []) : s.planTaken = s := by
  have hl : s.host.steps.tail = s.host.steps := by rw [h]; rfl
  rw [State.planTaken, hl]
  rfl

theorem State.planTaken_of_cons {e : HostStep} {rest : List HostStep} (h : s.host.steps = e :: rest) :
    s.planTaken = s.withPlan rest := by
  rw [State.planTaken, h, List.tail_cons]

/-- Where Exec is the next step, planned or the block's own, it runs on the state with its entry taken (R102; log 3). -/
theorem step_of_nextIsExec (h : s.NextIsExec) : step s = s.planTaken.execInstr := by
  obtain ⟨hrun, hslots, hquit, hplan⟩ := h
  have hen := State.execEnabled_of_slots hrun hslots
  have hl := State.latchedTickDue_of_execEnabled hen
  have hq := s.quitDue_of_low hquit
  rcases hplan with hnil | ⟨rest, hcons⟩
  · rw [State.planTaken_of_nil hnil, step_of_no_plan s hnil hl hq]
    exact if_pos hen
  · rw [State.planTaken_of_cons hcons, step_of_plans s _ rest hcons hl hq]
    exact if_pos hen

/-- A fetch past the end of memory is the fault of R103. -/
theorem State.execInstr_of_fetch_error {a : Nat} (h : s.fetch = .error a) :
    s.execInstr = .next (s.raise .memoryRange 0 a) := by
  rw [State.execInstr, h]

/-- Where the fetched word decodes, Exec is the instruction and its slot (R105, R107). -/
theorem State.execInstr_of_decode (hf : s.fetch = .ok w) (hd : decodeWord s.cfg.legacyUnimplemented w = .ok i)
    (he : exec i s = .next u) : s.execInstr = .next u.retire := by
  simp [State.execInstr, hf, hd, he, mapNext]

theorem State.entersFault_raise (s : State) (code : FaultCode) (w : Word) (a : Nat) :
    EntersFault s (s.raise code w a) code w a := by
  refine ⟨rfl, rfl, fun p hp => ?_⟩
  cases p with
  | run => simp at hp
  | fault => simp at hp
  | _ => rfl

/-! ## Instructions and the plan -/

/-- An instruction answers the same whatever the host plans after it, and leaves the plan. -/
theorem exec_withPlan (h : exec i s = .next u) (l : List HostStep) :
    exec i (s.withPlan l) = .next (u.withPlan l) := by
  obtain ⟨-, -, -, -, hpending, -⟩ := (exec_effect h).frame
  have hu : u.setAside s.pendingTick l = u.withPlan l := by rw [← hpending]; rfl
  rw [← hu]
  exact exec_setAside i s u s.pendingTick l h

theorem State.retire_withPlan (s : State) (l : List HostStep) : (s.withPlan l).retire = s.retire.withPlan l := by
  by_cases h : s.run = .running
  · rw [State.retire, State.retire, if_pos h]
    exact if_pos h
  · rw [State.retire, State.retire, if_neg h]
    exact if_neg h

/-- The Exec step of a decoded instruction, whatever the host plans after it. -/
theorem execInstr_withPlan (hf : s.fetch = .ok w) (hd : decodeWord s.cfg.legacyUnimplemented w = .ok i)
    (he : exec i s = .next u) (l : List HostStep) : (s.withPlan l).execInstr = .next (u.retire.withPlan l) := by
  rw [State.execInstr_of_decode (s := s.withPlan l) hf hd (exec_withPlan he l), State.retire_withPlan]

/-- An instruction leads a RUNNING block to no LOAD state. -/
theorem ExecEffect.run_ne_load (h : ExecEffect s i t) (hrun : s.run = .running) : t.run ≠ .load := by
  have hs : s.run ≠ .load := by simp [hrun]
  cases h with
  | raise => simp
  | halt => simp
  | wait => simp
  | _ => exact hs

/-- What an instruction and its slot leave, that the steps after it depend on. -/
theorem retire_frame (he : exec i s = .next u) (hrun : s.run = .running) :
    u.retire.run ≠ .load ∧ u.retire.pendingTick = s.pendingTick ∧ u.retire.ports = s.ports := by
  obtain ⟨-, -, -, -, hpend, hports, -⟩ := (exec_effect he).frame
  have hload := (exec_effect he).run_ne_load hrun
  unfold State.retire
  split <;> exact ⟨hload, hpend, hports⟩

/-! ## Ticks and the plan -/

/-- What a Tick step leaves beside the pieces it writes, and the slots it gives (R106). -/
theorem State.tickStep_frame (s : State) :
    s.tickStep.run = s.run ∧ s.tickStep.pendingTick = s.pendingTick ∧ s.tickStep.ports = s.ports ∧
      s.tickStep.fetch = s.fetch ∧ s.tickStep.slots = s.cfg.ipt := by
  obtain ⟨_, -, e⟩ := s.tickStep_eq
  rw [e]
  exact ⟨rfl, rfl, rfl, rfl, rfl⟩

/-- A Tick step as one update of the state. -/
theorem State.tickStep_update (s : State) :
    s.tickStep =
      { s with
        dt := if s.dt = 0 then s.dt else s.dt - 1, idle := s.agedIdle, keys := s.agedKeys, slots := s.cfg.ipt } := by
  unfold State.tickStep State.timerTick
  split <;> rfl

/-- While RUNNING with slots to give, a Tick step enables Exec (R102, R106). -/
theorem State.execEnabled_tickStep (hrun : s.run = .running) (hipt : 0 < s.cfg.ipt) :
    s.tickStep.execEnabled = true := by
  obtain ⟨hr, -, -, -, hslots⟩ := s.tickStep_frame
  exact State.execEnabled_of_slots (hr.trans hrun) (hslots ▸ hipt)

theorem State.tickStep_withPlan (s : State) (l : List HostStep) : (s.withPlan l).tickStep = s.tickStep.withPlan l := by
  rw [State.tickStep_update, State.tickStep_update]
  rfl

theorem State.latchedTick_withPlan (s : State) (l : List HostStep) :
    (s.withPlan l).latchedTick = s.latchedTick.withPlan l :=
  State.tickStep_withPlan { s with pendingTick := false } l

theorem State.tickPulse_withPlan (s : State) (l : List HostStep) :
    (s.withPlan l).tickPulse = s.tickPulse.withPlan l := by
  rcases s.tickPulse_cases with ⟨hen, e⟩ | ⟨hrun, hslots, e⟩ | ⟨hrun, hwait, e⟩ <;> rw [e]
  · exact (if_pos hen).trans (s.tickStep_withPlan l)
  · exact (s.withPlan l).tickPulse_of_slots hrun hslots
  · exact State.AtRest.tickPulse ⟨hrun, hwait⟩

theorem State.tickPulse_run (s : State) : s.tickPulse.run = s.run := by
  rcases s.tickPulse_cases with ⟨-, e⟩ | ⟨-, -, e⟩ | ⟨-, -, e⟩ <;> rw [e]
  exact s.tickStep_frame.1

/-- A pulse that finds no latched tick leaves none that is due: the one it latches waits for the slots left (R282). -/
theorem State.tickPulse_latchedTickDue (h : s.pendingTick = false) : s.tickPulse.latchedTickDue = false := by
  rcases s.tickPulse_cases with ⟨-, e⟩ | ⟨hrun, hslots, e⟩ | ⟨-, -, e⟩ <;> rw [e]
  · exact State.latchedTickDue_of_not_pending (s.tickStep_frame.2.1.trans h)
  · exact State.latchedTickDue_of_execEnabled (s := { s with pendingTick := true })
      (State.execEnabled_of_slots hrun hslots)
  · exact State.latchedTickDue_of_not_pending h

/-! ## The whole steps of a serial order (R111) -/

theorem step_planned_exec (hen : s.execEnabled = true) (hquit : s.ports.quitSync2 = false) (hf : s.fetch = .ok w)
    (hd : decodeWord s.cfg.legacyUnimplemented w = .ok i) (he : exec i s = .next u) (l : List HostStep) :
    step (s.withPlan (.exec :: l)) = .next (u.retire.withPlan l) := by
  have hl : (s.withPlan (.exec :: l)).latchedTickDue = false := State.latchedTickDue_of_execEnabled hen
  have hexec : (s.withPlan l).execStep = (s.withPlan l).execInstr := if_pos hen
  rw [step_of_plans (s.withPlan (.exec :: l)) .exec l rfl hl (State.quitDue_of_low _ hquit)]
  exact hexec.trans (execInstr_withPlan hf hd he l)

theorem step_planned_tick (hl : s.latchedTickDue = false) (hquit : s.ports.quitSync2 = false) (l : List HostStep) :
    step (s.withPlan (.tick :: l)) = .next (s.tickPulse.withPlan l) := by
  rw [step_of_plans (s.withPlan (.tick :: l)) .tick l rfl hl (State.quitDue_of_low _ hquit)]
  exact congrArg _ (s.tickPulse_withPlan l)

theorem step_latched (h : s.latchedTickDue = true) (l : List HostStep) :
    step (s.withPlan l) = .next (s.latchedTick.withPlan l) := by
  rw [← s.latchedTick_withPlan l]
  exact if_pos h

/-- An edge that has lost its pulse to a step before it is the quit and key of its clock. -/
theorem step_edge_without_pulse (p : Pins) (hrst : p.rst = false) (hload : s.run ≠ .load)
    (hl : s.latchedTickDue = false) (rest : List HostStep) :
    step (s.withPlan (.clock { p with tick := false } :: rest)) = .next ((s.withPlan rest).quitAndKey p) := by
  have hreset : (s.withPlan rest).resetPins { p with tick := false } = s.withPlan rest :=
    State.resetPins_low _ _ hrst hload
  have hedge : (s.withPlan rest).clockEdge { p with tick := false } = (s.withPlan rest).quitAndKey p := by
    rw [State.clockEdge, hreset, State.tickPin_low _ _ rfl]
    rfl
  exact (step_of_planned_edge (s.withPlan (.clock _ :: rest)) _ rest rfl hl).trans (congrArg _ hedge)

theorem run_three_steps {M : Host.Core} {a b c d : M.State} (hab : M.step a = .next b) (hbc : M.step b = .next c)
    (hcd : M.step c = .next d) : M.run 3 a = .next d := by
  rw [run_succ_of_step 2 hab, run_succ_of_step 1 hbc, run_succ_of_step 0 hcd]
  rfl

/-! ## The clock a Tick step and an instruction share (log 21) -/

theorem State.loadsTimer_iff (hf : s.fetch = .ok w) (hd : decodeWord s.cfg.legacyUnimplemented w = .ok i) :
    s.loadsTimer = true ↔ ∃ x, i = .ldDtVx x := by
  cases i <;> simp [State.loadsTimer, hf, hd]

/-- An instruction other than Fx15 comes before the tick beside it (R203, R251). -/
theorem State.clockExec_exec_first (p : Pins) (hrst : p.rst = false) (hen : s.execEnabled = true)
    (hload : s.loadsTimer = false) (he : s.execInstr = .next t) :
    s.clockExec true p = .next ((t.tickBeside p).quitAndKey p) := by
  simp [State.clockExec, hrst, hen, hload, he, mapNext]

/-- Fx15 comes after the tick that gives its slot (R203). -/
theorem State.clockExec_tick_first (p : Pins) (hrst : p.rst = false) (hload : s.loadsTimer = true)
    (hen : (s.tickPin p).execEnabled = true) (he : (s.tickPin p).execInstr = .next t) :
    s.clockExec true p = .next (t.quitAndKey p) := by
  simp [State.clockExec, hrst, hload, hen, he, mapNext]

theorem State.tickBeside_of_pulse (p : Pins) (hpend : s.pendingTick = false) (htick : p.tick = true) :
    s.tickBeside p = s.tickPulse := by
  simp [State.tickBeside, State.latchedTickDue, hpend, htick]

theorem State.tickBeside_of_latched (p : Pins) (h : s.latchedTickDue = true) : s.tickBeside p = s.latchedTick :=
  if_pos h

section
variable {p : Pins} (rest : List HostStep) (hrst : p.rst = false) (hrun : s.run = .running) (hf : s.fetch = .ok w)
  (hd : decodeWord s.cfg.legacyUnimplemented w = .ok i)
include hrst hrun hf hd

/-- An instruction other than Fx15 with a slot left is first in a shared clock; the tick finds what it left. -/
theorem clockExec_eq_tickBeside (hi : ∀ x, i ≠ .ldDtVx x) (hslots : 0 < s.slots) (he : exec i s = .next u) :
    (s.withPlan rest).clockExec true p = .next (((u.retire.withPlan rest).tickBeside p).quitAndKey p) := by
  have hload : ¬ (s.withPlan rest).loadsTimer = true := fun h =>
    let ⟨x, hx⟩ := (State.loadsTimer_iff (s := s.withPlan rest) hf hd).1 h
    hi x hx
  exact State.clockExec_exec_first p hrst (State.execEnabled_of_slots (s := s.withPlan rest) hrun hslots)
    (Bool.eq_false_iff.2 hload) (execInstr_withPlan hf hd he rest)

variable (hquit : s.ports.quitSync2 = false)
include hquit

/-- Fx15 with no slot left and the tick that gives its slot: Tick, Exec, edge. -/
theorem clockExec_eq_tick_exec_edge (hi : ∃ x, i = .ldDtVx x) (hslots : s.slots = 0) (hpend : s.pendingTick = false)
    (htick : p.tick = true) (hipt : 0 < s.cfg.ipt) :
    (s.withPlan rest).clockExec true p =
      core.run 3 (s.withPlan (.tick :: .exec :: .clock { p with tick := false } :: rest)) := by
  have hpulse : s.tickPulse = s.tickStep := if_pos (State.tickEnabled_of_canTick (.inl ⟨hrun, hslots⟩))
  obtain ⟨htrun, htpend, htports, htfetch, -⟩ := s.tickStep_frame
  have hten := State.execEnabled_tickStep hrun hipt
  have htf := htfetch.trans hf
  have htd : decodeWord s.tickStep.cfg.legacyUnimplemented w = .ok i := by rw [s.tickStep_cfg]; exact hd
  obtain ⟨u, he⟩ := exec_answers i s.tickStep
  obtain ⟨huload, hupend, -⟩ := retire_frame he (htrun.trans hrun)
  have htickStep := step_planned_tick (State.latchedTickDue_of_not_pending hpend) hquit
    (.exec :: .clock { p with tick := false } :: rest)
  rw [hpulse] at htickStep
  have hexecStep := step_planned_exec hten (htports ▸ hquit) htf htd he (.clock { p with tick := false } :: rest)
  have hedgeStep := step_edge_without_pulse p hrst huload
    (State.latchedTickDue_of_not_pending (hupend.trans (htpend.trans hpend))) rest
  have hpin : (s.withPlan rest).tickPin p = s.tickStep.withPlan rest := by
    rw [State.tickPin_high _ p htick, s.tickPulse_withPlan, hpulse]
  have hshared : (s.withPlan rest).clockExec true p = .next ((u.retire.withPlan rest).quitAndKey p) :=
    State.clockExec_tick_first p hrst ((State.loadsTimer_iff (s := s.withPlan rest) hf hd).2 hi)
      (hpin ▸ hten) (hpin ▸ execInstr_withPlan htf htd he rest)
  exact hshared.trans (run_three_steps (M := core) htickStep hexecStep hedgeStep).symm

/-- An instruction other than Fx15 and a pulse: Exec, Tick, edge. -/
theorem clockExec_eq_exec_tick_edge (hi : ∀ x, i ≠ .ldDtVx x) (hslots : 0 < s.slots) (hpend : s.pendingTick = false)
    (htick : p.tick = true) :
    (s.withPlan rest).clockExec true p =
      core.run 3 (s.withPlan (.exec :: .tick :: .clock { p with tick := false } :: rest)) := by
  obtain ⟨u, he⟩ := exec_answers i s
  obtain ⟨huload, hupend, huports⟩ := retire_frame he hrun
  have hexecStep := step_planned_exec (State.execEnabled_of_slots hrun hslots) hquit hf hd he
    (.tick :: .clock { p with tick := false } :: rest)
  have htickStep := step_planned_tick (State.latchedTickDue_of_not_pending (hupend.trans hpend)) (huports ▸ hquit)
    (.clock { p with tick := false } :: rest)
  have hedgeStep := step_edge_without_pulse p hrst (u.retire.tickPulse_run ▸ huload)
    (State.tickPulse_latchedTickDue (hupend.trans hpend)) rest
  have hshared := clockExec_eq_tickBeside rest hrst hrun hf hd hi hslots he
  rw [State.tickBeside_of_pulse p (s := u.retire.withPlan rest) (hupend.trans hpend) htick,
    u.retire.tickPulse_withPlan] at hshared
  exact hshared.trans (run_three_steps (M := core) hexecStep htickStep hedgeStep).symm

/-- An instruction other than Fx15 and the latched tick its slot makes possible: Exec, that tick, edge. -/
theorem clockExec_eq_exec_latched_edge (hi : ∀ x, i ≠ .ldDtVx x) (hslots : 0 < s.slots) (he : exec i s = .next u)
    (hdue : u.retire.latchedTickDue = true) :
    (s.withPlan rest).clockExec true p =
      core.run 3 (s.withPlan (.exec :: .clock { p with tick := false } :: rest)) := by
  obtain ⟨huload, -, -⟩ := retire_frame he hrun
  obtain ⟨htrun, htpend, -⟩ := ({ u.retire with pendingTick := false } : State).tickStep_frame
  have hexecStep := step_planned_exec (State.execEnabled_of_slots hrun hslots) hquit hf hd he
    (.clock { p with tick := false } :: rest)
  have htickStep := step_latched hdue (.clock { p with tick := false } :: rest)
  have hedgeStep := step_edge_without_pulse (s := u.retire.latchedTick) p hrst (htrun ▸ huload)
    (State.latchedTickDue_of_not_pending htpend) rest
  have hshared := clockExec_eq_tickBeside rest hrst hrun hf hd hi hslots he
  rw [State.tickBeside_of_latched p (s := u.retire.withPlan rest) hdue, u.retire.latchedTick_withPlan] at hshared
  exact hshared.trans (run_three_steps (M := core) hexecStep htickStep hedgeStep).symm

end

end Sys2Proof.Machine

open Sys2Proof.Machine in
/-- Settles O32: Exec is the next step, its entry taken (R102), and the fetched word decodes (R105). -/
theorem stepRunsTheDecodedInstruction : Obligations.StepRunsTheDecodedInstruction := by
  intro s i hrun hslots hpc hd hquit
  have hf := s.fetch_ok hpc
  refine ⟨fun hnil => ?_, fun rest hcons => ?_⟩
  · have hstep := step_of_nextIsExec ⟨hrun, hslots, hquit, .inl hnil⟩
    obtain ⟨t, ht⟩ := exec_answers i s
    rw [State.planTaken_of_nil hnil] at hstep
    exact ⟨t, ht, hstep.trans (State.execInstr_of_decode hf hd ht)⟩
  · have hstep := step_of_nextIsExec ⟨hrun, hslots, hquit, .inr ⟨rest, hcons⟩⟩
    obtain ⟨t, ht⟩ := exec_answers i (s.withPlan rest)
    rw [State.planTaken_of_cons hcons] at hstep
    exact ⟨t, ht, hstep.trans (State.execInstr_of_decode (s := s.withPlan rest) hf hd ht)⟩

open Sys2Proof.Machine in
/-- Settles O33: Exec is the next step, and its fetch finds no word (R103). -/
theorem fetchPastTheEndFaults : Obligations.FetchPastTheEndFaults := by
  intro s hnext hend
  have hfetch : s.planTaken.fetch = .error _ := s.fetch_error hend
  exact ⟨_, (step_of_nextIsExec hnext).trans (State.execInstr_of_fetch_error hfetch), State.entersFault_raise _ _ _ _⟩

open Sys2Proof.Machine in
/-- Settles O60: the shared clock is compared with its whole steps, in the order that R203 and R251 give each case. -/
theorem overlappedClockIsASerialOrder : Obligations.OverlappedClockIsASerialOrder := by
  intro s p rest w i ⟨hsteps, hl, hq⟩ hrst hrun hquit hf hd
  have hstep : step s = (s.withPlan rest).clockExec true p := step_of_plans s _ rest hsteps hl hq
  rw [hstep]
  refine ⟨fun hi hslots htick hipt => ?_, fun hi hslots hpend htick => ?_, fun hi hslots hpend u he hcan => ?_⟩
  · have hen : s.tickEnabled = true := State.tickEnabled_of_canTick (.inl ⟨hrun, hslots⟩)
    have hpend : s.pendingTick = false := by simpa [State.latchedTickDue, hen] using hl
    exact clockExec_eq_tick_exec_edge rest hrst hrun hf hd hquit hi hslots hpend htick hipt
  · exact clockExec_eq_exec_tick_edge rest hrst hrun hf hd hquit hi hslots hpend htick
  · obtain ⟨-, hupend, -⟩ := retire_frame he hrun
    have hen : u.retire.tickEnabled = true := State.tickEnabled_of_canTick (s := u.retire) hcan
    have hdue : u.retire.latchedTickDue = true := Bool.and_eq_true_iff.2 ⟨hupend.trans hpend, hen⟩
    exact clockExec_eq_exec_latched_edge (s := s.withPlan rest) rest hrst hrun hf hd hquit hi hslots he hdue
end

section
/-! PROOFS. Control transfer and skips (spec/41_control_flow.md R120–R127): where PC goes, what the stack becomes, and
that nothing else changes. -/

namespace Sys2Proof.Machine

variable (s : State)

/-! ## Frames -/

theorem State.changesOnly_setPc (w : Word) : ChangesOnly (· ∈ [.pc]) s (s.setPc w) := by
  intro p hp
  cases p with
  | pc => simp at hp
  | _ => rfl

theorem changesOnly_pcAndStack (w : Word) (l : List Word) :
    ChangesOnly (· ∈ [.pc, .stack]) s { s with pc := w, stack := l } := by
  intro p hp
  cases p with
  | pc => simp at hp
  | stack => simp at hp
  | _ => rfl

/-! ## Targets (R84, R127) -/

@[simp] theorem addressOf_toNat (nnn : Addr12) : (addressOf nnn).toNat = nnn.toNat :=
  BitVec.toNat_setWidth_of_le (by decide)

/-- A 12-bit address and a byte sum to less than 2^16, so the target of JP V0 is the full sum (R127). -/
theorem addressOf_add_byte_toNat (nnn : Addr12) (b : Byte) :
    (addressOf nnn + b.setWidth 16).toNat = nnn.toNat + b.toNat := by
  have hb : (b.setWidth 16).toNat = b.toNat := BitVec.toNat_setWidth_of_le (by decide)
  rw [BitVec.toNat_add_of_lt (by rw [addressOf_toNat, hb]; omega), addressOf_toNat, hb]

/-! ## CALL and RET, one equation per branch -/

theorem exec_ret_of_nil (h : s.stack = []) : exec .ret s = .next (s.halt .halted) := by
  simp only [exec, execRet, h]

theorem exec_ret_of_cons {top : Word} {rest : List Word} (h : s.stack = top :: rest) :
    exec .ret s = .next { s with pc := top, stack := rest } := by
  simp only [exec, execRet, h]

theorem exec_call_of_full (nnn : Addr12) (h : s.stack.length = s.cfg.stackDepth) :
    exec (.call nnn) s = .next (s.raise .stackOverflow (encode (.call nnn)) 0) :=
  if_pos h

theorem exec_call_of_room (nnn : Addr12) (h : s.stack.length ≠ s.cfg.stackDepth) :
    exec (.call nnn) s = .next { s with pc := addressOf nnn, stack := (s.pc + 2) :: s.stack } :=
  if_neg h

/-! ## Skips -/

/-- An instruction that answers `skipIf` on the condition `P` skips the next word exactly where `P` holds (R104). -/
theorem exec_of_skipIf {i : Instr} (P : Prop) [Decidable P] (h : exec i s = .next (s.skipIf (decide P))) :
    ∃ t, exec i s = .next t ∧ t.pc.toNat = (s.pc.toNat + if P then 4 else 2) % 65536 ∧
      ChangesOnly (· ∈ [.pc]) s t := by
  refine ⟨_, h, ?_, ?_⟩
  · by_cases hP : P <;> simp [hP]
  · rw [State.skipIf_eq]
    exact s.changesOnly_setPc _

end Sys2Proof.Machine

open Sys2Proof Sys2Proof.Machine

/-- Settles O7, by the two forms of the stack. -/
theorem returnPopsOrHalts : Obligations.ReturnPopsOrHalts := by
  intro s
  refine ⟨encodedAs_encode .ret, fun top rest hcons => ?_, fun hnil => ?_⟩
  · exact ⟨_, exec_ret_of_cons s hcons, rfl, rfl, changesOnly_pcAndStack s top rest⟩
  · exact ⟨_, exec_ret_of_nil s hnil, rfl, changesOnly_run s .halted⟩

/-- Settles O8: both instructions are `setPc`, and neither target reaches 2^16. -/
theorem jumpsGoToTheAddress : Obligations.JumpsGoToTheAddress := by
  intro s nnn
  refine ⟨encodedAs_encode (.jp nnn), encodedAs_encode (.jpV0 nnn), ?_, ?_⟩
  · exact ⟨_, rfl, addressOf_toNat nnn, s.changesOnly_setPc _⟩
  · exact ⟨_, rfl, addressOf_add_byte_toNat nnn (s.reg 0x0), s.changesOnly_setPc _⟩

/-- Settles O9, by whether the stack is full. -/
theorem callPushesReturnAddressOrOverflows : Obligations.CallPushesReturnAddressOrOverflows := by
  intro s nnn
  refine ⟨encodedAs_encode (.call nnn), fun hroom => ?_, fun hfull => ?_⟩
  · exact ⟨_, exec_call_of_room s nnn hroom, rfl, addressOf_toNat nnn, changesOnly_pcAndStack s _ _⟩
  · exact ⟨_, exec_call_of_full s nnn hfull, s.entersFault_raise _ _ _⟩

/-- Settles O10: the RET pops what the CALL pushed. -/
theorem returnResumesAfterTheCall : Obligations.ReturnResumesAfterTheCall := by
  intro s nnn here hroom
  exact ⟨_, _, exec_call_of_room s nnn hroom, exec_ret_of_cons _ rfl, rfl, rfl⟩

/-- Settles O11: each of the two is `skipIf` on its comparison. -/
theorem skipsCompareWithTheImmediate : Obligations.SkipsCompareWithTheImmediate := by
  intro s x kk
  exact ⟨encodedAs_encode (.seImm x kk), encodedAs_encode (.sneImm x kk),
    exec_of_skipIf s (s.reg x = kk) rfl, exec_of_skipIf s (s.reg x ≠ kk) rfl⟩

/-- Settles O12: each of the two is `skipIf` on its comparison, which does not read n. -/
theorem skipsCompareTwoRegisters : Obligations.SkipsCompareTwoRegisters := by
  intro s x y n
  exact ⟨encodedAs_encode (.seReg x y n), encodedAs_encode (.sneReg x y n),
    exec_of_skipIf s (s.reg x = s.reg y) rfl, exec_of_skipIf s (s.reg x ≠ s.reg y) rfl⟩
end

section
/-! PROOFS. Register arithmetic and logic (spec/42_alu.md R140–R150): the result in `V[x]`, the flag in VF, and that
nothing else changes. -/

namespace Sys2Proof.Machine

variable {s t u : State}

/-! ## Frames -/

/-- Two changes in turn change no more than the two together. -/
theorem ChangesOnly.trans {l l' : List Piece} (h : ChangesOnly (· ∈ l) s t) (h' : ChangesOnly (· ∈ l') t u) :
    ChangesOnly (· ∈ l ++ l') s u := by
  intro p hp
  have hfirst := h p fun hm => hp (List.mem_append_left _ hm)
  have hthen := h' p fun hm => hp (List.mem_append_right _ hm)
  cases p <;> exact hthen.trans hfirst

variable (s) (x : Nibble)

theorem State.changesOnly_setReg (b : Byte) : ChangesOnly (· ∈ [.reg x]) s (s.setReg x b) := by
  intro p hp
  cases p with
  | reg r => exact s.setReg_reg_ne x r b (by simpa using hp)
  | _ => rfl

theorem State.changesOnly_advance : ChangesOnly (· ∈ [.pc]) s s.advance := s.changesOnly_setPc (s.pc + 2)

theorem State.changesOnly_consumeRnd : ChangesOnly (· ∈ [.rnd, .draws]) s s.consumeRnd := by
  intro p hp
  cases p with
  | rnd => simp at hp
  | draws => simp at hp
  | _ => rfl

theorem State.changesOnly_setReg_advance (b : Byte) : ChangesOnly (· ∈ [.reg x, .pc]) s (s.setReg x b).advance :=
  (s.changesOnly_setReg x b).trans (s.setReg x b).changesOnly_advance

/-! ## The arithmetic as numbers (R149) -/

theorem addMod_toNat (a b : Byte) : (addMod a b).toNat = (a.toNat + b.toNat) % 256 :=
  (BitVec.toNat_ofNat _ 8).trans (Nat.mod_mod _ 256)

theorem subMod_toNat (a b : Byte) : (subMod a b).toNat = (a.toNat + 256 - b.toNat) % 256 :=
  (BitVec.toNat_ofNat _ 8).trans (Nat.mod_mod _ 256)

theorem b2n_decide_toNat (P : Prop) [Decidable P] : (b2n (decide P)).toNat = if P then 1 else 0 := by
  by_cases hP : P <;> simp [b2n, hP]

/-! ## The draw (R148) -/

theorem State.rndByte_of_cons {r : Byte} {rest : List Byte} (h : s.host.rnd = r :: rest) : s.rndByte = r := by
  simp only [State.rndByte, h]

theorem State.rndByte_of_nil (h : s.host.rnd = []) : s.rndByte = Config.freeByte s.host.draws := by
  simp only [State.rndByte, h]

/-! ## What an instruction answers -/

variable {i : Instr} {a : Byte}

/-- An instruction that answers one plain result, of which `P` holds, leaves `P` true of `V[x]` and changes no flag. -/
theorem exec_of_setReg (P : Byte → Prop) (hP : P a) (h : exec i s = .next (s.setReg x a).advance) :
    ∃ t, exec i s = .next t ∧ P (t.reg x) ∧ t.pc = s.pc + 2 ∧ ChangesOnly (· ∈ [.reg x, .pc]) s t := by
  refine ⟨_, h, ?_, rfl, s.changesOnly_setReg_advance x a⟩
  rwa [State.advance_reg, State.setReg_reg_same]

/-- An instruction that answers a result of value `n` and then the flag for `P` leaves `n` in `V[x]` unless that is VF,
and the flag in VF (R150). -/
theorem exec_of_setRegThenFlag {n : Nat} (P : Prop) [Decidable P] (ha : a.toNat = n)
    (h : exec i s = .next (s.setRegThenFlag x a (b2n (decide P))).advance) :
    ∃ t, exec i s = .next t ∧ (x ≠ 0xF → (t.reg x).toNat = n) ∧ (t.reg 0xF).toNat = (if P then 1 else 0) ∧
      t.pc = s.pc + 2 ∧ ChangesOnly (· ∈ [.reg x, .reg 0xF, .pc]) s t := by
  have hframe := (s.changesOnly_setReg x a).trans ((s.setReg x a).changesOnly_setReg_advance vf (b2n (decide P)))
  refine ⟨_, h, fun hx => ?_, ?_, rfl, hframe⟩
  · rw [State.advance_reg, State.setRegThenFlag_reg, if_neg (show x ≠ vf from hx), if_pos rfl, ha]
  · rw [State.advance_reg, State.setRegThenFlag_reg, if_pos (show 0xF = vf from rfl), b2n_decide_toNat]

/-- RND gives `V[x]` the masked draw and uses the draw up (R148). -/
theorem exec_rnd (kk : Byte) :
    ∃ t, exec (.rnd x kk) s = .next t ∧ t.reg x = s.rndByte &&& kk ∧ t.host.rnd = s.host.rnd.tail ∧
      t.host.draws = s.host.draws + 1 ∧ t.pc = s.pc + 2 ∧ ChangesOnly (· ∈ [.reg x, .pc, .rnd, .draws]) s t := by
  have hframe := s.changesOnly_consumeRnd.trans (s.consumeRnd.changesOnly_setReg_advance x (s.rndByte &&& kk))
  exact ⟨_, rfl, State.setReg_reg_same _ x _, rfl, rfl, rfl, hframe.mono (by simp)⟩

end Sys2Proof.Machine

open Sys2Proof Sys2Proof.Machine

/-- Settles O1: both results are plain. -/
theorem loadsGiveTheRegisterTheValue : Obligations.LoadsGiveTheRegisterTheValue := by
  intro s x y kk
  exact ⟨encodedAs_encode (.ldImm x kk), encodedAs_encode (.ldReg x y),
    exec_of_setReg s x (· = kk) rfl rfl, exec_of_setReg s x (· = s.reg y) rfl rfl⟩

/-- Settles O2: the sum is a plain result. -/
theorem addImmediateWrapsWithoutFlag : Obligations.AddImmediateWrapsWithoutFlag := by
  intro s x kk
  exact ⟨encodedAs_encode (.addImm x kk),
    exec_of_setReg s x (·.toNat = ((s.reg x).toNat + kk.toNat) % 256) (addMod_toNat (s.reg x) kk) rfl⟩

/-- Settles O3: each result is plain, and its bits are those of the operation. -/
theorem logicWorksBitByBitWithoutFlag : Obligations.LogicWorksBitByBitWithoutFlag := by
  intro s x y
  refine ⟨encodedAs_encode (.orReg x y), encodedAs_encode (.andReg x y), encodedAs_encode (.xorReg x y), ?_, ?_, ?_⟩
  · exact exec_of_setReg s x (fun v => ∀ b, v.getLsbD b = ((s.reg x).getLsbD b || (s.reg y).getLsbD b))
      (fun _ => BitVec.getLsbD_or) rfl
  · exact exec_of_setReg s x (fun v => ∀ b, v.getLsbD b = ((s.reg x).getLsbD b && (s.reg y).getLsbD b))
      (fun _ => BitVec.getLsbD_and) rfl
  · exact exec_of_setReg s x (fun v => ∀ b, v.getLsbD b = ((s.reg x).getLsbD b ^^ (s.reg y).getLsbD b))
      (fun _ => BitVec.getLsbD_xor) rfl

/-- Settles O4: the sum, then the carry. -/
theorem addStoresSumThenCarry : Obligations.AddStoresSumThenCarry := by
  intro s x y
  exact ⟨encodedAs_encode (.addReg x y),
    exec_of_setRegThenFlag s x ((s.reg x).toNat + (s.reg y).toNat > 255) (addMod_toNat _ _) rfl⟩

/-- Settles O5: the difference, then the no-borrow flag. -/
theorem subStoresDifferenceThenNoBorrow : Obligations.SubStoresDifferenceThenNoBorrow := by
  intro s x y
  exact ⟨encodedAs_encode (.subReg x y),
    exec_of_setRegThenFlag s x ((s.reg x).toNat ≥ (s.reg y).toNat) (subMod_toNat _ _) rfl⟩

/-- Settles O6: `V[x]` is the masked draw, and the draw is used up, whichever its source. -/
theorem randomByteIsDrawnAndMasked : Obligations.RandomByteIsDrawnAndMasked := by
  intro s x kk
  obtain ⟨t, hexec, hreg, hrnd, hdraws, hpc, hframe⟩ := exec_rnd s x kk
  refine ⟨encodedAs_encode (.rnd x kk), t, hexec, fun r rest hcons => ?_, fun hnil => ?_, fun hzero => ?_,
    hdraws, hpc, hframe⟩
  · exact ⟨by rw [hreg, s.rndByte_of_cons hcons], by rw [hrnd, hcons, List.tail_cons]⟩
  · exact ⟨by rw [hreg, s.rndByte_of_nil hnil], by rw [hrnd, hnil, List.tail_nil]⟩
  · rw [hreg, hzero]
    exact BitVec.and_zero
end

section
/-! PROOFS. The index register and memory transfers (spec/43_index_memory.md R160–R166): the new I, the bytes stored or
the registers loaded, the range check, and that nothing else changes. -/

namespace Sys2Proof.Machine

variable (s : State)

/-! ## Frames -/

theorem State.changesOnly_setIndex (w : Word) : ChangesOnly (· ∈ [.index]) s (s.setIndex w) := by
  intro p hp
  cases p with
  | index => simp at hp
  | _ => rfl

/-- A store of `n` bytes inside `MEM_SIZE`, then the default advance, changes those bytes and PC (R163, R164). -/
theorem State.changesOnly_storeRange_advance (n : Nat) (f : Nat → Byte) (hw : Memory.wf s.cfg s.mem = true)
    (hr : s.i.toNat + n ≤ s.cfg.memSize) :
    ChangesOnly (fun p => p = .pc ∨ ∃ k, k < n ∧ p = .mem (s.i.toNat + k)) s (s.storeRange n f).advance := by
  obtain ⟨-, hread⟩ := s.storeRange_spec n f hw (.inr hr)
  obtain ⟨m, hm⟩ := s.storeRange_eq n f
  intro p hp
  cases p with
  | pc => exact absurd (.inl rfl) hp
  | mem a =>
    have hout : ¬ (s.i.toNat ≤ a ∧ a < s.i.toNat + n) := fun ⟨hlow, hhigh⟩ =>
      hp (.inr ⟨a - s.i.toNat, by omega, by rw [Nat.add_sub_cancel' hlow]⟩)
    exact (hread a).trans (if_neg hout)
  | _ => rw [hm]; rfl

/-- A load of `n` registers, then the default advance, changes those registers and PC (R165). -/
theorem State.changesOnly_loadRange_advance (n : Nat) (hn : n ≤ 16) :
    ChangesOnly (fun p => p = .pc ∨ ∃ q : Nibble, q.toNat < n ∧ p = .reg q) s (s.loadRange n).advance := by
  obtain ⟨v, hv⟩ := s.loadRange_eq n
  intro p hp
  cases p with
  | pc => exact absurd (.inl rfl) hp
  | reg q =>
    have hq : ¬ q.toNat < n := fun hlt => hp (.inr ⟨q, hlt, rfl⟩)
    exact (s.loadRange_reg n hn q).trans (if_neg hq)
  | _ => rw [hv]; rfl

/-! ## Values -/

theorem byte_setWidth_toNat (b : Byte) : (b.setWidth 16).toNat = b.toNat := BitVec.toNat_setWidth_of_le (by decide)

/-- Five times a byte is less than 2^16, so LD F, Vx loses no bit (R162). -/
theorem byte_mul_five_toNat (b : Byte) : (b.setWidth 16 * 5).toNat = b.toNat * 5 := by
  have hfits : b.toNat * 5 < 65536 := by omega
  rw [BitVec.toNat_mul, byte_setWidth_toNat]
  exact Nat.mod_eq_of_lt hfits

theorem word_add_byte_toNat (w : Word) (b : Byte) : (w + b.setWidth 16).toNat = (w.toNat + b.toNat) % 65536 := by
  rw [BitVec.toNat_add, byte_setWidth_toNat]

/-- The three digits of a byte as numbers (R163). -/
theorem bcdDigit_toNat (b : Byte) :
    (bcdDigit b 0).toNat = b.toNat / 100 ∧ (bcdDigit b 1).toNat = b.toNat / 10 % 10 ∧
      (bcdDigit b 2).toNat = b.toNat % 10 := by
  simp only [bcdDigit, BitVec.toNat_ofNat]
  omega

@[simp] theorem State.loadRange_pc (n : Nat) : (s.loadRange n).pc = s.pc := by
  obtain ⟨v, hv⟩ := s.loadRange_eq n
  rw [hv]

/-- After a store of `n` bytes inside `MEM_SIZE` the byte at `I + k` is the k-th one stored. -/
theorem State.storeRange_readByte_stored (n k : Nat) (f : Nat → Byte) (hw : Memory.wf s.cfg s.mem = true)
    (hr : s.i.toNat + n ≤ s.cfg.memSize) (hk : k < n) : (s.storeRange n f).readByte (s.i.toNat + k) = f k := by
  obtain ⟨-, hread⟩ := s.storeRange_spec n f hw (.inr hr)
  rw [hread, if_pos (by omega), Nat.add_sub_cancel_left]

/-! ## What an instruction answers -/

variable {s} {i : Instr} {w : Word} {n : Nat} {ok : State}

/-- An instruction that answers a new I of value `n` changes nothing else but PC (R160–R162). -/
theorem exec_of_setIndex (hw : w.toNat = n) (h : exec i s = .next (s.setIndex w).advance) :
    ∃ t, exec i s = .next t ∧ t.i.toNat = n ∧ t.pc = s.pc + 2 ∧ ChangesOnly (· ∈ [.index, .pc]) s t :=
  ⟨_, h, hw, rfl, (s.changesOnly_setIndex w).trans (s.setIndex w).changesOnly_advance⟩

/-- An instruction that checks `n + 1` bytes from I does its work where the last of them exists (R166). -/
theorem exec_of_guardRange_inRange (h : exec i s = .next (s.guardRange (n + 1) w ok))
    (hr : s.i.toNat + n < s.cfg.memSize) : exec i s = .next ok := by
  rw [h, s.guardRange_ok (n + 1) w ok (.inr hr)]

/-- An instruction that checks `n + 1` bytes from I raises MemoryRange where the last of them does not exist (R166). -/
theorem exec_of_guardRange_outOfRange (h : exec i s = .next (s.guardRange (n + 1) w ok))
    (hr : s.cfg.memSize ≤ s.i.toNat + n) :
    ∃ t, exec i s = .next t ∧ EntersFault s t .memoryRange w (max s.i.toNat s.cfg.memSize) := by
  rw [s.guardRange_fault (n + 1) w ok n.succ_pos (Nat.lt_succ_of_le hr)] at h
  exact ⟨_, h, s.entersFault_raise _ _ _⟩

end Sys2Proof.Machine

open Sys2Proof Sys2Proof.Machine

/-- Settles O13: neither a 12-bit address nor five times a byte reaches 2^16. -/
theorem indexIsSetToAddressOrGlyph : Obligations.IndexIsSetToAddressOrGlyph := by
  intro s x nnn
  exact ⟨encodedAs_encode (.ldI nnn), encodedAs_encode (.ldFVx x),
    exec_of_setIndex (addressOf_toNat nnn) rfl, exec_of_setIndex (byte_mul_five_toNat (s.reg x)) rfl⟩

/-- Settles O14: the sum is the new I, and of the registers none is written. -/
theorem addToIndexWrapsWithoutFlag : Obligations.AddToIndexWrapsWithoutFlag := by
  intro s x
  exact ⟨encodedAs_encode (.addIVx x), exec_of_setIndex (word_add_byte_toNat s.i (s.reg x)) rfl⟩

/-- Settles O15: a store of the three digits, guarded by the range check. -/
theorem bcdStoresThreeDigits : Obligations.BcdStoresThreeDigits := by
  intro s x hw
  refine ⟨encodedAs_encode (.ldBVx x), fun hin => ?_, exec_of_guardRange_outOfRange rfl⟩
  have hstored (k : Nat) (hk : k < 3) := s.storeRange_readByte_stored 3 k (bcdDigit (s.reg x)) hw hin hk
  obtain ⟨hhundreds, htens, hones⟩ := bcdDigit_toNat (s.reg x)
  refine ⟨_, exec_of_guardRange_inRange rfl hin, ?_, ?_, ?_, ?_, s.changesOnly_storeRange_advance 3 _ hw hin⟩
  · rw [State.advance_readByte, ← hhundreds]
    exact congrArg BitVec.toNat (hstored 0 (by decide))
  · rw [State.advance_readByte, hstored 1 (by decide), htens]
  · rw [State.advance_readByte, hstored 2 (by decide), hones]
  · rw [State.advance_pc, State.storeRange_pc]

/-- Settles O16: a store of V0 to Vx, guarded by the range check. -/
theorem storeWritesRegistersToMemory : Obligations.StoreWritesRegistersToMemory := by
  intro s x hw
  refine ⟨encodedAs_encode (.storeRegs x), fun hin => ⟨_, exec_storeRegs_inRange s x hin, fun q hq => ?_, ?_, ?_⟩,
    exec_of_guardRange_outOfRange rfl⟩
  · rw [State.advance_readByte, s.storeRange_readByte_reg (x.toNat + 1) q hw hin (Nat.lt_succ_of_le hq)]
  · rw [State.advance_pc, State.storeRange_pc]
  · simpa only [Nat.lt_succ_iff] using s.changesOnly_storeRange_advance (x.toNat + 1) _ hw hin

/-- Settles O17: a load of V0 to Vx, guarded by the range check. -/
theorem loadReadsRegistersFromMemory : Obligations.LoadReadsRegistersFromMemory := by
  intro s x
  have hcount : x.toNat + 1 ≤ 16 := x.isLt
  refine ⟨encodedAs_encode (.loadRegs x), fun hin => ⟨_, exec_of_guardRange_inRange rfl hin, fun q hq => ?_, ?_, ?_⟩,
    exec_of_guardRange_outOfRange rfl⟩
  · rw [State.advance_reg, s.loadRange_reg _ hcount, if_pos (Nat.lt_succ_of_le hq)]
  · rw [State.advance_pc, State.loadRange_pc]
  · simpa only [Nat.lt_succ_iff] using s.changesOnly_loadRange_advance (x.toNat + 1) hcount
end

section
/-! PROOFS. The display (spec/44_display.md R180–R186): what CLS and DRW do to each pixel, the collision in VF, the range
check, and that nothing else changes. -/

namespace Sys2Proof.Machine

variable (s : State)

/-! ## CLS (R181) -/

theorem State.changesOnly_clear_emitFrame_advance :
    ChangesOnly (fun p => p ∈ [.frames, .pc] ∨ ∃ x y, p = .pixel x y) s
      ({ s with fb := Framebuffer.clear } : State).emitFrame.advance := by
  intro p hp
  cases p with
  | frames => simp at hp
  | pc => simp at hp
  | pixel x y => exact absurd (.inr ⟨x, y, rfl⟩) hp
  | _ => rfl

/-! ## The bytes of the sprite -/

@[simp] theorem State.readRange_length (n : Nat) : (s.readRange n).length = n := by
  simp [State.readRange]

theorem State.readRange_getD (n k : Nat) (hk : k < n) : (s.readRange n).getD k 0 = s.readByte (s.i.toNat + k) := by
  simp [State.readRange, State.dataAddr, hk]

/-- The bit of the sprite in row `r` and column `b`, the most significant one leftmost (R182). -/
def State.spriteBit (r b : Nat) : Bool := (s.readByte (s.i.toNat + r)).getLsbD (7 - b)

theorem State.readRange_getLsbD (n r b : Nat) (hr : r < n) :
    ((s.readRange n).getD r 0).getLsbD (7 - b) = s.spriteBit r b :=
  congrArg (BitVec.getLsbD · (7 - b)) (s.readRange_getD n r hr)

/-! ## DRW (R182) -/

variable (x y n : Nibble)

/-- The state a DRW with its rows in range ends in. -/
def State.drawn : State := (s.present (s.fb.blit (s.reg x) (s.reg y) (s.readRange n.toNat))).advance

/-- A set bit of the sprite meets a set pixel (R182). -/
def State.Collides : Prop :=
  ∃ r b, r < n.toNat ∧ b < 8 ∧ s.fb.pixel (spriteColumn (s.reg x) b) (spriteRow (s.reg y) r) = true ∧
    s.spriteBit r b = true

theorem exec_drw_inRange (h : n = 0 ∨ s.i.toNat + n.toNat - 1 < s.cfg.memSize) :
    exec (.drw x y n) s = .next (s.drawn x y n) := by
  refine congrArg Host.Outcome.next (s.guardRange_ok n.toNat _ _ ?_)
  rcases h with rfl | hlast
  · exact .inl rfl
  · omega

theorem exec_drw_outOfRange (h0 : n ≠ 0) (h : s.cfg.memSize ≤ s.i.toNat + n.toNat - 1) :
    exec (.drw x y n) s =
      .next (s.raise .memoryRange (encode (.drw x y n)) (max s.i.toNat s.cfg.memSize)) := by
  have hpos : 0 < n.toNat := Nat.pos_of_ne_zero fun hz => h0 (BitVec.eq_of_toNat_eq hz)
  exact congrArg Host.Outcome.next (s.guardRange_fault n.toNat _ _ hpos (by omega))

/-! ## The pixels and VF after a draw (R182–R184) -/

/-- A DRW with its rows in range XORs the pixels it covers, leaves the others, and collides where a set bit meets a set
pixel: `blitRows_spec` on the bytes read from I. -/
theorem State.drawn_spec :
    (∀ r b, r < n.toNat → b < 8 →
      (s.drawn x y n).fb.pixel (spriteColumn (s.reg x) b) (spriteRow (s.reg y) r) =
        (s.fb.pixel (spriteColumn (s.reg x) b) (spriteRow (s.reg y) r) ^^ s.spriteBit r b)) ∧
    (∀ cx cy, (∀ r b, r < n.toNat → b < 8 → ¬ (spriteColumn (s.reg x) b = cx ∧ spriteRow (s.reg y) r = cy)) →
      (s.drawn x y n).fb.pixel cx cy = s.fb.pixel cx cy) ∧
    ((s.fb.blit (s.reg x) (s.reg y) (s.readRange n.toNat)).coll = true ↔ s.Collides x y n) := by
  have hrows : (s.readRange n.toNat).length ≤ 32 := by
    rw [State.readRange_length]
    omega
  obtain ⟨hin, hout, hcoll⟩ :=
    blitRows_spec (s.reg x) (s.reg y) (s.readRange n.toNat) 0 { fb := s.fb, coll := false } hrows
  simp only [State.readRange_length, Nat.zero_add] at hin hout hcoll
  refine ⟨fun r b hr hb => ?_, hout, hcoll.trans ⟨?_, ?_⟩⟩
  · rw [← s.readRange_getLsbD n.toNat r b hr]
    exact hin r b hr hb
  · rintro (hfalse | ⟨r, b, hr, hb, hpixel, hbit⟩)
    · exact absurd hfalse Bool.false_ne_true
    · exact ⟨r, b, hr, hb, hpixel, (s.readRange_getLsbD n.toNat r b hr).symm.trans hbit⟩
  · rintro ⟨r, b, hr, hb, hpixel, hbit⟩
    exact .inr ⟨r, b, hr, hb, hpixel, (s.readRange_getLsbD n.toNat r b hr).trans hbit⟩

theorem State.drawn_reg_vf :
    (s.drawn x y n).reg vf = b2n (s.fb.blit (s.reg x) (s.reg y) (s.readRange n.toNat)).coll :=
  State.setReg_reg_same _ vf _

theorem State.drawn_reg_vf_of_collides (h : s.Collides x y n) : (s.drawn x y n).reg vf = 1 := by
  obtain ⟨-, -, hcoll⟩ := s.drawn_spec x y n
  rw [State.drawn_reg_vf, hcoll.2 h]
  rfl

theorem State.drawn_reg_vf_of_not_collides (h : ¬ s.Collides x y n) : (s.drawn x y n).reg vf = 0 := by
  obtain ⟨-, -, hcoll⟩ := s.drawn_spec x y n
  rw [State.drawn_reg_vf, Bool.eq_false_iff.2 (mt hcoll.1 h)]
  rfl

theorem State.drawn_reg_ne (q : Nibble) (hq : q ≠ vf) : (s.drawn x y n).reg q = s.reg q :=
  State.setReg_reg_ne _ vf q _ hq

@[simp] theorem State.drawn_spriteBit (r b : Nat) : (s.drawn x y n).spriteBit r b = s.spriteBit r b := rfl

/-- A draw changes VF, the covered pixels, the count of frame updates and PC (R182). -/
theorem State.changesOnly_drawn :
    ChangesOnly (fun p => p ∈ [.reg vf, .frames, .pc] ∨
      ∃ r b, r < n.toNat ∧ b < 8 ∧ p = .pixel (spriteColumn (s.reg x) b) (spriteRow (s.reg y) r))
      s (s.drawn x y n) := by
  obtain ⟨-, hout, -⟩ := s.drawn_spec x y n
  intro p hp
  cases p with
  | reg q => exact s.drawn_reg_ne x y n q fun hq => hp (.inl (by simp [hq]))
  | frames => simp at hp
  | pc => simp at hp
  | pixel cx cy =>
    refine hout cx cy fun r b hr hb ⟨hcol, hrow⟩ => hp (.inr ⟨r, b, hr, hb, ?_⟩)
    rw [hcol, hrow]
  | _ => rfl

/-! ## Drawing twice (R186) -/

/-- With its coordinates not in VF, the second draw XORs the same pixels with the same bits. -/
theorem State.drawn_drawn_fb (hx : x ≠ vf) (hy : y ≠ vf) : ((s.drawn x y n).drawn x y n).fb = s.fb := by
  obtain ⟨hin, hout, -⟩ := s.drawn_spec x y n
  obtain ⟨hin2, hout2, -⟩ := (s.drawn x y n).drawn_spec x y n
  rw [s.drawn_reg_ne x y n x hx, s.drawn_reg_ne x y n y hy] at hin2 hout2
  apply Framebuffer.ext
  intro cx cy
  by_cases hcovered : ∃ r b, r < n.toNat ∧ b < 8 ∧ spriteColumn (s.reg x) b = cx ∧ spriteRow (s.reg y) r = cy
  · obtain ⟨r, b, hr, hb, rfl, rfl⟩ := hcovered
    rw [hin2 r b hr hb, hin r b hr hb, State.drawn_spriteBit, Bool.xor_assoc, Bool.xor_self, Bool.xor_false]
  · have hfree : ∀ r b, r < n.toNat → b < 8 → ¬ (spriteColumn (s.reg x) b = cx ∧ spriteRow (s.reg y) r = cy) :=
      fun r b hr hb hcell => hcovered ⟨r, b, hr, hb, hcell⟩
    rw [hout2 cx cy hfree, hout cx cy hfree]

/-- A set bit drawn on an unset pixel sets it, so the second draw of that bit collides. -/
theorem State.drawn_collides (hx : x ≠ vf) (hy : y ≠ vf) (r b : Nat) (hr : r < n.toNat) (hb : b < 8)
    (hpixel : s.fb.pixel (spriteColumn (s.reg x) b) (spriteRow (s.reg y) r) = false)
    (hbit : s.spriteBit r b = true) : (s.drawn x y n).Collides x y n := by
  obtain ⟨hin, -, -⟩ := s.drawn_spec x y n
  refine ⟨r, b, hr, hb, ?_, hbit⟩
  rw [s.drawn_reg_ne x y n x hx, s.drawn_reg_ne x y n y hy, hin r b hr hb, hpixel, hbit]
  rfl

end Sys2Proof.Machine

open Sys2Proof Sys2Proof.Machine

/-- Settles O20: in range the draw is `State.drawn`, pixel by pixel `State.drawn_spec`; else the range check raises. -/
theorem drawXorsTheSprite : Obligations.DrawXorsTheSprite := by
  intro s x y n
  refine ⟨encodedAs_encode (.drw x y n), fun hin => ?_, fun h0 hout => ?_⟩
  · obtain ⟨hcovered, -, -⟩ := s.drawn_spec x y n
    refine ⟨_, exec_drw_inRange s x y n hin, hcovered, s.drawn_reg_vf_of_collides x y n, fun hnone => ?_, rfl, rfl,
      s.changesOnly_drawn x y n⟩
    refine s.drawn_reg_vf_of_not_collides x y n fun ⟨r, b, hr, hb, hpixel, hbit⟩ => ?_
    rcases hnone r b hr hb with hunset | hclear
    · exact Bool.false_ne_true (hunset.symm.trans hpixel)
    · exact Bool.false_ne_true (hclear.symm.trans hbit)
  · exact ⟨_, exec_drw_outOfRange s x y n h0 hout, s.entersFault_raise _ _ _⟩

/-- Settles O21: sprite cells are distinct since 8 < 64 and 15 < 32, so XORing each twice restores it. -/
theorem drawingTwiceGivesTheScreenBack : Obligations.DrawingTwiceGivesTheScreenBack := by
  intro s x y n hx hy hin
  refine ⟨fun r b r' b' hr hr' hb hb' hcol hrow => ⟨?_, ?_⟩, _, _, exec_drw_inRange s x y n hin,
    exec_drw_inRange (s.drawn x y n) x y n hin, s.drawn_drawn_fb x y n hx hy, fun hempty => ⟨?_, ?_⟩⟩
  · exact spriteRow_inj (s.reg y) r r' (by omega) (by omega) hrow
  · exact spriteColumn_inj (s.reg x) b b' (by omega) (by omega) hcol
  · refine s.drawn_reg_vf_of_not_collides x y n fun ⟨r, b, hr, hb, hpixel, _⟩ => ?_
    exact Bool.false_ne_true ((hempty r b hr hb).symm.trans hpixel)
  · rintro ⟨r, b, hr, hb, hbit⟩
    exact (s.drawn x y n).drawn_reg_vf_of_collides x y n
      (s.drawn_collides x y n hx hy r b hr hb (hempty r b hr hb) hbit)

/-- Settles O19: CLS writes the empty framebuffer, emits, and advances. -/
theorem clearUnsetsEveryPixel : Obligations.ClearUnsetsEveryPixel := by
  intro s
  exact ⟨encodedAs_encode .cls, _, rfl, Framebuffer.pixel_clear, rfl, rfl, s.changesOnly_clear_emitFrame_advance⟩
end

section
/-! PROOFS. The timers (spec/45_timers.md): their instructions (R204–R206), and the order of a tick and an access to DT
that share a clock (R203; log 21). -/

namespace Sys2Proof.Machine

variable (s : State) {t u : State}

/-! ## Frames -/

theorem State.changesOnly_timerLoad (b : Byte) : ChangesOnly (· ∈ [.dt]) s (s.timerLoad b) := by
  intro p hp
  cases p with
  | dt => simp at hp
  | _ => rfl

theorem State.changesOnly_timerLoad_advance (b : Byte) : ChangesOnly (· ∈ [.dt, .pc]) s (s.timerLoad b).advance :=
  (s.changesOnly_timerLoad b).trans (s.timerLoad b).changesOnly_advance

theorem changesOnly_st (b : Byte) : ChangesOnly (· ∈ [.st]) s { s with st := b } := by
  intro p hp
  cases p with
  | st => simp at hp
  | _ => rfl

theorem changesOnly_slots (n : Nat) : ChangesOnly (· ∈ [.slots]) s { s with slots := n } := by
  intro p hp
  cases p with
  | slots => simp at hp
  | _ => rfl

theorem State.changesOnly_latchedTick :
    ChangesOnly (· ∈ [.pendingTick, .dt, .idle, .keys, .slots]) s s.latchedTick :=
  (changesOnly_pendingTick s false).trans (State.changesOnly_tickStep _)

/-- The move of the flip-flops at an edge changes the ports alone. -/
theorem changesOnly_ports (q : Ports) : ChangesOnly (· ∈ [.ports]) s { s with ports := q } := by
  intro p hp
  cases p with
  | ports => simp at hp
  | _ => rfl

/-! ## The clock that a tick and an access to DT share (R203) -/

/-- An instruction that leaves the block RUNNING takes one slot (R107). -/
theorem State.retire_of_running (h : s.run = .running) : s.retire = { s with slots := s.slots - 1 } := if_pos h

section
variable {s} {p : Pins} {w : Word} {i : Instr} (hrst : p.rst = false) (hrun : s.run = .running)
  (hquit : s.ports.quitSync2 = false) (hkey : ¬ s.ports.NewRequest) (hf : s.fetch = .ok w)
  (hd : decodeWord s.cfg.legacyUnimplemented w = .ok i)
include hquit hkey

/-- Where the block's own steps have left the ports, the end of an edge that sees neither quit nor key moves them on. -/
theorem State.quitAndKey_of_ports (h : t.ports = s.ports) : t.quitAndKey p = { t with ports := s.ports.shifted p } := by
  rw [State.quitAndKey_idle t p (h ▸ hquit) (h ▸ hkey), h]

include hrst hrun hf hd

/-- A load of DT beside the tick that gives its slot comes second. -/
theorem clockExec_tick_then_exec (hi : ∃ x, i = .ldDtVx x) (hslots : s.slots = 0) (htick : p.tick = true)
    (hipt : 0 < s.cfg.ipt) (he : exec i s.tickStep = .next u) (hu : u.run = .running) :
    s.clockExec true p = .next { u with slots := u.slots - 1, ports := s.ports.shifted p } := by
  obtain ⟨htrun, -, htports, htfetch, -⟩ := s.tickStep_frame
  obtain ⟨-, -, hports⟩ := retire_frame he (htrun.trans hrun)
  have hpin : s.tickPin p = s.tickStep := by
    rw [s.tickPin_high p htick]
    exact if_pos (State.tickEnabled_of_canTick (.inl ⟨hrun, hslots⟩))
  have hdecode : decodeWord s.tickStep.cfg.legacyUnimplemented w = .ok i := by rwa [s.tickStep_cfg]
  have hinstr := State.execInstr_of_decode (htfetch.trans hf) hdecode he
  rw [State.clockExec_tick_first p hrst ((State.loadsTimer_iff hf hd).2 hi)
      (hpin ▸ State.execEnabled_tickStep hrun hipt) (hpin ▸ hinstr),
    State.quitAndKey_of_ports hquit hkey (hports.trans htports), u.retire_of_running hu]

/-- Another instruction that uses up the slots comes first, and of a pulse and a latched one a single tick is taken. -/
theorem clockExec_exec_then_tick (hi : ∀ x, i ≠ .ldDtVx x) (hslots : 0 < s.slots)
    (htick : s.pendingTick = true ∨ p.tick = true) (he : exec i s = .next u) (hu : u.run = .running)
    (hlast : u.slots = 1) :
    s.clockExec true p =
      .next { ({ u with slots := 0 } : State).latchedTick with ports := s.ports.shifted p } := by
  obtain ⟨-, hpend, hports⟩ := retire_frame he hrun
  have hretire : u.retire = { u with slots := 0 } := by rw [u.retire_of_running hu, hlast]
  have hload : s.loadsTimer = false := Bool.eq_false_iff.2 fun h =>
    let ⟨x, hx⟩ := (State.loadsTimer_iff hf hd).1 h
    hi x hx
  have hcan : u.retire.CanTick := hretire ▸ .inl ⟨hu, rfl⟩
  have hbeside : u.retire.tickBeside p = u.retire.latchedTick :=
    u.retire.tickBeside_once p (State.tickEnabled_of_canTick hcan) (hpend ▸ htick)
  have htports : u.retire.latchedTick.ports = u.retire.ports := u.retire.changesOnly_latchedTick .ports (by simp)
  rw [State.clockExec_exec_first p hrst (State.execEnabled_of_slots hrun hslots) hload
      (State.execInstr_of_decode hf hd he), hbeside,
    State.quitAndKey_of_ports hquit hkey (htports.trans hports), hretire]

end

section
variable {s} {p : Pins} {w : Word} {x : Nibble} (hrst : p.rst = false) (hrun : s.run = .running)
  (hquit : s.ports.quitSync2 = false) (hkey : ¬ s.ports.NewRequest) (hf : s.fetch = .ok w)
include hrst hrun hquit hkey hf

/-- Fx15 with the tick that gives its slot: what it loads stays, the tick's decrement does not. -/
theorem clockExec_ldDtVx (hd : decodeWord s.cfg.legacyUnimplemented w = .ok (.ldDtVx x)) (hslots : s.slots = 0)
    (hpulse : p.tick = true) (hipt : 0 < s.cfg.ipt) :
    ∃ t, s.clockExec true p = .next t ∧ t.dt = s.reg x ∧ t.idle = s.agedIdle ∧ t.keys = s.agedKeys ∧
      t.slots = s.cfg.ipt - 1 ∧ t.pc = s.pc + 2 ∧ ChangesOnly (· ∈ [.dt, .idle, .keys, .slots, .pc, .ports]) s t := by
  obtain ⟨htrun, -, -, -, hgiven⟩ := s.tickStep_frame
  obtain ⟨-, hidle, hkeys, -⟩ := s.givesTick_tickStep
  have htick := s.changesOnly_tickStep
  have hload := htick.trans (s.tickStep.changesOnly_timerLoad_advance (s.tickStep.reg x))
  have hslot := hload.trans (changesOnly_slots _ (s.tickStep.slots - 1))
  have hframe := hslot.trans (changesOnly_ports _ (s.ports.shifted p))
  have hclock := clockExec_tick_then_exec hrst hrun hquit hkey hf hd ⟨x, rfl⟩ hslots hpulse hipt rfl (htrun.trans hrun)
  exact ⟨_, hclock, htick (.reg x) (by simp), hidle, hkeys, congrArg (· - 1) hgiven,
    congrArg (· + 2) (htick .pc (by simp)), hframe.mono (by simp)⟩

/-- Fx07 with the last slot and the tick that follows: it reads DT as the tick finds it. -/
theorem clockExec_ldVxDt (hd : decodeWord s.cfg.legacyUnimplemented w = .ok (.ldVxDt x)) (hslots : s.slots = 1)
    (hpulse : s.pendingTick = true ∨ p.tick = true) :
    ∃ t, s.clockExec true p = .next t ∧ t.reg x = s.dt ∧ GivesTick s t ∧ t.pc = s.pc + 2 ∧ t.pendingTick = false ∧
      ChangesOnly (· ∈ [.reg x, .dt, .idle, .keys, .slots, .pc, .pendingTick, .ports]) s t := by
  have hread := (s.changesOnly_setReg_advance x s.dt).trans (changesOnly_slots _ 0)
  have hgives := State.givesTick_tickStep { (s.setReg x s.dt).advance with slots := 0, pendingTick := false }
  obtain ⟨-, hpend, -⟩ := State.tickStep_frame { (s.setReg x s.dt).advance with slots := 0, pendingTick := false }
  have htick := State.changesOnly_latchedTick { (s.setReg x s.dt).advance with slots := 0 }
  have hframe := (hread.trans htick).trans (changesOnly_ports _ (s.ports.shifted p))
  have hclock := clockExec_exec_then_tick hrst hrun hquit hkey hf hd (by simp) (hslots ▸ Nat.one_pos) hpulse rfl
    hrun hslots
  exact ⟨_, hclock, (htick (.reg x) (by simp)).trans (s.setReg_reg_same x s.dt), hgives, htick .pc (by simp), hpend,
    hframe.mono (by simp)⟩

end

end Sys2Proof.Machine

open Sys2Proof Sys2Proof.Machine

/-- Settles O58: the load of DT comes after the tick that counts it down, the read before it (R203). -/
theorem loadWinsOverTheDecrementOfItsClock : Obligations.LoadWinsOverTheDecrementOfItsClock := by
  intro s p rest w x ⟨hsteps, hl, hq⟩ hrst hrun hquit hkey hf
  have hstep : step s = (s.withPlan rest).clockExec true p := step_of_plans s _ rest hsteps hl hq
  rw [hstep]
  refine ⟨fun hd hslots hpulse hipt => ?_, fun hd hslots hpulse => ?_⟩
  · obtain ⟨t, ht, hdt, hidle, hkeys, hgiven, hpc, hframe⟩ :=
      clockExec_ldDtVx (s := s.withPlan rest) hrst hrun hquit hkey hf hd hslots hpulse hipt
    exact ⟨t, ht, hdt, hidle, hkeys, hgiven, hpc, (hframe.mono (by simp)).of_withPlan (by simp)⟩
  · obtain ⟨t, ht, hreg, hgives, hpc, hpend, hframe⟩ :=
      clockExec_ldVxDt (s := s.withPlan rest) hrst hrun hquit hkey hf hd hslots hpulse
    exact ⟨t, ht, hreg, hgives, hpc, hpend, (hframe.mono (by simp)).of_withPlan (by simp)⟩

/-- Settles O22: DT into `V[x]` is a plain result; `V[x]` into DT or ST writes that timer and advances PC. -/
theorem timerInstructionsMoveTheTimers : Obligations.TimerInstructionsMoveTheTimers := by
  intro s x
  have hst := (changesOnly_st s (s.reg x)).trans (State.changesOnly_advance { s with st := s.reg x })
  exact ⟨encodedAs_encode (.ldVxDt x), encodedAs_encode (.ldDtVx x), encodedAs_encode (.ldStVx x),
    exec_of_setReg s x (· = s.dt) rfl rfl,
    ⟨_, rfl, rfl, rfl, s.changesOnly_timerLoad_advance (s.reg x)⟩, ⟨_, rfl, rfl, rfl, hst⟩⟩
end

section
/-! PROOFS. The keypad (spec/46_keypad.md): its instructions (R227–R229), the Key step, planned or taken at an edge (R221,
R226, R230), and the flip-flops of the ports at every edge (R224; spec/10_state.md R47, R48). -/

namespace Sys2Proof.Machine

variable {s t : State}

/-! ## The key instructions -/

theorem keyIndex_of_le {b : Byte} (h : b.toNat ≤ 15) : keyIndex b = some (b.setWidth 4) := if_neg (Nat.not_lt.2 h)

theorem keyIndex_of_gt {b : Byte} (h : 15 < b.toNat) : keyIndex b = none := if_pos h

/-- The flag of the key a byte names is the bit of KEYS at the byte's value. -/
theorem State.key_setWidth (s : State) {b : Byte} (h : b.toNat ≤ 15) : s.key (b.setWidth 4) = s.keys.getLsbD b.toNat := by
  have hk : (b.setWidth 4).toNat = b.toNat := by
    rw [BitVec.toNat_setWidth, Nat.mod_eq_of_lt (Nat.lt_succ_of_le h)]
  rw [State.key, hk]

theorem exec_skp_of_le {x : Nibble} (h : (s.reg x).toNat ≤ 15) :
    exec (.skp x) s = .next (s.skipIf (s.keys.getLsbD (s.reg x).toNat)) := by
  simp only [exec, execSkp, keyIndex_of_le h, s.key_setWidth h]

theorem exec_sknp_of_le {x : Nibble} (h : (s.reg x).toNat ≤ 15) :
    exec (.sknp x) s = .next (s.skipIf (!s.keys.getLsbD (s.reg x).toNat)) := by
  simp only [exec, execSknp, keyIndex_of_le h, s.key_setWidth h]

theorem exec_skp_of_gt {x : Nibble} (h : 15 < (s.reg x).toNat) :
    exec (.skp x) s = .next (s.raise .keyIndexRange (encode (.skp x)) 0) := by
  simp only [exec, execSkp, keyIndex_of_gt h]

theorem exec_sknp_of_gt {x : Nibble} (h : 15 < (s.reg x).toNat) :
    exec (.sknp x) s = .next (s.raise .keyIndexRange (encode (.sknp x)) 0) := by
  simp only [exec, execSknp, keyIndex_of_gt h]

theorem changesOnly_suspend (s : State) (x : Nibble) :
    ChangesOnly (· ∈ [.run, .wx, .slots]) s { s with run := .waitKey, wx := x, slots := 0 } := by
  intro p hp
  cases p with
  | run => simp at hp
  | wx => simp at hp
  | slots => simp at hp
  | _ => rfl

/-! ## The Key step (R108) -/

theorem State.recordsKey_keyEvent (s : State) (k : Nibble) : RecordsKey s.keys k (s.keyEvent k) :=
  ⟨keys_set_getLsbD s.keys k, rfl⟩

theorem State.changesOnly_keyEvent (s : State) (k : Nibble) : ChangesOnly (· ∈ [.keys, .idle]) s (s.keyEvent k) := by
  intro p hp
  cases p with
  | keys => simp at hp
  | idle => simp at hp
  | _ => rfl

theorem State.endsWait_completeWait (s : State) (k : Nibble) : EndsWait s k (s.completeWait k) := by
  have hreg : (s.completeWait k).reg s.wx = k.setWidth 8 := s.setReg_reg_same s.wx _
  exact ⟨by rw [hreg, BitVec.toNat_setWidth_of_le (by decide)], rfl, rfl, rfl⟩

theorem State.changesOnly_completeWait (s : State) (k : Nibble) :
    ChangesOnly (· ∈ [.reg s.wx, .pc, .run, .slots]) s (s.completeWait k) :=
  ((s.changesOnly_setReg_advance s.wx (k.setWidth 8)).trans (changesOnly_run _ .running)).trans (changesOnly_slots _ 0)

/-- While RUNNING the Key step is the event alone (R221). -/
theorem State.keyStep_of_running (k : Nibble) (h : s.run = .running) :
    RecordsKey s.keys k (s.keyStep k) ∧ ChangesOnly (· ∈ [.keys, .idle]) s (s.keyStep k) := by
  have e : s.keyStep k = s.keyEvent k := by simp only [State.keyStep, h]
  rw [e]
  exact ⟨s.recordsKey_keyEvent k, s.changesOnly_keyEvent k⟩

/-- In WAIT_KEY the event comes first and then ends the wait (R230). -/
theorem State.keyStep_of_waitKey (k : Nibble) (h : s.run = .waitKey) :
    RecordsKey s.keys k (s.keyStep k) ∧ EndsWait s k (s.keyStep k) ∧
      ChangesOnly (· ∈ [.reg s.wx, .pc, .run, .slots, .keys, .idle]) s (s.keyStep k) := by
  have e : s.keyStep k = (s.keyEvent k).completeWait k := by simp only [State.keyStep, h]
  have hframe := (s.changesOnly_keyEvent k).trans ((s.keyEvent k).changesOnly_completeWait k)
  rw [e]
  exact ⟨s.recordsKey_keyEvent k, (s.keyEvent k).endsWait_completeWait k, hframe.mono (by simp [State.keyEvent])⟩

/-- A planned Key entry is the Key step on the state with the entry taken (R111; logs 3, 24). -/
theorem step_of_planned_key {k : Nibble} {rest : List HostStep} (h : s.Plans (.key k) rest) :
    step s = .next ((s.withPlan rest).keyStep k) ∧ ((s.withPlan rest).keyStep k).host.steps = rest := by
  obtain ⟨hsteps, hl, hq⟩ := h
  obtain ⟨-, hhost⟩ := State.keyStep_ports k (s.withPlan rest)
  exact ⟨step_of_plans s _ rest hsteps hl hq, congrArg HostInputs.steps hhost⟩

/-! ## The flip-flops at an edge (R47, R48, R224) -/

/-- An Exec step writes neither the flip-flops nor the plan. -/
theorem State.execInstr_portsAndPlan (h : s.execInstr = .next t) :
    t.ports = s.ports ∧ t.host.steps = s.host.steps := by
  rcases s.execInstr_cases with ⟨code, w, a, -, e⟩ | ⟨i, u, he, e⟩ <;> cases h.symm.trans e
  · exact ⟨rfl, rfl⟩
  · obtain ⟨-, -, -, -, -, hports, -, hplan⟩ := (exec_effect he).frame
    unfold State.retire
    split <;> exact ⟨hports, hplan⟩

/-- Nor does the tick beside it. -/
theorem State.tickBeside_portsAndPlan (t : State) (p : Pins) :
    (t.tickBeside p).ports = t.ports ∧ (t.tickBeside p).host.steps = t.host.steps := by
  unfold State.tickBeside
  split
  · have hframe := t.changesOnly_latchedTick
    exact ⟨hframe .ports (by simp), hframe .plan (by simp)⟩
  · obtain ⟨hports, hhost⟩ := t.tickPin_ports p
    exact ⟨hports, congrArg HostInputs.steps hhost⟩

/-- After whatever else an edge does, its end moves the flip-flops on from where they stood and leaves the plan. -/
theorem State.quitAndKey_portsAndPlan (p : Pins) (hports : t.ports = s.ports) (hplan : t.host.steps = s.host.steps) :
    (t.quitAndKey p).ports = s.ports.shifted p ∧ (t.quitAndKey p).host.steps = s.host.steps := by
  obtain ⟨-, hquit⟩ := t.quitPin_ports
  obtain ⟨-, hkey⟩ := State.keyStep_ports p.keyCode t.quitPin
  rw [State.quitAndKey_eq, ← hports, ← hplan]
  refine ⟨rfl, congrArg HostInputs.steps ?_⟩
  split
  · exact hkey.trans hquit
  · exact hquit

theorem State.clockEdge_portsAndPlan (s : State) (p : Pins) :
    (s.clockEdge p).ports = s.ports.shifted p ∧ (s.clockEdge p).host.steps = s.host.steps := by
  obtain ⟨hrports, hrhost⟩ := s.resetPins_ports p
  obtain ⟨htports, hthost⟩ := (s.resetPins p).tickPin_ports p
  exact State.quitAndKey_portsAndPlan p (htports.trans hrports) (congrArg HostInputs.steps (hthost.trans hrhost))

/-- Every edge moves the flip-flops on, an edge of a reset period and one that completes an instruction too. -/
theorem State.hostStep_portsAndPlan_of_isEdge (s : State) {e : HostStep} {p : Pins} (he : e.IsEdge p) :
    ∃ t, s.hostStep e = .next t ∧ t.ports = s.ports.shifted p ∧ t.host.steps = s.host.steps := by
  rcases he with rfl | ⟨o, rfl⟩
  · exact ⟨_, rfl, s.clockEdge_portsAndPlan p⟩
  · rcases s.clockExec_cases o p with ⟨-, e⟩ | ⟨-, -, -, -, t, ht, e⟩ | ⟨-, -, -, t, ht, e⟩
    · exact ⟨_, e, s.clockEdge_portsAndPlan p⟩
    · obtain ⟨hports, hplan⟩ := State.execInstr_portsAndPlan ht
      obtain ⟨hbports, hbplan⟩ := t.tickBeside_portsAndPlan p
      exact ⟨_, e, State.quitAndKey_portsAndPlan p (hbports.trans hports) (hbplan.trans hplan)⟩
    · obtain ⟨hports, hplan⟩ := State.execInstr_portsAndPlan ht
      obtain ⟨htports, hthost⟩ := s.tickPin_ports p
      exact ⟨_, e, State.quitAndKey_portsAndPlan p (hports.trans htports)
        (hplan.trans (congrArg HostInputs.steps hthost))⟩

/-! ## A key request at an edge with no pulse and no quit -/

section
variable {p : Pins} (hrst : p.rst = false) (htick : p.tick = false) (hload : s.run ≠ .load)
  (hquit : s.ports.quitSync2 = false)
include hrst htick hload hquit

theorem State.clockEdge_of_newRequest (h : s.ports.NewRequest) :
    s.clockEdge p = { s.keyStep p.keyCode with ports := s.ports.shifted p } := by
  obtain ⟨hreq, hack⟩ := h
  have hnew : (s.ports.keySync2 && !s.ports.keyAck) = true := by simp [hreq, hack]
  rw [State.clockEdge, s.resetPins_low p hrst hload, s.tickPin_low p htick, State.quitAndKey_eq, s.quitPin_low hquit,
    hnew]
  rfl

theorem State.clockEdge_of_not_newRequest (h : ¬ s.ports.NewRequest) :
    s.clockEdge p = { s with ports := s.ports.shifted p } := by
  rw [State.clockEdge, s.resetPins_low p hrst hload, s.tickPin_low p htick, s.quitAndKey_idle p hquit h]

end

end Sys2Proof.Machine

open Sys2Proof Sys2Proof.Machine

/-- Settles O25: the entry is taken from the plan, and its Key step finds the block waiting. -/
theorem keyEventEndsTheWait : Obligations.KeyEventEndsTheWait := by
  intro s k rest hplan hwait
  obtain ⟨hstep, hsteps⟩ := step_of_planned_key hplan
  obtain ⟨hkey, hends, hframe⟩ := State.keyStep_of_waitKey (s := s.withPlan rest) k hwait
  exact ⟨_, hstep, hends, hkey, hsteps, (hframe.mono (by simp [State.withPlan])).of_withPlan (by simp)⟩

/-- Settles O26: the Key step is the event alone while RUNNING (R221), and finds a block at rest as it is (R226). -/
theorem keyEventSetsItsOwnFlag : Obligations.KeyEventSetsItsOwnFlag := by
  intro s k rest hplan
  obtain ⟨hstep, hsteps⟩ := step_of_planned_key hplan
  refine ⟨fun hrun => ?_, fun hidle => ?_⟩
  · obtain ⟨hkey, hframe⟩ := State.keyStep_of_running (s := s.withPlan rest) k hrun
    exact ⟨_, hstep, hkey, hsteps, (hframe.mono (by simp)).of_withPlan (by simp)⟩
  · have hrest : (s.withPlan rest).AtRest := State.atRest_of_load_or_terminal hidle
    rw [hrest.keyStep] at hstep
    exact ⟨_, hstep, rfl, changesOnly_withPlan s rest⟩

/-- Settles O40: the edge is the flip-flops' move, and on a new request one Key step before it. -/
theorem oneHandshakeIsOneKeyStep : Obligations.OneHandshakeIsOneKeyStep := by
  intro s p rest ⟨hsteps, hl, _⟩ hwork hrst htick hquit
  have hload : s.run ≠ .load := by rcases hwork with h | h <;> simp [h]
  obtain ⟨hports, -⟩ := (s.withPlan rest).clockEdge_portsAndPlan p
  refine ⟨_, step_of_planned_edge s p rest hsteps hl, by rw [hports]; rfl, by rw [hports]; rfl, by rw [hports]; rfl,
    fun hnew hrun => ?_, fun hnew hwait => ?_, fun hnone => ?_⟩
  · obtain ⟨hkey, hframe⟩ := State.keyStep_of_running (s := s.withPlan rest) p.keyCode hrun
    have hall := hframe.trans (changesOnly_ports _ (s.ports.shifted p))
    rw [State.clockEdge_of_newRequest (s := s.withPlan rest) hrst htick hload hquit hnew]
    exact ⟨hkey, (hall.mono (by simp)).of_withPlan (by simp)⟩
  · obtain ⟨hkey, hends, hframe⟩ := State.keyStep_of_waitKey (s := s.withPlan rest) p.keyCode hwait
    have hall := hframe.trans (changesOnly_ports _ (s.ports.shifted p))
    rw [State.clockEdge_of_newRequest (s := s.withPlan rest) hrst htick hload hquit hnew]
    exact ⟨hkey, hends, (hall.mono (by simp [State.withPlan])).of_withPlan (by simp)⟩
  · rw [State.clockEdge_of_not_newRequest (s := s.withPlan rest) hrst htick hload hquit hnone]
    exact (changesOnly_planAndPorts s rest _).mono (by simp)

/-- Settles O54: no part of an edge but its end writes the flip-flops, whether or not an instruction completes at it. -/
theorem portFlipFlopsMoveAtEveryEdge : Obligations.PortFlipFlopsMoveAtEveryEdge := by
  intro s e p rest ⟨hsteps, hl, hq⟩ hedge
  obtain ⟨t, ht, hports, hplan⟩ := (s.withPlan rest).hostStep_portsAndPlan_of_isEdge hedge
  exact ⟨t, (step_of_plans s e rest hsteps hl hq).trans ht, hplan, hports⟩

/-- Settles O23, by whether `V[x]` names one of the 16 keys. -/
theorem keySkipsReadTheFlagOrFault : Obligations.KeySkipsReadTheFlagOrFault := by
  intro s x
  refine ⟨encodedAs_encode (.skp x), encodedAs_encode (.sknp x), fun hle => ⟨?_, ?_⟩, fun hgt => ⟨?_, ?_⟩⟩
  · exact exec_of_skipIf s (s.keys.getLsbD (s.reg x).toNat = true) (by simpa using exec_skp_of_le hle)
  · have hskip := exec_of_skipIf s (¬ s.keys.getLsbD (s.reg x).toNat = true) (by simpa using exec_sknp_of_le hle)
    simpa only [ite_not] using hskip
  · exact ⟨_, exec_skp_of_gt hgt, s.entersFault_raise _ _ _⟩
  · exact ⟨_, exec_sknp_of_gt hgt, s.entersFault_raise _ _ _⟩

/-- Settles O24: the wait starts whatever KEYS holds, and the default advance is left to the event that ends it. -/
theorem keyWaitSuspendsTheEngine : Obligations.KeyWaitSuspendsTheEngine := by
  intro s x
  exact ⟨encodedAs_encode (.ldVxK x), _, rfl, rfl, rfl, rfl, changesOnly_suspend s x⟩
end

section
/-! PROOFS. Faults (spec/60_exceptions.md R240–R250): a fault that an instruction enters is precise, a word that does not
decode is a fault of its own, and no condition leaves the block without a next state. -/

namespace Sys2Proof.Machine

variable {s t : State} {i : Instr} {w : Word}

/-! ## The fault of an instruction (R241, R250) -/

/-- `t` is the fault entry of instruction `i` from `s`: a code that an instruction can raise, the instruction's own word,
and an address only for MemoryRange. -/
def RaisesOwnFault (s : State) (i : Instr) (t : State) : Prop :=
  ∃ code a, code ∈ [FaultCode.memoryRange, .stackOverflow, .keyIndexRange] ∧ (code ≠ .memoryRange → a = 0) ∧
    t = s.raise code (encode i) a

/-- Work that leaves the run state alone faults only where its range does not exist (R166). -/
theorem RaisesOwnFault.of_guardRange {n : Nat} {ok : State} (hs : s.run ≠ .faulted) (hok : ok.run = s.run)
    (hf : (s.guardRange n (encode i) ok).run = .faulted) : RaisesOwnFault s i (s.guardRange n (encode i) ok) := by
  rcases s.guardRange_cases n (encode i) ok with ⟨-, e⟩ | ⟨-, e⟩ <;> rw [e] at hf ⊢
  · exact absurd (hok.symm.trans hf) hs
  · exact ⟨_, _, by simp, fun h => absurd rfl h, rfl⟩

theorem State.skipIf_run (s : State) (c : Bool) : (s.skipIf c).run = s.run := by
  rw [State.skipIf_eq, State.setPc_run]

theorem State.storeRange_run (s : State) (n : Nat) (f : Nat → Byte) : (s.storeRange n f).run = s.run := by
  obtain ⟨m, e⟩ := s.storeRange_eq n f
  rw [e]

theorem State.loadRange_run (s : State) (n : Nat) : (s.loadRange n).run = s.run := by
  obtain ⟨v, e⟩ := s.loadRange_eq n
  rw [e]

/-- An instruction reaches FAULTED only by its own fault entry: CALL on a full stack, a key skip on no key, or an access
to a range that does not exist. -/
theorem exec_raisesOwnFault (h : exec i s = .next t) (hs : s.run ≠ .faulted) (hf : t.run = .faulted) :
    RaisesOwnFault s i t := by
  cases i with
  | ret =>
    simp only [exec, execRet] at h
    split at h <;> cases h
    · exact absurd hf (by simp)
    · exact absurd hf hs
  | call nnn =>
    simp only [exec, execCall] at h
    split at h <;> cases h
    · exact ⟨.stackOverflow, 0, by simp, fun _ => rfl, rfl⟩
    · exact absurd hf hs
  | skp x =>
    simp only [exec, execSkp] at h
    split at h <;> cases h
    · exact ⟨.keyIndexRange, 0, by simp, fun _ => rfl, rfl⟩
    · exact absurd ((s.skipIf_run _).symm.trans hf) hs
  | sknp x =>
    simp only [exec, execSknp] at h
    split at h <;> cases h
    · exact ⟨.keyIndexRange, 0, by simp, fun _ => rfl, rfl⟩
    · exact absurd ((s.skipIf_run _).symm.trans hf) hs
  | drw x y n => cases h; exact .of_guardRange hs rfl hf
  | ldBVx x => cases h; exact .of_guardRange hs (s.storeRange_run _ _) hf
  | storeRegs x => cases h; exact .of_guardRange hs (s.storeRange_run _ _) hf
  | loadRegs x => cases h; exact .of_guardRange hs (s.loadRange_run _) hf
  | seImm | sneImm | seReg | sneReg => cases h; exact absurd ((s.skipIf_run _).symm.trans hf) hs
  | ldVxK x => cases h; exact absurd hf (by simp)
  | _ => cases h; exact absurd hf hs

/-! ## The fault of a word (R242, R244) -/

/-- Where the fetched word does not decode, Exec is the fault entry with the decoder's code. -/
theorem State.execInstr_of_decode_error {e : DecodeError} (hf : s.fetch = .ok w)
    (hd : decodeWord s.cfg.legacyUnimplemented w = .error e) :
    s.execInstr = .next (s.raise (decodeFault e) w 0) := by
  simp [State.execInstr, hf, hd]

/-- Where Exec is the next step and the word at PC does not decode, the step is that fault. -/
theorem step_of_decode_error {e : DecodeError} (hnext : s.NextIsExec) (hf : s.fetch = .ok w)
    (hd : decodeWord s.cfg.legacyUnimplemented w = .error e) :
    ∃ t, step s = .next t ∧ EntersFault s.planTaken t (decodeFault e) w 0 :=
  ⟨_, (step_of_nextIsExec hnext).trans (State.execInstr_of_decode_error (s := s.planTaken) hf hd),
    State.entersFault_raise _ _ _ _⟩

/-! ## Every step (R240) -/

/-- In each case of a step there is a next state; a fatal condition of an Exec step is one. -/
theorem step_answers (s : State) : ∃ t, step s = .next t := by
  rcases step_cases s with ⟨-, e⟩ | ⟨-, e⟩ | ⟨u, -, hstep⟩
  · exact ⟨_, e⟩
  · exact ⟨_, e⟩
  · obtain ⟨v, hv⟩ := u.execInstr_answers
    rcases hstep with ⟨-, e⟩ | e | ⟨-, e⟩ | e | ⟨_, e⟩ | e | ⟨_, e⟩ | ⟨_, e⟩ | ⟨_, _, -, -, e⟩ | ⟨_, _, -, -, e⟩
    · exact ⟨v, e.trans hv⟩
    all_goals exact ⟨_, e⟩

end Sys2Proof.Machine

open Sys2Proof.Machine

/-- Settles O35: the fault entry writes the run state and the record, the record from PC and the instruction's word. -/
theorem faultsArePrecise : Obligations.FaultsArePrecise := by
  intro i s t hs h hf
  obtain ⟨code, a, hcode, ha, rfl⟩ := exec_raisesOwnFault h hs hf
  obtain ⟨-, -, hframe⟩ := s.entersFault_raise code (Sys2Proof.encode i) a
  exact ⟨hcode, rfl, rfl, fun hne => congrArg (BitVec.ofNat 17) (ha hne), hframe⟩

/-- Settles O38, case by case of what a step can do. -/
theorem everyStepAnswersANextState : Obligations.EveryStepAnswersANextState := step_answers

/-- Settles O34: Exec is the next step, its fetch is in range, and the decoder's error is the code (R105). -/
theorem undecodableWordFaults : Obligations.UndecodableWordFaults := by
  intro s w hnext hpc hw
  have hf : s.fetch = .ok w := hw ▸ s.fetch_ok hpc
  exact ⟨step_of_decode_error hnext hf, step_of_decode_error hnext hf⟩
end

section
/-! PROOFS. Reset: the Reset step with an image (spec/70_reset_and_hazards.md R270, R272; spec/60_exceptions.md R247), and
a clock edge with rst = 1 (R271; spec/10_state.md R52). -/

namespace Sys2Proof.Machine

variable {s t : State}

/-! ## The registers (R270) -/

theorem State.registersAtReset_resetRegisters (s : State) : RegistersAtReset s s.resetRegisters :=
  ⟨fun r => by simp [State.reg, State.resetRegisters], rfl, rfl, rfl, rfl, rfl, rfl, rfl,
    Framebuffer.pixel_clear, rfl, rfl, rfl, rfl⟩

theorem State.registersAtReset_assertReset (s : State) : RegistersAtReset s s.assertReset := by
  unfold State.assertReset
  split <;> exact s.registersAtReset_resetRegisters

@[simp] theorem State.assertReset_fault (s : State) : s.assertReset.fault = FaultRecord.zero := by
  unfold State.assertReset
  split <;> rfl

/-- The load port writes none of the registers that a reset sets (R52). -/
theorem RegistersAtReset.acceptByte (h : RegistersAtReset s t) (b : Byte) : RegistersAtReset s (t.acceptByte b) := by
  by_cases hfit : t.ldCount < imageCapacity t.cfg
  · rw [t.acceptByte_fits b hfit]
    exact h
  · rw [t.acceptByte_full b hfit]
    exact h

@[simp] theorem State.acceptByte_fault (s : State) (b : Byte) : (s.acceptByte b).fault = s.fault := by
  unfold State.acceptByte
  split <;> rfl

/-! ## The image (R65, R272) -/

/-- The block after the first edge of a reset period, with memory `m` and `n` bytes accepted. -/
def State.holding (s : State) (m : Memory) (n : Nat) : State :=
  { s.resetRegisters.clearLoad with mem := m, ldCount := n }

/-- An image that fits is loaded whole, behind the font and zeros of the cleared memory. -/
theorem State.acceptBytes_of_reset (s : State) {img : List Byte} (h : img.length ≤ imageCapacity s.cfg) :
    ∃ m, img.foldl State.acceptByte s.resetRegisters.clearLoad = s.holding m img.length ∧
      AtResetValues s (s.holding m img.length) img := by
  have hzero : s.resetRegisters.clearLoad.ldCount + img.length = img.length := Nat.zero_add _
  obtain ⟨m, hload, -, hread⟩ := State.acceptBytes_fit img s.resetRegisters.clearLoad rfl (hzero.le.trans h)
  rw [hzero] at hload
  exact ⟨m, hload, s.registersAtReset_resetRegisters, rfl, hread⟩

/-- An image that is too long is loaded as far as it fits, and sets the error flag. -/
theorem State.acceptBytes_of_reset_tooLong (s : State) {img : List Byte} (h : imageCapacity s.cfg < img.length) :
    ∃ m, img.foldl State.acceptByte s.resetRegisters.clearLoad =
        { s.holding m (imageCapacity s.cfg) with loadErr := true } ∧
      AtResetValues s (s.holding m (imageCapacity s.cfg)) (img.take (imageCapacity s.cfg)) := by
  have hlen : (img.take (imageCapacity s.cfg)).length = imageCapacity s.cfg := List.length_take_of_le h.le
  have hrest : img.drop (imageCapacity s.cfg) ≠ [] := fun e => Nat.not_le.2 h (List.drop_eq_nil_iff.1 e)
  obtain ⟨m, hload, hvalues⟩ := s.acceptBytes_of_reset hlen.le
  rw [hlen] at hload hvalues
  have hfull := State.acceptBytes_full _ (s.holding m (imageCapacity s.cfg)) (Nat.lt_irrefl _) hrest
  rw [← hload, ← List.foldl_append, List.take_append_drop, hload] at hfull
  exact ⟨m, hfull, hvalues⟩

theorem State.resetStep_of_fits (s : State) {img : List Byte} (h : img.length ≤ imageCapacity s.cfg) :
    AtResetValues s (s.resetStep img) img ∧ (s.resetStep img).run = .running ∧ (s.resetStep img).loadErr = false ∧
      (s.resetStep img).fault = FaultRecord.zero ∧ (s.resetStep img).host = s.host := by
  obtain ⟨m, hload, hvalues⟩ := s.acceptBytes_of_reset h
  rw [State.resetStep, hload]
  exact ⟨hvalues, rfl, rfl, rfl, rfl⟩

theorem State.resetStep_of_tooLong (s : State) {img : List Byte} (h : imageCapacity s.cfg < img.length) :
    AtResetValues s (s.resetStep img) (img.take (imageCapacity s.cfg)) ∧ (s.resetStep img).run = .faulted ∧
      (s.resetStep img).loadErr = true ∧
      (s.resetStep img).fault = { code := .programLoad, pc := 0x0200, word := 0, addr := 0 } ∧
      (s.resetStep img).host = s.host := by
  obtain ⟨m, hload, hvalues⟩ := s.acceptBytes_of_reset_tooLong h
  rw [State.resetStep, hload]
  exact ⟨hvalues, rfl, rfl, rfl, rfl⟩

/-! ## An edge with rst = 1 (R271) -/

/-- Tick, quit and key find a block in LOAD, so all of the edge but the flip-flops' move is reset and load port. -/
theorem State.clockEdge_of_rst (s : State) {p : Pins} (hrst : p.rst = true) :
    s.clockEdge p = { s.resetPins p with ports := s.ports.shifted p } := by
  have hload : (s.resetPins p).run = .load := by
    simp only [State.resetPins, hrst, if_true]
    split <;> simp
  have hrest : (s.resetPins p).AtRest := State.atRest_of_load_or_terminal (.inl hload)
  obtain ⟨hports, -⟩ := s.resetPins_ports p
  rw [State.clockEdge, hrest.tickPin, hrest.quitAndKey, hports]

theorem State.resetPins_of_noByte (s : State) {p : Pins} (hrst : p.rst = true) (hbyte : p.ldValid = false) :
    s.resetPins p = s.assertReset := by
  simp [State.resetPins, hrst, hbyte]

theorem State.resetPins_of_byte (s : State) {p : Pins} (hrst : p.rst = true) (hbyte : p.ldValid = true) :
    s.resetPins p = s.assertReset.acceptByte p.ldData := by
  simp [State.resetPins, hrst, hbyte]

/-- A byte offered or not, the registers of a block with `rst` = 1 are at their reset values. -/
theorem State.resetPins_of_rst (s : State) {p : Pins} (hrst : p.rst = true) :
    RegistersAtReset s (s.resetPins p) ∧ (s.resetPins p).run = .load ∧ (s.resetPins p).fault = FaultRecord.zero := by
  cases hbyte : p.ldValid
  · rw [s.resetPins_of_noByte hrst hbyte]
    exact ⟨s.registersAtReset_assertReset, s.assertReset_run, s.assertReset_fault⟩
  · rw [s.resetPins_of_byte hrst hbyte]
    exact ⟨s.registersAtReset_assertReset.acceptByte _, by simp, by simp⟩

/-- The first edge of a reset period clears memory and the load state (log 20). -/
theorem State.assertReset_of_first (h : s.run ≠ .load) : s.assertReset = s.resetRegisters.clearLoad := if_neg h

/-- A later edge leaves both. -/
theorem State.assertReset_of_later (h : s.run = .load) : s.assertReset = s.resetRegisters := if_pos h

section
variable {p : Pins} (hrst : p.rst = true)
include hrst

theorem State.resetPins_first_noByte (hbyte : p.ldValid = false) (hfirst : s.run ≠ .load) :
    AtResetValues s (s.resetPins p) [] ∧ (s.resetPins p).loadErr = false := by
  obtain ⟨m, hload, hvalues⟩ := s.acceptBytes_of_reset (img := []) (Nat.zero_le _)
  rw [← hload] at hvalues
  rw [s.resetPins_of_noByte hrst hbyte, State.assertReset_of_first hfirst]
  exact ⟨hvalues, rfl⟩

theorem State.resetPins_first_byte (hbyte : p.ldValid = true) (hfirst : s.run ≠ .load)
    (hroom : loadAddress < s.cfg.memSize) :
    AtResetValues s (s.resetPins p) [p.ldData] ∧ (s.resetPins p).loadErr = false := by
  obtain ⟨m, hload, hvalues⟩ := s.acceptBytes_of_reset (img := [p.ldData]) (Nat.sub_pos_of_lt hroom)
  rw [List.foldl_cons, List.foldl_nil] at hload
  rw [s.resetPins_of_byte hrst hbyte, State.assertReset_of_first hfirst, hload]
  exact ⟨hvalues, rfl⟩

theorem State.resetPins_later_noByte (hbyte : p.ldValid = false) (hlater : s.run = .load) :
    (s.resetPins p).ldCount = s.ldCount ∧ (s.resetPins p).loadErr = s.loadErr ∧
      ∀ a, (s.resetPins p).readByte a = s.readByte a := by
  rw [s.resetPins_of_noByte hrst hbyte, State.assertReset_of_later hlater]
  exact ⟨rfl, rfl, fun _ => rfl⟩

theorem State.resetPins_later_byte (hbyte : p.ldValid = true) (hlater : s.run = .load)
    (hw : Memory.wf s.cfg s.mem = true) (hroom : s.ldCount < imageCapacity s.cfg) :
    (s.resetPins p).ldCount = s.ldCount + 1 ∧ (s.resetPins p).loadErr = s.loadErr ∧
      ∀ a, (s.resetPins p).readByte a = if a = loadAddress + s.ldCount then p.ldData else s.readByte a := by
  rw [s.resetPins_of_byte hrst hbyte, State.assertReset_of_later hlater,
    s.resetRegisters.acceptByte_fits p.ldData hroom]
  exact ⟨rfl, rfl, fun a => s.writeByte_readByte _ a p.ldData hw⟩

theorem State.resetPins_later_byteTooMany (hbyte : p.ldValid = true) (hlater : s.run = .load)
    (hfull : imageCapacity s.cfg ≤ s.ldCount) :
    (s.resetPins p).ldCount = s.ldCount ∧ (s.resetPins p).loadErr = true ∧
      ∀ a, (s.resetPins p).readByte a = s.readByte a := by
  rw [s.resetPins_of_byte hrst hbyte, State.assertReset_of_later hlater,
    s.resetRegisters.acceptByte_full p.ldData (Nat.not_lt.2 hfull)]
  exact ⟨rfl, rfl, fun _ => rfl⟩

end

end Sys2Proof.Machine

open Sys2Proof.Machine

/-- Settles O30: the image is loaded into the reset block as far as it fits, and the release sees whether it did. -/
theorem resetGivesTheInitialState : Obligations.ResetGivesTheInitialState := by
  intro s img rest ⟨hsteps, hl, hq⟩
  have hstep : step s = .next ((s.withPlan rest).resetStep img) := step_of_plans s (.reset img) rest hsteps hl hq
  refine ⟨fun hfits => ?_, fun hlong => ?_⟩
  · obtain ⟨hvalues, hrun, herr, hfault, hhost⟩ := (s.withPlan rest).resetStep_of_fits hfits
    exact ⟨_, hstep, hvalues, hrun, herr, hfault, congrArg HostInputs.steps hhost⟩
  · obtain ⟨hvalues, hrun, herr, hfault, hhost⟩ := (s.withPlan rest).resetStep_of_tooLong hlong
    exact ⟨_, hstep, hvalues, hrun, herr, hfault, congrArg HostInputs.steps hhost⟩

/-- Settles O55: the edge is reset and load port alone; the first edge of the period clears what the port fills. -/
theorem resetEdgeTakesTheResetValues : Obligations.ResetEdgeTakesTheResetValues := by
  intro s p rest ⟨hsteps, hl, _⟩ hrst
  have hstep := step_of_planned_edge s p rest hsteps hl
  rw [State.clockEdge_of_rst _ hrst] at hstep
  obtain ⟨hregs, hrun, hfault⟩ := (s.withPlan rest).resetPins_of_rst hrst
  refine ⟨_, hstep, hregs, hrun, hfault, rfl, fun hbyte hfirst => ?_, fun hbyte hlater => ?_,
    fun hbyte hfirst hroom => ?_, fun hbyte hlater hw => ⟨fun hroom => ?_, fun hfull => ?_⟩⟩
  · exact State.resetPins_first_noByte (s := s.withPlan rest) hrst hbyte hfirst
  · exact State.resetPins_later_noByte (s := s.withPlan rest) hrst hbyte hlater
  · exact State.resetPins_first_byte (s := s.withPlan rest) hrst hbyte hfirst hroom
  · exact State.resetPins_later_byte (s := s.withPlan rest) hrst hbyte hlater hw hroom
  · exact State.resetPins_later_byteTooMany (s := s.withPlan rest) hrst hbyte hlater hfull
end

section
/-! PROOFS. Tick, quit and key where they meet: a latched tick (spec/70_reset_and_hazards.md R282), a quit that is seen
(spec/60_exceptions.md R249), and the order of the three, and of an instruction that completes, in one clock (R251). -/

namespace Sys2Proof.Machine

variable {s : State} {p : Pins}

/-! ## A block at work -/

theorem State.run_ne_load_of_atWork (h : s.run = .running ∨ s.run = .waitKey) : s.run ≠ .load := by
  rcases h with e | e <;> simp [e]

theorem State.CanTick.atWork (h : s.CanTick) : s.run = .running ∨ s.run = .waitKey := h.imp_left And.left

/-- A latched tick that is due is the next step, whatever the host plans (log 13). -/
theorem step_of_latchedTickDue (h : s.latchedTickDue = true) : step s = .next s.latchedTick := if_pos h

theorem State.latchedTickDue_of_canTick (hpend : s.pendingTick = true) (h : s.CanTick) : s.latchedTickDue = true := by
  simp [State.latchedTickDue, hpend, State.tickEnabled_of_canTick h]

/-- The Tick step of a latched pulse clears the flag and gives what every Tick step gives. -/
theorem State.latchedTick_spec (s : State) :
    s.latchedTick.pendingTick = false ∧ GivesTick s s.latchedTick := by
  obtain ⟨-, hpend, -⟩ := State.tickStep_frame { s with pendingTick := false }
  exact ⟨hpend, State.givesTick_tickStep { s with pendingTick := false }⟩

/-- Quit is due where it is seen in a block at work and no edge or reset is planned (R249). -/
theorem State.quitDue_of_seen (hquit : s.ports.quitSync2 = true) (hwork : s.run = .running ∨ s.run = .waitKey)
    (hplan : s.PlansNoEdge) : s.quitDue = true := s.quitDue_iff.2 ⟨hquit, hwork, hplan⟩

/-- The latched tick leaves the quit that comes after it due (R251). -/
theorem State.quitDue_latchedTick (h : s.quitDue = true) : s.latchedTick.quitDue = true := by
  obtain ⟨hquit, hwork, hplan⟩ := s.quitDue_iff.1 h
  have hframe := s.changesOnly_latchedTick
  have hports : s.latchedTick.ports = s.ports := hframe .ports (by simp)
  have hrun : s.latchedTick.run = s.run := hframe .run (by simp)
  have hsteps : s.latchedTick.host.steps = s.host.steps := hframe .plan (by simp)
  exact State.quitDue_of_seen (hports ▸ hquit) (hrun ▸ hwork) (by unfold State.PlansNoEdge; rwa [hsteps])

/-! ## The end of an edge: quit, then key (R251) -/

/-- Where quit is seen a block at work ends in QUIT, and no key is recorded (R249, R226). -/
theorem State.quitAndKey_of_quit (s : State) (p : Pins) (hquit : s.ports.quitSync2 = true)
    (hwork : s.run = .running ∨ s.run = .waitKey) :
    s.quitAndKey p = { s with run := .quit, ports := s.ports.shifted p } := by
  have hstep : s.quitPin = { s with run := .quit } := by
    rw [s.quitPin_high hquit]
    rcases s.quitStep_cases with ⟨-, e⟩ | ⟨h1, h2, -⟩
    · exact e
    · exact absurd hwork (not_or.2 ⟨h1, h2⟩)
  have hrest : s.quitPin.AtRest := by
    rw [hstep]
    exact ⟨nofun, nofun⟩
  rw [State.quitAndKey_eq, hrest.keyStep, ite_self, hstep]
  rfl

/-- With no quit seen a new request is one Key step (R224). -/
theorem State.quitAndKey_of_newRequest (s : State) (p : Pins) (hquit : s.ports.quitSync2 = false)
    (h : s.ports.NewRequest) : s.quitAndKey p = { s.keyStep p.keyCode with ports := s.ports.shifted p } := by
  obtain ⟨hreq, hack⟩ := h
  have hnew : (s.ports.keySync2 && !s.ports.keyAck) = true := by simp [hreq, hack]
  rw [State.quitAndKey_eq, hnew, s.quitPin_low hquit]
  rfl

/-- Outside a reset period an edge is the tick input and then its end. -/
theorem State.clockEdge_of_low (hrst : p.rst = false) (hload : s.run ≠ .load) :
    s.clockEdge p = (s.tickPin p).quitAndKey p := by
  rw [State.clockEdge, s.resetPins_low p hrst hload]

theorem State.tickPin_of_canTick (htick : p.tick = true) (h : s.CanTick) : s.tickPin p = s.tickStep := by
  rw [s.tickPin_high p htick]
  exact if_pos (State.tickEnabled_of_canTick h)

/-- The tick input writes what a Tick step writes, or the pending-tick flag. -/
theorem State.changesOnly_tickPin (s : State) (p : Pins) :
    ChangesOnly (· ∈ [.dt, .idle, .keys, .slots, .pendingTick]) s (s.tickPin p) := by
  cases htick : p.tick
  · rw [s.tickPin_low p htick]
    exact (changesOnly_pendingTick s s.pendingTick).mono (by simp)
  · by_cases hcan : s.CanTick
    · rw [State.tickPin_of_canTick htick hcan]
      exact s.changesOnly_tickStep.mono (by simp)
    · obtain ⟨b, e⟩ := State.tickPulse_of_not_canTick hcan
      rw [s.tickPin_high p htick, e]
      exact (changesOnly_pendingTick s b).mono (by simp)

/-- Quit seen at an edge of a block at work: the tick input, then QUIT. -/
theorem State.clockEdge_of_quit (hrst : p.rst = false) (hquit : s.ports.quitSync2 = true)
    (hwork : s.run = .running ∨ s.run = .waitKey) :
    s.clockEdge p = { s.tickPin p with run := .quit, ports := s.ports.shifted p } := by
  obtain ⟨hports, -⟩ := s.tickPin_ports p
  have hrun : (s.tickPin p).run = s.run := s.changesOnly_tickPin p .run (by simp)
  rw [State.clockEdge_of_low hrst (State.run_ne_load_of_atWork hwork),
    State.quitAndKey_of_quit _ p (hports ▸ hquit) (hrun ▸ hwork), hports]

/-- A tick and a new key request at an edge of a block that can tick: Tick, then Key. -/
theorem State.clockEdge_of_tick_and_key (hrst : p.rst = false) (htick : p.tick = true)
    (hquit : s.ports.quitSync2 = false) (hcan : s.CanTick) (hnew : s.ports.NewRequest) :
    s.clockEdge p = { s.tickStep.keyStep p.keyCode with ports := s.ports.shifted p } := by
  obtain ⟨-, -, hports, -⟩ := s.tickStep_frame
  rw [State.clockEdge_of_low hrst (State.run_ne_load_of_atWork hcan.atWork), State.tickPin_of_canTick htick hcan,
    State.quitAndKey_of_newRequest _ p (hports ▸ hquit) (hports ▸ hnew), hports]

end Sys2Proof.Machine

open Sys2Proof Sys2Proof.Machine

/-- Settles O28: a pulse with slots left sets the flag alone, and a flag that is due is the next step (R282). -/
theorem earlyTickIsLatched : Obligations.EarlyTickIsLatched := by
  refine ⟨fun s rest ⟨hsteps, hl, hq⟩ hrun hslots => ?_, fun s hpend hcan => ?_⟩
  · have hstep : step s = .next (s.withPlan rest).tickPulse := step_of_plans s .tick rest hsteps hl hq
    rw [State.tickPulse_of_slots (s.withPlan rest) hrun hslots] at hstep
    have hframe := (changesOnly_withPlan s rest).trans (changesOnly_pendingTick _ true)
    exact ⟨_, hstep, rfl, rfl, hframe.mono (by simp)⟩
  · obtain ⟨hclear, hgives⟩ := s.latchedTick_spec
    exact ⟨_, step_of_latchedTickDue (State.latchedTickDue_of_canTick hpend hcan), hclear, hgives,
      s.changesOnly_latchedTick⟩

/-- Settles O57: quit is due at the boundary, after a latched tick too (R249), and in its place at an edge (R251). -/
theorem quitSeenIsTakenAtTheNextStepBoundary : Obligations.QuitSeenIsTakenAtTheNextStepBoundary := by
  intro s hquit hwork
  have hdue := State.quitDue_of_seen hquit hwork
  refine ⟨fun hplan hl => ?_, fun hplan hpend hcan => ?_, fun p rest ⟨hsteps, hl, _⟩ hrst => ?_⟩
  · exact ⟨_, step_of_quitDue s hl (hdue hplan), rfl, changesOnly_run s .quit⟩
  · obtain ⟨hclear, hgives⟩ := s.latchedTick_spec
    have hthen := step_of_quitDue s.latchedTick (State.latchedTickDue_of_not_pending hclear)
      (State.quitDue_latchedTick (hdue hplan))
    have hframe := s.changesOnly_latchedTick.trans (changesOnly_run _ .quit)
    exact ⟨_, _, step_of_latchedTickDue (State.latchedTickDue_of_canTick hpend hcan), hgives, hthen, rfl,
      hframe.mono (by simp)⟩
  · have hstep := step_of_planned_edge s p rest hsteps hl
    rw [State.clockEdge_of_quit (s := s.withPlan rest) hrst hquit hwork] at hstep
    have hframe := (((s.withPlan rest).changesOnly_tickPin p).trans (changesOnly_run _ .quit)).trans
      (changesOnly_ports _ (s.ports.shifted p))
    exact ⟨_, hstep, rfl, (hframe.mono (by simp)).of_withPlan (by simp)⟩

/-- Settles O41: the edge is the Tick step where there is one, then QUIT, or where no quit is seen the Key step (R251). -/
theorem sameClockOrderOfTickQuitKey : Obligations.SameClockOrderOfTickQuitKey := by
  intro s p rest ⟨hsteps, hl, _⟩ hrst
  have hstep := step_of_planned_edge s p rest hsteps hl
  have hticks := (s.withPlan rest).changesOnly_tickStep
  have hgives := (s.withPlan rest).givesTick_tickStep
  obtain ⟨hdt, -, hkeys, hslots⟩ := (s.withPlan rest).givesTick_tickStep
  obtain ⟨hrunKept, -⟩ := (s.withPlan rest).tickStep_frame
  refine ⟨fun hquit hwork htick => ?_, fun hquit hcan htick => ?_, fun hnew hrun hused hquit htick => ?_,
    fun hnew hwait hquit htick => ?_⟩
  · rw [State.clockEdge_of_quit (s := s.withPlan rest) hrst hquit hwork, State.tickPin_low _ p htick] at hstep
    have hframe := (changesOnly_run (s.withPlan rest) .quit).trans (changesOnly_ports _ (s.ports.shifted p))
    exact ⟨_, hstep, rfl, rfl, (hframe.mono (by simp)).of_withPlan (by simp)⟩
  · rw [State.clockEdge_of_quit (s := s.withPlan rest) hrst hquit hcan.atWork,
      State.tickPin_of_canTick (s := s.withPlan rest) htick hcan] at hstep
    have hframe := (hticks.trans (changesOnly_run _ .quit)).trans (changesOnly_ports _ (s.ports.shifted p))
    exact ⟨_, hstep, rfl, rfl, hgives, (hframe.mono (by simp)).of_withPlan (by simp)⟩
  · rw [State.clockEdge_of_tick_and_key (s := s.withPlan rest) hrst htick hquit (.inl ⟨hrun, hused⟩) hnew] at hstep
    obtain ⟨hkey, hkeyFrame⟩ := State.keyStep_of_running p.keyCode (hrunKept.trans hrun)
    have hframe := (hticks.trans hkeyFrame).trans (changesOnly_ports _ (s.ports.shifted p))
    rw [hkeys] at hkey
    exact ⟨_, hstep, hkey, (congrArg BitVec.toNat (hkeyFrame .dt (by simp))).trans hdt,
      (hkeyFrame .slots (by simp)).trans hslots, (hframe.mono (by simp)).of_withPlan (by simp)⟩
  · rw [State.clockEdge_of_tick_and_key (s := s.withPlan rest) hrst htick hquit (.inr hwait) hnew] at hstep
    obtain ⟨hkey, hends, hkeyFrame⟩ := State.keyStep_of_waitKey p.keyCode (hrunKept.trans hwait)
    have hframe := (hticks.trans hkeyFrame).trans (changesOnly_ports _ (s.ports.shifted p))
    have hwx : (s.withPlan rest).tickStep.wx = s.wx := hticks .wx (by simp)
    have hpc : (s.withPlan rest).tickStep.pc = s.pc := hticks .pc (by simp)
    rw [EndsWait, hwx, hpc] at hends
    rw [hkeys] at hkey
    rw [hwx] at hframe
    exact ⟨_, hstep, hkey, (congrArg BitVec.toNat (hkeyFrame .dt (by simp))).trans hdt, hends,
      (hframe.mono (by simp)).of_withPlan (by simp)⟩
end

section
/-! PROOFS. An edge at which an instruction completes and no Tick step shares the clock (spec/60_exceptions.md R251; logs
14, 21): the instruction and its slot, then quit, then key. -/

namespace Sys2Proof.Machine

variable {s u : State} {p : Pins} {i : Instr} {w : Word}

/-! ## An edge at which no instruction can complete -/

theorem State.execEnabled_of_not_running (h : s.run ≠ .running) : s.execEnabled = false := by
  simp [State.execEnabled, h]

theorem State.execEnabled_of_no_slots (h : s.slots = 0) : s.execEnabled = false := by
  simp [State.execEnabled, h]

/-- Fx15 completes without a slot only beside the tick that gives its slot (log 21). -/
theorem State.loadsTimer_of_not_ldDtVx
    (h : ∀ w x, s.fetch = .ok w → decodeWord s.cfg.legacyUnimplemented w ≠ .ok (.ldDtVx x)) : s.loadsTimer = false := by
  unfold State.loadsTimer
  split
  · rfl
  · next w hf =>
    split
    · next x hd => exact absurd hd (h w x hf)
    · rfl

/-- With `rst` high, outside RUNNING, or without a slot and a tick that gives Fx15 one, the edge is a plain one. -/
theorem State.clockExec_of_none_completes (o : Bool)
    (h : p.rst = true ∨ s.run ≠ .running ∨ (s.slots = 0 ∧ (o = false ∨ p.tick = false ∨
      ∀ w x, s.fetch = .ok w → decodeWord s.cfg.legacyUnimplemented w ≠ .ok (.ldDtVx x)))) :
    s.clockExec o p = .next (s.clockEdge p) := by
  have htickRun : (s.tickPin p).run = s.run := s.changesOnly_tickPin p .run (by simp)
  rcases h with hrst | hrun | ⟨hslots, ho | htick | hother⟩
  · simp [State.clockExec, hrst]
  · simp [State.clockExec, State.execEnabled_of_not_running hrun,
      State.execEnabled_of_not_running (s := s.tickPin p) (htickRun ▸ hrun)]
  · simp [State.clockExec, State.execEnabled_of_no_slots hslots, ho]
  · simp [State.clockExec, State.execEnabled_of_no_slots hslots, s.tickPin_low p htick]
  · simp [State.clockExec, State.execEnabled_of_no_slots hslots, State.loadsTimer_of_not_ldDtVx hother]

/-! ## An edge at which one completes -/

/-- An instruction that answered `u`, its slot taken, and a pulse of its clock, latched where one comes (R282). -/
def State.completed (u : State) (pending : Bool) : State := { u.slotTaken with pendingTick := pending }

theorem State.changesOnly_completed (u : State) (b : Bool) :
    ChangesOnly (· ∈ [.pendingTick]) u.slotTaken (u.completed b) := changesOnly_pendingTick u.slotTaken b

theorem State.completed_frame (u : State) (b : Bool) :
    (u.completed b).run = u.run ∧ (u.completed b).keys = u.keys ∧ (u.completed b).wx = u.wx ∧
      (u.completed b).pc = u.pc ∧ (u.completed b).ports = u.ports := by
  unfold State.completed State.slotTaken
  split <;> exact ⟨rfl, rfl, rfl, rfl, rfl⟩

theorem State.retire_setPending (u : State) (b : Bool) :
    ({ u with pendingTick := b } : State).retire = u.completed b := by
  by_cases h : u.run = .running
  · rw [State.completed, State.slotTaken, if_pos h]
    exact if_pos h
  · rw [State.completed, State.slotTaken, if_neg h]
    exact if_neg h

section
variable (hrun : s.run = .running) (hslots : 0 < s.slots) (hf : s.fetch = .ok w)
  (hd : decodeWord s.cfg.legacyUnimplemented w = .ok i) (he : exec i s = .next u)
include hrun hslots hf hd he

/-- An instruction with a slot left does not see the pulse latched beside it. -/
theorem State.execInstr_tickPin : (s.tickPin p).execInstr = .next (u.completed (s.pendingTick || p.tick)) := by
  obtain ⟨-, -, -, -, -, -, -, hplan⟩ := (exec_effect he).frame
  have hpin := s.tickPin_latches p (State.execEnabled_of_slots hrun hslots)
  have haside := exec_setAside i s u (s.pendingTick || p.tick) s.host.steps he
  have hu : u.setAside (s.pendingTick || p.tick) s.host.steps = { u with pendingTick := s.pendingTick || p.tick } := by
    rw [← hplan]
    rfl
  rw [hu] at haside
  rw [hpin, ← State.retire_setPending]
  exact State.execInstr_of_decode (s := { s with pendingTick := s.pendingTick || p.tick }) hf hd haside

/-- Where the clock holds no Tick step, the edge is the instruction and then the end of every edge (R251). -/
theorem State.clockExec_of_completes (o : Bool) (hrst : p.rst = false)
    (halone : o = true → (∃ x, i = .ldDtVx x) ∨ (p.tick = false ∧ s.pendingTick = false)) :
    s.clockExec o p = .next ((u.completed (s.pendingTick || p.tick)).quitAndKey p) := by
  have hen := State.execEnabled_of_slots hrun hslots
  have hinstr := State.execInstr_tickPin (p := p) hrun hslots hf hd he
  by_cases hfirst : o = true ∧ s.loadsTimer = false
  · obtain ⟨rfl, hload⟩ := hfirst
    obtain ⟨htick, hpend⟩ := (halone rfl).resolve_left fun hi => by
      simp [(State.loadsTimer_iff hf hd).2 hi] at hload
    have hnone : (u.completed (s.pendingTick || p.tick)).latchedTickDue = false :=
      State.latchedTickDue_of_not_pending (by simp [State.completed, hpend, htick])
    rw [s.tickPin_low p htick] at hinstr
    rw [State.clockExec_exec_first p hrst hen hload hinstr, State.tickBeside, hnone, State.tickPin_low _ p htick]
    rfl
  · have hsecond : (o && !s.loadsTimer) = false := by simpa using hfirst
    simp [State.clockExec, hrst, hen, hsecond, hinstr, mapNext]

end

/-! ## What quit and key do at the end of the edge -/

theorem RunState.atWork_or_terminal {r : RunState} (h : r ≠ .load) :
    ((r = .running ∨ r = .waitKey) ∧ r.terminal = false) ∨ r.terminal = true := by
  cases r <;> simp_all [RunState.terminal]

/-- Neither quit nor key writes the pending-tick flag. -/
theorem State.quitAndKey_pendingTick (s : State) (p : Pins) : (s.quitAndKey p).pendingTick = s.pendingTick := by
  have hkey (t : State) : (t.keyStep p.keyCode).pendingTick = t.pendingTick := by
    rcases t.keyStep_cases p.keyCode with ⟨-, e⟩ | ⟨-, e⟩ | ⟨-, -, e⟩ <;> rw [e]
  have hquit : s.quitPin.pendingTick = s.pendingTick := by
    unfold State.quitPin
    split
    · rcases s.quitStep_cases with ⟨-, e⟩ | ⟨-, -, e⟩ <;> rw [e]
    · rfl
  rw [State.quitAndKey_eq]
  split
  · exact (hkey s.quitPin).trans hquit
  · exact hquit

theorem State.quitAndKey_spec_of_quit (hload : s.run ≠ .load) (hquit : s.ports.quitSync2 = true) :
    (s.quitAndKey p).run = (if s.run.terminal then s.run else .quit) ∧
      ChangesOnly (· ∈ [.run, .ports]) s (s.quitAndKey p) := by
  rcases RunState.atWork_or_terminal hload with ⟨hwork, hterm⟩ | hterm
  · rw [s.quitAndKey_of_quit p hquit hwork, hterm]
    exact ⟨rfl, (changesOnly_run s .quit).trans (changesOnly_ports _ _)⟩
  · rw [(State.atRest_of_load_or_terminal (.inr hterm)).quitAndKey p, hterm]
    exact ⟨rfl, (changesOnly_ports s _).mono (by simp)⟩

theorem State.quitAndKey_spec_of_key_running (hquit : s.ports.quitSync2 = false) (hnew : s.ports.NewRequest)
    (hrun : s.run = .running) :
    RecordsKey s.keys p.keyCode (s.quitAndKey p) ∧ ChangesOnly (· ∈ [.keys, .idle, .ports]) s (s.quitAndKey p) := by
  obtain ⟨hkey, hframe⟩ := State.keyStep_of_running p.keyCode hrun
  rw [s.quitAndKey_of_newRequest p hquit hnew]
  exact ⟨hkey, hframe.trans (changesOnly_ports _ _)⟩

theorem State.quitAndKey_spec_of_key_waitKey (hquit : s.ports.quitSync2 = false) (hnew : s.ports.NewRequest)
    (hwait : s.run = .waitKey) :
    RecordsKey s.keys p.keyCode (s.quitAndKey p) ∧ EndsWait s p.keyCode (s.quitAndKey p) ∧
      ChangesOnly (· ∈ [.reg s.wx, .pc, .run, .slots, .keys, .idle, .ports]) s (s.quitAndKey p) := by
  obtain ⟨hkey, hends, hframe⟩ := State.keyStep_of_waitKey p.keyCode hwait
  rw [s.quitAndKey_of_newRequest p hquit hnew]
  exact ⟨hkey, hends, hframe.trans (changesOnly_ports _ _)⟩

theorem State.changesOnly_quitAndKey_of_none (hquit : s.ports.quitSync2 = false)
    (hnone : ¬ s.ports.NewRequest ∨ s.run.terminal = true) : ChangesOnly (· ∈ [.ports]) s (s.quitAndKey p) := by
  have hmove : s.quitAndKey p = { s with ports := s.ports.shifted p } := by
    rcases hnone with hnot | hterm
    · exact s.quitAndKey_idle p hquit hnot
    · exact (State.atRest_of_load_or_terminal (.inr hterm)).quitAndKey p
  rw [hmove]
  exact changesOnly_ports s _

end Sys2Proof.Machine

open Sys2Proof Sys2Proof.Machine

/-- Settles O59: the instruction, its slot and the latched pulse come first, and the end of every edge follows (R251). -/
theorem edgeCompletesTheInstructionFirst : Obligations.EdgeCompletesTheInstructionFirst := by
  refine ⟨fun s o p rest ⟨hsteps, hl, hq⟩ hnone => ?_,
    fun s o p rest w i ⟨hsteps, hl, hq⟩ hrst hrun hslots hf hd halone => ?_⟩
  · have hedge := State.clockExec_of_none_completes (s := s.withPlan rest) o hnone
    have hplain := step_of_planned_edge (s.withPlan (.clock p :: rest)) p rest rfl hl
    exact ((step_of_plans s _ rest hsteps hl hq).trans hedge).trans hplain.symm
  · obtain ⟨u, he⟩ := exec_answers i (s.withPlan rest)
    have hedge := State.clockExec_of_completes (s := s.withPlan rest) hrun hslots hf hd he o hrst halone
    have hload : u.run ≠ .load := (exec_effect he).run_ne_load hrun
    obtain ⟨-, -, -, -, -, huports, -⟩ := (exec_effect he).frame
    have hfirst := u.changesOnly_completed (s.pendingTick || p.tick)
    obtain ⟨hcrun, hckeys, hcwx, hcpc, hcports⟩ := u.completed_frame (s.pendingTick || p.tick)
    have hports : (u.completed (s.pendingTick || p.tick)).ports = s.ports := hcports.trans huports
    obtain ⟨hshift, -⟩ := State.quitAndKey_portsAndPlan (t := u.completed (s.pendingTick || p.tick)) p rfl rfl
    rw [hports] at hshift
    refine ⟨u, _, he, (step_of_plans s _ rest hsteps hl hq).trans hedge, State.quitAndKey_pendingTick _ p, hshift,
      fun hquit => ?_, fun hquit hnew hurun => ?_, fun hquit hnew huwait => ?_, fun hquit hnone => ?_⟩
    · obtain ⟨hends, hframe⟩ := State.quitAndKey_spec_of_quit (p := p) (hcrun ▸ hload) (hports ▸ hquit)
      rw [hcrun] at hends
      exact ⟨hends, (hfirst.trans hframe).mono (by simp)⟩
    · obtain ⟨hkey, hframe⟩ :=
        State.quitAndKey_spec_of_key_running (p := p) (hports ▸ hquit) (hports ▸ hnew) (hcrun.trans hurun)
      rw [hckeys] at hkey
      exact ⟨hkey, (hfirst.trans hframe).mono (by simp)⟩
    · obtain ⟨hkey, hends, hframe⟩ :=
        State.quitAndKey_spec_of_key_waitKey (p := p) (hports ▸ hquit) (hports ▸ hnew) (hcrun.trans huwait)
      rw [hckeys] at hkey
      rw [EndsWait, hcwx, hcpc] at hends
      rw [hcwx] at hframe
      exact ⟨hkey, hends, (hfirst.trans hframe).mono (by simp)⟩
    · have hframe := State.changesOnly_quitAndKey_of_none (p := p) (hports ▸ hquit)
        (hnone.imp (hports ▸ ·) (hcrun ▸ ·))
      exact (hfirst.trans hframe).mono (by simp)
end
